-- ==== Sys2Proof/Word.lean ====
section
/-! DEFINITION. The word types of the command port and of memory (30_encoding.md R70, R71; 00_scope.md R11). -/
namespace Sys2Proof

/-- A byte: 8 bits, an unsigned value 0 to 255 (R11). -/
abbrev Byte := BitVec 8

/-- A command word: 8 bits `op`, 8 bits `a`, then `LEN_WIDTH` bits `n` (R7, R71). With `LEN_WIDTH = 16` these are the 32
bits `op[31:24] a[23:16] n[15:0]` of R71; at another width the order of the fields is kept (DEDUCED, log 20). -/
abbrev CommandWord (lenWidth : Nat) := BitVec (16 + lenWidth)

end Sys2Proof
end

