-- ==== Sys2Proof/Config.lean ====
section
/-! DEFINITION. The configuration record of 00_scope.md R7, the chip's Status snapshot (30_encoding.md R81, R82),
and the free values (the values the spec lets the environment choose). -/
namespace Sys2Proof

/-- `NUM_PIPES = 6` is the one number the source fixes (R8). -/
abbrev numPipes : Nat := 6

/-- A pipe that exists: `0 <= p < 6` (R12). -/
abbrev Pipe := Fin numPipes

/-- The whole configuration of the block (R7), fixed while it runs (R10).
`NUM_PIPES` is `numPipes` (R8). -/
structure Params where
  /-- `N`, ring-buffer capacity in bytes, one value for all six instances. -/
  capacity : Nat
  /-- `M`, largest payload byte count of one frame. -/
  maxPayload : Nat
  /-- `F`, total byte count of every frame. -/
  frameSize : Nat
  /-- `FILLER`, the byte a transmitter writes into filler positions. -/
  filler : Byte
  /-- `T`, the transmit timeout bound in milliseconds. -/
  txTimeout : Nat
  /-- `TIME_WIDTH`, width of the time input and of `tx_start`. -/
  timeWidth : Nat
  /-- `ERRCNT_WIDTH`, width of the checksum-error counter. -/
  errcntWidth : Nat
  /-- `PIPE_FIELD_WIDTH`, width of the pipe index a receive-data-ready status carries. -/
  pipeFieldWidth : Nat
  /-- `VALID_REG`, as the inclusive ranges of chip register addresses that are valid. -/
  validRanges : List (Nat × Nat)
  /-- `CHANNEL_MAX`, largest legal radio channel. -/
  channelMax : Nat
  /-- `ADDR_LEN`, byte count of a pipe or transmit address. -/
  addrLen : Nat
  /-- `LEN_WIDTH`, width of the field `n` of a command word. -/
  lenWidth : Nat
  /-- `TIMEOUT_CHECK_IN_IRQ`: the dispatcher also evaluates the timeout. -/
  timeoutCheckInIrq : Bool
  /-- `POLL_COMPLETES_TX`: a readiness poll that sees a completion status returns to Receiving itself. -/
  pollCompletesTx : Bool
deriving DecidableEq, Repr

/-- The defaults of R7. `T` has none: 100 is the value of 95_test_vectors.md (DESIGN CHOICE, log 2). `VALID_REG`,
`CHANNEL_MAX`, `ADDR_LEN`, `M`, `F` and the widths are the spec's general-knowledge defaults (PRESUMED, log 19). -/
def Params.default : Params where
  capacity := 16
  maxPayload := 30
  frameSize := 32
  filler := 0x00
  txTimeout := 100
  timeWidth := 32
  errcntWidth := 32
  pipeFieldWidth := 3
  validRanges := [(0x00, 0x17), (0x1C, 0x1D)]
  channelMax := 125
  addrLen := 5
  lenWidth := 16
  timeoutCheckInIrq := false
  pollCompletesTx := false

/-- The chip's status at one moment: which conditions are set, and the pipe index carried with
receive-data-ready (R81, R82). The rules see only its class (`Status`). -/
structure Snapshot where
  txComplete : Bool
  maxRetransmits : Bool
  rxReady : Bool
  pipe : Nat
deriving DecidableEq, Repr, Inhabited

/-- The four classes of a Status value (R81). -/
inductive Status where
  | txComplete
  | maxRetransmits
  | rxReady (q : Nat)
  | none
deriving DecidableEq, Repr

/-! Free values: no body, so nothing can be proved of their values. Each is applied to `State.freeIdx`, which the
machine advances at every draw, so that two draws are unrelated (log 4, log 5). -/

/-- Free bytes: a byte the spec leaves to "any value" (R26, R105, R202, R232). First the draw, then the position. -/
opaque Config.freeByte : Nat → Nat → Byte

/-- Free Status snapshots: what the chip answers when nothing is scripted (R232). -/
opaque Config.freeSnapshot : Nat → Snapshot

/-- Free advances of the time input between two reads, zero or more milliseconds (R229). -/
opaque Config.freeAdvance : Nat → Nat

/-- Free falling edges: whether one or more edges arrive during a step (R217, R232). -/
opaque Config.freeEdge : Nat → Bool

/-- Free choice at a step boundary with a pending edge: whether the dispatch starts there (R222). -/
opaque Config.freeChoice : Nat → Bool

end Sys2Proof
end

