-- ==== Sys2Proof/Syntax.lean ====
section
/-! DEFINITION. The 32 operations of 30_encoding.md R83 (spec/opcode_table.json), one constructor each, and who
issues them. Operands are the fields `a` and `n` read as R72 says; data streams are not part of the command word. -/
namespace Sys2Proof

/-- The operations. A pipe index, a channel, a capacity, a length and a count are numbers; a register address, a mask
and a byte are bytes (R72). The four operations with issuer `int` or `irq` have no operand fields (R83). -/
inductive Instr where
  /-- RB.INIT p, capacity (R100) -/
  | rbInit (p capacity : Nat)
  /-- RB.INSERT p, b (R101) -/
  | rbInsert (p : Nat) (b : Byte)
  /-- RB.REMOVE p (R102) -/
  | rbRemove (p : Nat)
  /-- RB.STARTPEEK p (R103) -/
  | rbStartPeek (p : Nat)
  /-- RB.PEEK p (R105) -/
  | rbPeek (p : Nat)
  /-- RB.COUNT p (R106) -/
  | rbCount (p : Nat)
  /-- RB.ISEMPTY p (R107) -/
  | rbIsEmpty (p : Nat)
  /-- RB.ISFULL p (R108) -/
  | rbIsFull (p : Nat)
  /-- CK.COMPUTE L (R123) -/
  | ckCompute (len : Nat)
  /-- CK.VERIFY L (R124) -/
  | ckVerify (len : Nat)
  /-- FR.BUILD L (R131) -/
  | frBuild (len : Nat)
  /-- FR.PARSE (R134) -/
  | frParse
  /-- FR.SPLIT L (R138) -/
  | frSplit (len : Nat)
  /-- MA.ENTER_TX, internal (R152) -/
  | maEnterTx
  /-- MA.TO_RX, internal (R156) -/
  | maToRx
  /-- MA.POLL (R159) -/
  | maPoll
  /-- MA.TIMEOUT, internal (R162) -/
  | maTimeout
  /-- IRQ.DISPATCH, run by the interrupt agent (R170) -/
  | irqDispatch
  /-- INIT (R185) -/
  | init
  /-- WRITE L (R142) -/
  | write (len : Nat)
  /-- WRITE_FRAME L (R140) -/
  | writeFrame (len : Nat)
  /-- AVAILABLE p (R188) -/
  | available (p : Nat)
  /-- DRAIN p, count (R189) -/
  | drain (p count : Nat)
  /-- CKERR_COUNT (R191) -/
  | ckerrCount
  /-- SET_RX_PIPE_ADDRESS p (R192) -/
  | setRxPipeAddress (p : Nat)
  /-- SET_TX_ADDRESS (R193) -/
  | setTxAddress
  /-- SET_CHANNEL ch (R194) -/
  | setChannel (ch : Nat)
  /-- ENABLE_PIPES mask (R195) -/
  | enablePipes (mask : Byte)
  /-- DISABLE_PIPES mask (R196) -/
  | disablePipes (mask : Byte)
  /-- REG.WRITE addr, b (R200) -/
  | regWrite (addr b : Byte)
  /-- REG.WRITEN addr, count (R201) -/
  | regWriteN (addr : Byte) (count : Nat)
  /-- REG.READ addr, count (R202) -/
  | regRead (addr : Byte) (count : Nat)
deriving DecidableEq, Repr

/-- Who runs an operation (R83): the task agent on the command port, another rule, or the interrupt agent. -/
inductive Issuer where
  | cmd
  | internal
  | irq
deriving DecidableEq, Repr

/-- The column "issuer" of R83. -/
def Instr.issuer : Instr → Issuer
  | .maEnterTx | .maToRx | .maTimeout => .internal
  | .irqDispatch => .irq
  | .rbInit _ _ | .rbInsert _ _ | .rbRemove _ | .rbStartPeek _ | .rbPeek _ | .rbCount _ | .rbIsEmpty _ | .rbIsFull _
  | .ckCompute _ | .ckVerify _ | .frBuild _ | .frParse | .frSplit _ | .maPoll | .init | .write _ | .writeFrame _
  | .available _ | .drain _ _ | .ckerrCount | .setRxPipeAddress _ | .setTxAddress | .setChannel _ | .enablePipes _
  | .disablePipes _ | .regWrite _ _ | .regWriteN _ _ | .regRead _ _ => .cmd

/-- The five pure operations: they read and write no state of the block and are accepted while `initialized = 0`
(R92, R130, R186). -/
def Instr.isPure : Instr → Bool
  | .ckCompute _ | .ckVerify _ | .frBuild _ | .frParse | .frSplit _ => true
  | .rbInit _ _ | .rbInsert _ _ | .rbRemove _ | .rbStartPeek _ | .rbPeek _ | .rbCount _ | .rbIsEmpty _ | .rbIsFull _
  | .maEnterTx | .maToRx | .maPoll | .maTimeout | .irqDispatch | .init | .write _ | .writeFrame _
  | .available _ | .drain _ _ | .ckerrCount | .setRxPipeAddress _ | .setTxAddress | .setChannel _ | .enablePipes _
  | .disablePipes _ | .regWrite _ _ | .regWriteN _ _ | .regRead _ _ => false

end Sys2Proof
end

