-- ==== Sys2Proof/WellFormed.lean ====
section
/-! DEFINITION. Which operations a command word can carry (30_encoding.md R71, R72) and which parameter values the
spec allows (00_scope.md R7). -/
namespace Sys2Proof

/-- A number that fits the 8-bit field `a` (R71). -/
def fitsA (x : Nat) : Bool := decide (x < 2 ^ 8)

/-- A number that fits the field `n` of `LEN_WIDTH` bits (R7, R71). -/
def fitsN (lenWidth x : Nat) : Bool := decide (x < 2 ^ lenWidth)

/-- Every number of the operation fits its field. A pipe index is the whole field `a`, so 6 to 255 are well formed
and are rejected by the operation, not by the encoding (R72). -/
def Instr.wf (lenWidth : Nat) : Instr → Bool
  | .rbInit p capacity => fitsA p && fitsN lenWidth capacity
  | .rbInsert p b => fitsA p && fitsN lenWidth b.toNat
  | .rbRemove p | .rbStartPeek p | .rbPeek p | .rbCount p | .rbIsEmpty p | .rbIsFull p => fitsA p
  | .ckCompute len | .ckVerify len | .frBuild len | .frSplit len => fitsN lenWidth len
  | .frParse | .maEnterTx | .maToRx | .maPoll | .maTimeout | .irqDispatch | .init => true
  | .write len | .writeFrame len => fitsN lenWidth len
  | .available p => fitsA p
  | .drain p count => fitsA p && fitsN lenWidth count
  | .ckerrCount | .setTxAddress => true
  | .setRxPipeAddress p => fitsA p
  | .setChannel ch => fitsA ch
  | .enablePipes _ | .disablePipes _ => true
  | .regWrite _ b => fitsN lenWidth b.toNat
  | .regWriteN _ count | .regRead _ count => fitsN lenWidth count

/-- The constraints of the table of R7. -/
structure Params.WF (c : Params) : Prop where
  capacity_pos : 1 ≤ c.capacity
  payload_pos : 1 ≤ c.maxPayload
  payload_byte : c.maxPayload ≤ 255
  frame_holds : c.maxPayload + 2 ≤ c.frameSize
  timeout_pos : 1 ≤ c.txTimeout
  timeout_half : c.txTimeout < 2 ^ (c.timeWidth - 1)
  errcnt_pos : 1 ≤ c.errcntWidth
  pipe_field : 3 ≤ c.pipeFieldWidth
  channel_byte : c.channelMax ≤ 255
  addr_pos : 1 ≤ c.addrLen

end Sys2Proof
end

