-- ==== Sys2Proof/Decode.lean ====
section
/-! DEFINITION. Decoding a command word (30_encoding.md R71, R72, R83 to R86), encoding it, and the operation map as
a list of rows (spec/opcode_table.json). -/
namespace Sys2Proof

/-- Why a command word stands for no operation. Both give `REJ_ILLEGAL` on the command port (R84, R85). -/
inductive DecodeError where
  /-- The `op` value is not in the table of R83 (R84). -/
  | unassignedOp
  /-- A field the table marks `0`, or `n[15:8]` beside a byte, is not zero (R85). -/
  | reservedField
deriving DecidableEq, Repr

/-- Field `op`, the first 8 bits; bits 31:24 when `LEN_WIDTH = 16` (R71). -/
def opField (lenWidth : Nat) (w : CommandWord lenWidth) : BitVec 8 := w.extractLsb' (lenWidth + 8) 8

/-- Field `a`, the next 8 bits; bits 23:16 when `LEN_WIDTH = 16` (R71). -/
def aField (lenWidth : Nat) (w : CommandWord lenWidth) : BitVec 8 := w.extractLsb' lenWidth 8

/-- Field `n`, the last `LEN_WIDTH` bits; bits 15:0 when `LEN_WIDTH = 16` (R71). -/
def nField (lenWidth : Nat) (w : CommandWord lenWidth) : BitVec lenWidth := w.extractLsb' 0 lenWidth

/-- `n[7:0]`, the byte operand `b` (R72). -/
def nLow (lenWidth : Nat) (w : CommandWord lenWidth) : Byte := (nField lenWidth w).setWidth 8

/-- The bits of `n` above `n[7:0]` are zero, as they must be beside a byte operand (R72, R85). -/
def nIsByte (lenWidth : Nat) (w : CommandWord lenWidth) : Bool := decide ((nField lenWidth w).toNat < 2 ^ 8)

/-- An operation whose listed reserved fields are zero, or the rejection of R85. -/
def whenZero (reservedAreZero : Bool) (i : Instr) : Except DecodeError Instr :=
  if reservedAreZero then .ok i else .error .reservedField

/-- Decoding, total on every command word. The fields of the `int` and `irq` codes have no use in R83 and are not
examined (log 15). -/
def decode (lenWidth : Nat) (w : CommandWord lenWidth) : Except DecodeError Instr :=
  let p := (aField lenWidth w).toNat
  let n := (nField lenWidth w).toNat
  let a0 := aField lenWidth w == 0
  let n0 := nField lenWidth w == 0
  match (opField lenWidth w).toNat with
  | 0x00 => .ok (.rbInit p n)
  | 0x01 => whenZero (nIsByte lenWidth w) (.rbInsert p (nLow lenWidth w))
  | 0x02 => whenZero n0 (.rbRemove p)
  | 0x03 => whenZero n0 (.rbStartPeek p)
  | 0x04 => whenZero n0 (.rbPeek p)
  | 0x05 => whenZero n0 (.rbCount p)
  | 0x06 => whenZero n0 (.rbIsEmpty p)
  | 0x07 => whenZero n0 (.rbIsFull p)
  | 0x10 => whenZero a0 (.ckCompute n)
  | 0x11 => whenZero a0 (.ckVerify n)
  | 0x20 => whenZero a0 (.frBuild n)
  | 0x21 => whenZero (a0 && n0) .frParse
  | 0x22 => whenZero a0 (.frSplit n)
  | 0x30 => .ok .maEnterTx
  | 0x31 => .ok .maToRx
  | 0x32 => whenZero (a0 && n0) .maPoll
  | 0x33 => .ok .maTimeout
  | 0x40 => .ok .irqDispatch
  | 0x50 => whenZero (a0 && n0) .init
  | 0x51 => whenZero a0 (.write n)
  | 0x52 => whenZero a0 (.writeFrame n)
  | 0x53 => whenZero n0 (.available p)
  | 0x54 => .ok (.drain p n)
  | 0x55 => whenZero (a0 && n0) .ckerrCount
  | 0x56 => whenZero n0 (.setRxPipeAddress p)
  | 0x57 => whenZero (a0 && n0) .setTxAddress
  | 0x58 => whenZero n0 (.setChannel p)
  | 0x59 => whenZero n0 (.enablePipes (aField lenWidth w))
  | 0x5A => whenZero n0 (.disablePipes (aField lenWidth w))
  | 0x60 => whenZero (nIsByte lenWidth w) (.regWrite (aField lenWidth w) (nLow lenWidth w))
  | 0x61 => .ok (.regWriteN (aField lenWidth w) n)
  | 0x62 => .ok (.regRead (aField lenWidth w) n)
  | _ => .error .unassignedOp

/-- A command word from its three fields (R71). -/
def assemble (lenWidth : Nat) (op a : BitVec 8) (n : BitVec lenWidth) : CommandWord lenWidth := op ++ a ++ n

/-- A command word with a number in field `a`. -/
def assembleA (lenWidth : Nat) (op : BitVec 8) (a : Nat) : CommandWord lenWidth :=
  assemble lenWidth op (BitVec.ofNat 8 a) 0

/-- A command word with a number in field `n`. -/
def assembleN (lenWidth : Nat) (op : BitVec 8) (n : Nat) : CommandWord lenWidth :=
  assemble lenWidth op 0 (BitVec.ofNat lenWidth n)

/-- A command word with a number in each of `a` and `n`. -/
def assembleAN (lenWidth : Nat) (op : BitVec 8) (a n : Nat) : CommandWord lenWidth :=
  assemble lenWidth op (BitVec.ofNat 8 a) (BitVec.ofNat lenWidth n)

/-- The command word of an operation (R71, R83); unused fields are zero (R85). -/
def encode (lenWidth : Nat) : Instr → CommandWord lenWidth
  | .rbInit p capacity => assembleAN lenWidth 0x00 p capacity
  | .rbInsert p b => assemble lenWidth 0x01 (BitVec.ofNat 8 p) (b.setWidth lenWidth)
  | .rbRemove p => assembleA lenWidth 0x02 p
  | .rbStartPeek p => assembleA lenWidth 0x03 p
  | .rbPeek p => assembleA lenWidth 0x04 p
  | .rbCount p => assembleA lenWidth 0x05 p
  | .rbIsEmpty p => assembleA lenWidth 0x06 p
  | .rbIsFull p => assembleA lenWidth 0x07 p
  | .ckCompute len => assembleN lenWidth 0x10 len
  | .ckVerify len => assembleN lenWidth 0x11 len
  | .frBuild len => assembleN lenWidth 0x20 len
  | .frParse => assemble lenWidth 0x21 0 0
  | .frSplit len => assembleN lenWidth 0x22 len
  | .maEnterTx => assemble lenWidth 0x30 0 0
  | .maToRx => assemble lenWidth 0x31 0 0
  | .maPoll => assemble lenWidth 0x32 0 0
  | .maTimeout => assemble lenWidth 0x33 0 0
  | .irqDispatch => assemble lenWidth 0x40 0 0
  | .init => assemble lenWidth 0x50 0 0
  | .write len => assembleN lenWidth 0x51 len
  | .writeFrame len => assembleN lenWidth 0x52 len
  | .available p => assembleA lenWidth 0x53 p
  | .drain p count => assembleAN lenWidth 0x54 p count
  | .ckerrCount => assemble lenWidth 0x55 0 0
  | .setRxPipeAddress p => assembleA lenWidth 0x56 p
  | .setTxAddress => assemble lenWidth 0x57 0 0
  | .setChannel ch => assembleA lenWidth 0x58 ch
  | .enablePipes mask => assemble lenWidth 0x59 mask 0
  | .disablePipes mask => assemble lenWidth 0x5A mask 0
  | .regWrite addr b => assemble lenWidth 0x60 addr (b.setWidth lenWidth)
  | .regWriteN addr count => assemble lenWidth 0x61 addr (BitVec.ofNat lenWidth count)
  | .regRead addr count => assemble lenWidth 0x62 addr (BitVec.ofNat lenWidth count)

/-- A word of the operation map, which is written for `LEN_WIDTH = 16`, as a word of the command port. -/
def ofTableWord (lenWidth : Nat) (w : CommandWord 16) : CommandWord lenWidth :=
  assemble lenWidth (opField 16 w) (aField 16 w) ((nField 16 w).setWidth lenWidth)

/-- One row of the operation map, which is written for `LEN_WIDTH = 16` (R71): the word must equal `pattern` on the bits
of `mask`. -/
structure OpcodeRow where
  mnemonic : String
  pattern : CommandWord 16
  mask : CommandWord 16
deriving DecidableEq, Repr

/-- The rows of the ring-buffer family (spec/opcode_table.json). -/
def ringRows : List OpcodeRow :=
  [⟨"RB.INIT", 0x00000000, 0xFF000000⟩, ⟨"RB.INSERT", 0x01000000, 0xFF00FF00⟩,
   ⟨"RB.REMOVE", 0x02000000, 0xFF00FFFF⟩, ⟨"RB.STARTPEEK", 0x03000000, 0xFF00FFFF⟩,
   ⟨"RB.PEEK", 0x04000000, 0xFF00FFFF⟩, ⟨"RB.COUNT", 0x05000000, 0xFF00FFFF⟩,
   ⟨"RB.ISEMPTY", 0x06000000, 0xFF00FFFF⟩, ⟨"RB.ISFULL", 0x07000000, 0xFF00FFFF⟩]

/-- The rows of the checksum and framing families. -/
def frameRows : List OpcodeRow :=
  [⟨"CK.COMPUTE", 0x10000000, 0xFFFF0000⟩, ⟨"CK.VERIFY", 0x11000000, 0xFFFF0000⟩,
   ⟨"FR.BUILD", 0x20000000, 0xFFFF0000⟩, ⟨"FR.PARSE", 0x21000000, 0xFFFFFFFF⟩,
   ⟨"FR.SPLIT", 0x22000000, 0xFFFF0000⟩]

/-- The rows of the mode arbiter and the dispatcher. -/
def modeRows : List OpcodeRow :=
  [⟨"MA.ENTER_TX", 0x30000000, 0xFF000000⟩, ⟨"MA.TO_RX", 0x31000000, 0xFF000000⟩,
   ⟨"MA.POLL", 0x32000000, 0xFFFFFFFF⟩, ⟨"MA.TIMEOUT", 0x33000000, 0xFF000000⟩,
   ⟨"IRQ.DISPATCH", 0x40000000, 0xFF000000⟩]

/-- The rows of the application, configuration and register-access families. -/
def applicationRows : List OpcodeRow :=
  [⟨"INIT", 0x50000000, 0xFFFFFFFF⟩, ⟨"WRITE", 0x51000000, 0xFFFF0000⟩,
   ⟨"WRITE_FRAME", 0x52000000, 0xFFFF0000⟩, ⟨"AVAILABLE", 0x53000000, 0xFF00FFFF⟩,
   ⟨"DRAIN", 0x54000000, 0xFF000000⟩, ⟨"CKERR_COUNT", 0x55000000, 0xFFFFFFFF⟩,
   ⟨"SET_RX_PIPE_ADDRESS", 0x56000000, 0xFF00FFFF⟩, ⟨"SET_TX_ADDRESS", 0x57000000, 0xFFFFFFFF⟩,
   ⟨"SET_CHANNEL", 0x58000000, 0xFF00FFFF⟩, ⟨"ENABLE_PIPES", 0x59000000, 0xFF00FFFF⟩,
   ⟨"DISABLE_PIPES", 0x5A000000, 0xFF00FFFF⟩, ⟨"REG.WRITE", 0x60000000, 0xFF00FF00⟩,
   ⟨"REG.WRITEN", 0x61000000, 0xFF000000⟩, ⟨"REG.READ", 0x62000000, 0xFF000000⟩]

/-- The operation map (spec/opcode_table.json), 32 rows. -/
def opcodeRows : List OpcodeRow := ringRows ++ frameRows ++ modeRows ++ applicationRows

/-- A word matches a row. -/
def OpcodeRow.accepts (r : OpcodeRow) (w : CommandWord 16) : Bool := w &&& r.mask == r.pattern

/-- The mnemonic of an operation (R83, R87). -/
def Instr.mnemonic : Instr → String
  | .rbInit _ _ => "RB.INIT"
  | .rbInsert _ _ => "RB.INSERT"
  | .rbRemove _ => "RB.REMOVE"
  | .rbStartPeek _ => "RB.STARTPEEK"
  | .rbPeek _ => "RB.PEEK"
  | .rbCount _ => "RB.COUNT"
  | .rbIsEmpty _ => "RB.ISEMPTY"
  | .rbIsFull _ => "RB.ISFULL"
  | .ckCompute _ => "CK.COMPUTE"
  | .ckVerify _ => "CK.VERIFY"
  | .frBuild _ => "FR.BUILD"
  | .frParse => "FR.PARSE"
  | .frSplit _ => "FR.SPLIT"
  | .maEnterTx => "MA.ENTER_TX"
  | .maToRx => "MA.TO_RX"
  | .maPoll => "MA.POLL"
  | .maTimeout => "MA.TIMEOUT"
  | .irqDispatch => "IRQ.DISPATCH"
  | .init => "INIT"
  | .write _ => "WRITE"
  | .writeFrame _ => "WRITE_FRAME"
  | .available _ => "AVAILABLE"
  | .drain _ _ => "DRAIN"
  | .ckerrCount => "CKERR_COUNT"
  | .setRxPipeAddress _ => "SET_RX_PIPE_ADDRESS"
  | .setTxAddress => "SET_TX_ADDRESS"
  | .setChannel _ => "SET_CHANNEL"
  | .enablePipes _ => "ENABLE_PIPES"
  | .disablePipes _ => "DISABLE_PIPES"
  | .regWrite _ _ => "REG.WRITE"
  | .regWriteN _ _ => "REG.WRITEN"
  | .regRead _ _ => "REG.READ"

/-- The instruction of a table word given as a number, bit 0 its least significant bit (the host's question). -/
def decodeTableWord (nbits w : Nat) : Option Instr :=
  if nbits ≤ 32 then
    match decode 16 (BitVec.ofNat 32 (w % 2 ^ nbits)) with
    | .ok i => some i
    | .error _ => none
  else none

end Sys2Proof
end

