-- ==== Sys2Proof/Machine/State.lean ====
section
/-! DEFINITION. Everything the spec gives the machine (10_state.md R20 to R44), the inputs of a step, and what the
block has put out so far. -/
namespace Sys2Proof.Machine

/-- Space RB (R38, R52): the cells that have been written, by flat address, addresses strictly rising.
A cell that is not listed was never written and holds no value (R26). -/
abbrev Memory := List Host.Cell

/-- The four registers of one ring buffer (R21). -/
structure RingBuffer where
  wr : Nat
  rd : Nat
  pk : Nat
  count : Nat
deriving DecidableEq, Repr

/-- The two modes (R32, R150): `tx_mode = 0` and `tx_mode = 1`. -/
inductive Mode where
  | receiving
  | transmitting
deriving DecidableEq, Repr

/-- Result codes (R90). -/
inductive Code where
  | ok
  | rejFull
  | rejEmpty
  | rejRange
  | rejLength
  | rejUnderrun
  | rejUninit
  | rejIllegal
deriving DecidableEq, Repr

/-- A result word and its output data stream (R89). `value` is a number; it is not cut to 32 bits (log 17). -/
structure Result where
  code : Code
  value : Nat
  out : List Byte
deriving DecidableEq, Repr

/-- Chip-port transactions (R231), as events of the port history (R16). An event holds what the block sends, not
what the chip answers (log 25). -/
inductive ChipEvent where
  | transportInit
  | configure
  | ce (level : Bool)
  | powerTx
  | powerRx
  | flushTx
  | writeTxFrame (f : List Byte)
  | status
  | readRxFrame
  | flushRx
  | clearRxReady
  | clearTxFlags
  | setRxAddress (p : Pipe) (bytes : List Byte)
  | setTxAddress (bytes : List Byte)
  | setChannel (ch : Nat)
  | enablePipes (mask : Byte)
  | disablePipes (mask : Byte)
  | regWrite (addr : Byte) (bytes : List Byte)
  | regRead (addr : Byte) (count : Nat)
deriving DecidableEq, Repr

/-- What WRITE and WRITE_FRAME are about to do: poll for readiness, or build and push a frame (R27 (b), R140). -/
inductive SendPhase where
  | waiting
  | sending
deriving DecidableEq, Repr

/-- The task agent between two atomic steps (R27 (b), (c); R62). The data of a write stay in `State.inStream`. -/
inductive Task where
  /-- No operation is running: the command port can accept a command. -/
  | idle
  /-- DRAIN of `count` bytes from pipe `p`, `out` already removed; with all of them removed it is about to return
  (R189). -/
  | drain (p : Pipe) (count : Nat) (out : List Byte)
  /-- WRITE_FRAME of `len` bytes (R140). -/
  | writeFrame (len : Nat) (phase : SendPhase)
  /-- WRITE of `len` bytes, `k` of them already handed to WRITE_FRAME; with `k = len` it is about to return (R142). -/
  | write (len k : Nat) (phase : SendPhase)
deriving DecidableEq, Repr

/-- A command as issued: the command word and its input data stream (R70). The word is a number whose low
`16 + LEN_WIDTH` bits are the ones of R71, since its width is a parameter (log 16, log 20). -/
structure Command where
  word : Nat
  stream : List Byte
deriving DecidableEq, Repr

/-- The environment's side of a step (R20, R222, R229, R232): what it will supply next, in order. Where a list is
empty the machine draws a free value instead (log 4). -/
structure Env where
  /-- Commands waiting at the command port, the next one first. -/
  commands : List Command
  /-- The time input (R229). -/
  now : Nat
  /-- How far the time input advances before each coming read. -/
  advances : List Nat
  /-- Answers to the coming `Chip.Status()`. -/
  snapshots : List Snapshot
  /-- Answers to the coming `Chip.ReadRxFrame()`. -/
  frames : List (List Byte)
  /-- Answers to the coming `Chip.RegRead`. -/
  regAnswers : List (List Byte)
  /-- For each coming step: whether a falling edge arrives during it. -/
  edges : List Bool
  /-- For each coming boundary with a pending edge: whether the dispatch starts there. -/
  choices : List Bool
deriving DecidableEq, Repr

/-- The machine. The block's own state is `rb` to `rxStage`; `params` is the configuration; `results` and `port` are
the outputs so far; `env` holds the inputs; `freeIdx` numbers the draws. -/
structure State where
  /-- The configuration (R7), which no step changes (R10). -/
  params : Params
  /-- The registers of the six ring buffers (R21). -/
  rb : Vector RingBuffer numPipes
  /-- The cells of the six ring buffers (R38). -/
  mem : Memory
  /-- `initialized` (R31). -/
  initialized : Bool
  /-- `tx_mode` (R32). -/
  mode : Mode
  /-- `cksum_err` (R33). -/
  cksumErr : Nat
  /-- `tx_start` (R34). -/
  txStart : Nat
  /-- `irq_pending` (R37). -/
  irqPending : Bool
  /-- The running operation of the task agent (R27). -/
  task : Task
  /-- The write-data stream of the running command (R39). -/
  inStream : List Byte
  /-- The transmit staging buffer (R40). -/
  txStage : List Byte
  /-- The receive staging buffer (R40). -/
  rxStage : List Byte
  /-- Results returned on the command port, oldest first (R89). -/
  results : List Result
  /-- The port history, oldest first (R16). -/
  port : List ChipEvent
  /-- The inputs. -/
  env : Env
  /-- The number of draws made so far; the index of the next free value. -/
  freeIdx : Nat
deriving DecidableEq, Repr

/-- Why the machine stops. The block itself never does (R210). -/
inductive Fault where
  /-- An access to a flat address of `6*N` or above, which does not exist (R52). Raised by the byte read and the byte
  write of space RB; only a state that breaks the invariant of R22 reaches it. Safe: it stops (log 11). -/
  | noSuchAddress (address : Nat)
deriving DecidableEq, Repr

/-- Why an operation has no meaning. -/
inductive Refusal where
  /-- An operation without a meaning yet, by its mnemonic. Raised by no arm of `exec`. Safe: it stops. -/
  | notModelled (mnemonic : String)
deriving DecidableEq, Repr

/-- The outcome of a step, an operation, or (at another type) of a part of one. -/
abbrev Outcome (α : Type) := Host.Outcome α Fault Refusal

/-- A ring buffer after RB.INIT: all four registers zero (R100, R243). -/
def RingBuffer.zero : RingBuffer := { wr := 0, rd := 0, pk := 0, count := 0 }

/-- An environment that has issued nothing and scripted nothing. -/
def Env.silent : Env :=
  { commands := [], now := 0, advances := [], snapshots := [], frames := [], regAnswers := [], edges := [],
    choices := [] }

/-- Power-on (R43, R241): `initialized = 0`, `irq_pending = 0`, no cell written. The registers the spec leaves
unspecified hold zero, and `tx_mode` Receiving (DESIGN CHOICE, log 3); the parameters are the defaults (log 2). -/
def State.reset : State where
  params := Params.default
  rb := Vector.replicate numPipes RingBuffer.zero
  mem := []
  initialized := false
  mode := .receiving
  cksumErr := 0
  txStart := 0
  irqPending := false
  task := .idle
  inStream := []
  txStage := []
  rxStage := []
  results := []
  port := []
  env := Env.silent
  freeIdx := 0

end Sys2Proof.Machine
end

