-- ==== Sys2Proof/Machine/Flags.lean ====
section
/-! DEFINITION. The predicates the operations test: the ring-buffer predicates (10_state.md R28, 40_ring_buffer.md
R104), the class of a Status snapshot (30_encoding.md R81, R82), the timeout (43_mode_arbiter.md R159, R160). -/
namespace Sys2Proof.Machine

/-- The ring buffer of a pipe (R12). -/
def State.ring (s : State) (p : Pipe) : RingBuffer := s.rb[p]

/-- `is_empty(p)` (R28). -/
def isEmpty (s : State) (p : Pipe) : Bool := (s.ring p).count == 0

/-- `is_full(p)` (R28). -/
def isFull (s : State) (p : Pipe) : Bool := (s.ring p).count == s.params.capacity

/-- The peek offset `d(p) = (pk - rd) mod N` (R104). -/
def peekOffset (capacity : Nat) (r : RingBuffer) : Nat := (r.pk + capacity - r.rd) % capacity

/-- `InWindow(p)` (R104). -/
def inWindow (s : State) (p : Pipe) : Bool := decide (peekOffset s.params.capacity (s.ring p) < (s.ring p).count)

/-- The class of a snapshot, in the order of R82: a transmit class, then receive-data-ready, then none (R221). The
carried index has `PIPE_FIELD_WIDTH` bits. -/
def classify (c : Params) (x : Snapshot) : Status :=
  if x.txComplete then .txComplete
  else if x.maxRetransmits then .maxRetransmits
  else if x.rxReady then .rxReady (x.pipe % 2 ^ c.pipeFieldWidth)
  else .none

/-- The raw nRF24L01 STATUS byte as a snapshot (R82, from general knowledge: G1; PRESUMED, log 18). No rule uses it. -/
def snapshotOfByte (b : Byte) : Snapshot :=
  { txComplete := b.getLsbD 5, maxRetransmits := b.getLsbD 4, rxReady := b.getLsbD 6,
    pipe := (b.extractLsb' 1 3).toNat }

/-- The two transmit classes, which are treated alike everywhere (R82, R172). -/
def isTransmit : Status → Bool
  | .txComplete | .maxRetransmits => true
  | .rxReady _ | .none => false

/-- Elapsed time modulo `2^TIME_WIDTH` (R160). -/
def elapsed (c : Params) (now start : Nat) : Nat :=
  (now + 2 ^ c.timeWidth - start % 2 ^ c.timeWidth) % 2 ^ c.timeWidth

/-- The bound is exceeded, strictly (R159). -/
def timedOut (c : Params) (now start : Nat) : Bool := decide (c.txTimeout < elapsed c now start)

/-- The radio-enable line as the port history leaves it; unknown before the first `Chip.CE` (R233, R241). -/
def radioEnable : List ChipEvent → Option Bool
  | [] => none
  | e :: es =>
    match radioEnable es with
    | some level => some level
    | none => match e with
      | .ce level => some level
      | _ => none

/-- The number of a result code (R90). -/
def Code.number : Code → Byte
  | .ok => 0x00
  | .rejFull => 0x01
  | .rejEmpty => 0x02
  | .rejRange => 0x03
  | .rejLength => 0x04
  | .rejUnderrun => 0x05
  | .rejUninit => 0x06
  | .rejIllegal => 0x07

end Sys2Proof.Machine
end

