-- ==== Sys2Proof/Machine/Operands.lean ====
section
/-! DEFINITION. The operands of the operations: the range tests on field `a` (30_encoding.md R72, 60_exceptions.md
R212) and the byte streams (R73). -/
namespace Sys2Proof.Machine

/-- A pipe index in `0 .. 5` (R187). -/
def pipeOf (p : Nat) : Option Pipe := if h : p < numPipes then some ⟨p, h⟩ else none

/-- `VALID_REG(addr)` (R199). -/
def validReg (c : Params) (addr : Byte) : Bool := c.validRanges.any fun r => decide (r.1 ≤ addr.toNat ∧ addr.toNat ≤ r.2)

/-- `mask[7:6] = 0` (R195). -/
def validMask (mask : Byte) : Bool := mask.extractLsb' 6 2 == 0

/-- How many bytes the input stream of an operation carries (R73). -/
def inBytes (c : Params) : Instr → Nat
  | .ckCompute len | .frBuild len | .write len | .writeFrame len => len
  | .ckVerify len => len + 1
  | .frParse => c.frameSize
  | .regWriteN _ count => count
  | .setRxPipeAddress _ | .setTxAddress => c.addrLen
  | .rbInit _ _ | .rbInsert _ _ | .rbRemove _ | .rbStartPeek _ | .rbPeek _ | .rbCount _ | .rbIsEmpty _ | .rbIsFull _
  | .frSplit _ | .maEnterTx | .maToRx | .maPoll | .maTimeout | .irqDispatch | .init | .available _ | .drain _ _
  | .ckerrCount | .setChannel _ | .enablePipes _ | .disablePipes _ | .regWrite _ _ | .regRead _ _ => 0

/-- Exactly `n` bytes: those supplied, cut after `n`, and free bytes of draw `k` where too few are supplied (log 7). -/
def fit (n k : Nat) (supplied : List Byte) : List Byte :=
  (supplied ++ (List.range (n - supplied.length)).map (Config.freeByte k)).take n

end Sys2Proof.Machine
end

