-- ==== Sys2Proof/Machine/Ops.lean ====
section
/-! DEFINITION. The operations the meanings share: sequencing, results and rejections (00_scope.md R14; this is what
stands for taking an exception: D1, R210), inputs and free values, the byte memory, the ring-buffer registers, the chip
port. -/
namespace Sys2Proof.Machine

/-- Do `f` after `x`, unless `x` stopped. -/
def andThen {α β : Type} (x : Outcome α) (f : α → Outcome β) : Outcome β :=
  match x with
  | .next a => f a
  | .fault r => .fault r
  | .refused r => .refused r

/-! Results. -/

/-- Return a result word and an output stream to the issuer; the operation is over and its input stream is gone
(R39, R62, R89). -/
def finish (s : State) (r : Result) : State :=
  { s with results := s.results ++ [r], task := .idle, inStream := [] }

/-- The task agent goes on with an operation at the next step (R27, R62). -/
def State.setTask (s : State) (task : Task) : State := { s with task := task }

/-- `return (OK, v)` with an output stream (R14). -/
def complete (s : State) (v : Nat) (out : List Byte) : Outcome State := .next (finish s ⟨.ok, v, out⟩)

/-- `reject <CODE>`: no state of the block changes, no chip-port event, value 0, empty stream (R14, R73, R89). -/
def reject (s : State) (code : Code) : Outcome State := .next (finish s ⟨code, 0, []⟩)

/-- Check (2) of R92: `REJ_UNINIT` while `initialized = 0`. -/
def whenInitialized (s : State) (k : Outcome State) : Outcome State :=
  if s.initialized then k else reject s .rejUninit

/-- The pipe check of R187: `REJ_RANGE` when `p >= 6`. -/
def withPipe (s : State) (p : Nat) (k : Pipe → Outcome State) : Outcome State :=
  match pipeOf p with
  | some q => k q
  | none => reject s .rejRange

/-- Check (4) of R92: `REJ_LENGTH` when `L > M`. -/
def withinPayload (s : State) (len : Nat) (k : Outcome State) : Outcome State :=
  if len > s.params.maxPayload then reject s .rejLength else k

/-! Inputs and free values. Every draw advances `freeIdx` (log 5). -/

/-- `n` free bytes. -/
def drawBytes (n : Nat) (s : State) : List Byte × State :=
  (fit n s.freeIdx [], { s with freeIdx := s.freeIdx + 1 })

/-- A cell that was written, or a free byte for one that never was (R26). -/
def drawCell (cell : Option Byte) (s : State) : Byte × State :=
  match cell with
  | some b => (b, s)
  | none => (Config.freeByte s.freeIdx 0, { s with freeIdx := s.freeIdx + 1 })

/-- `Now()`: the time input after it has advanced by zero or more milliseconds (R229). -/
def readNow (s : State) : Nat × State :=
  let t := (s.env.now + s.env.advances.headD (Config.freeAdvance s.freeIdx)) % 2 ^ s.params.timeWidth
  (t, { s with env := { s.env with now := t, advances := s.env.advances.tail }, freeIdx := s.freeIdx + 1 })

/-- Whether a falling edge arrives during this step (R217). -/
def drawEdge (s : State) : Bool × State :=
  (s.env.edges.headD (Config.freeEdge s.freeIdx),
   { s with env := { s.env with edges := s.env.edges.tail }, freeIdx := s.freeIdx + 1 })

/-- Whether a pending edge is dispatched at this boundary (R222). -/
def drawChoice (s : State) : Bool × State :=
  (s.env.choices.headD (Config.freeChoice s.freeIdx),
   { s with env := { s.env with choices := s.env.choices.tail }, freeIdx := s.freeIdx + 1 })

/-! Memory: space RB, one byte at a time (R13, R57). -/

/-- The byte of a listed cell. -/
def Memory.lookup : Memory → Nat → Option Byte
  | [], _ => none
  | (k, v) :: m, a => if k = a then some v else Memory.lookup m a

/-- The memory with a byte stored at an address, addresses kept strictly rising. -/
def Memory.store : Memory → Nat → Byte → Memory
  | [], a, b => [(a, b)]
  | (k, v) :: m, a, b =>
    if a < k then (a, b) :: (k, v) :: m
    else if a = k then (a, b) :: m
    else (k, v) :: Memory.store m a b

/-- The canonical form: addresses strictly rising. An unlisted address holds no value, so no entry can equal it. -/
abbrev Memory.wf (m : Memory) : Prop := m.Pairwise fun x y => x.1 < y.1

/-- The flat address of cell `i` of pipe `p` (R52). -/
def flatAddr (c : Params) (p : Pipe) (i : Nat) : Nat := p.val * c.capacity + i

/-- The flat addresses that exist: below `6*N` (R52). -/
def addrExists (c : Params) (a : Nat) : Bool := decide (a < numPipes * c.capacity)

/-- What one byte of space RB holds, if it was ever written: the read the statements use. -/
def State.cell (s : State) (a : Nat) : Option Byte := Memory.lookup s.mem a

/-- `MemWrite(a, 1, v)` (R13). -/
def memWrite (s : State) (a : Nat) (b : Byte) : Outcome State :=
  if addrExists s.params a then .next { s with mem := Memory.store s.mem a b } else .fault (.noSuchAddress a)

/-- `MemRead(a, 1)` (R13); a never-written cell gives a free byte (R26). -/
def memRead (s : State) (a : Nat) : Outcome (Byte × State) :=
  if addrExists s.params a then .next (drawCell (s.cell a) s) else .fault (.noSuchAddress a)

/-! Ring-buffer registers. -/

/-- Write the registers of one ring buffer (R12). -/
def State.setRing (s : State) (p : Pipe) (r : RingBuffer) : State := { s with rb := s.rb.set p.val r p.isLt }

/-- A cursor moved on by one, modulo `N` (R112). -/
def advance (capacity x : Nat) : Nat := (x + 1) % capacity

/-- The effect of RB.INIT on one pipe (R100, R243); cells are not cleared (R26). -/
def resetRing (s : State) (p : Pipe) : State := s.setRing p RingBuffer.zero

/-- The effect of RB.INSERT past its checks (R101): the cell, then `wr`, then `count`. -/
def insertByte (s : State) (p : Pipe) (b : Byte) : Outcome State :=
  andThen (memWrite s (flatAddr s.params p (s.ring p).wr) b) fun t =>
    .next (t.setRing p { t.ring p with wr := advance t.params.capacity (t.ring p).wr, count := (t.ring p).count + 1 })

/-- The effect of RB.REMOVE past its checks (R102): the byte at `rd`, then `rd`, then `count`. -/
def removeByte (s : State) (p : Pipe) : Outcome (Byte × State) :=
  andThen (memRead s (flatAddr s.params p (s.ring p).rd)) fun r =>
    .next (r.1, r.2.setRing p
      { r.2.ring p with rd := advance r.2.params.capacity (r.2.ring p).rd, count := (r.2.ring p).count - 1 })

/-- The effect of RB.PEEK past its checks (R105): the byte at `pk` if `InWindow` held, else a free byte; `pk`
advances. -/
def peekByte (s : State) (p : Pipe) : Outcome (Byte × State) :=
  andThen (memRead s (flatAddr s.params p (s.ring p).pk)) fun r =>
    let v := if inWindow s p then r else drawCell none s
    .next (v.1, v.2.setRing p { v.2.ring p with pk := advance v.2.params.capacity (v.2.ring p).pk })

/-- The effect of RB.INIT on all six pipes, as INIT runs it (R185). -/
def resetRings (s : State) : State := { s with rb := Vector.replicate numPipes RingBuffer.zero }

/-! The interrupt latch (R37). -/

/-- `irq_pending <- 0`, as a dispatch starts (R170, R220) and in INIT (R185). -/
def clearPending (s : State) : State := { s with irqPending := false }

/-! The chip port (R231, R232). -/

/-- Append transactions to the port history (R16). -/
def emit (s : State) (es : List ChipEvent) : State := { s with port := s.port ++ es }

/-- `Chip.Status()`: one snapshot from the chip, classified (R81, R82). -/
def chipStatus (s : State) : Status × State :=
  (classify s.params (s.env.snapshots.headD (Config.freeSnapshot s.freeIdx)),
   { emit s [.status] with env := { s.env with snapshots := s.env.snapshots.tail }, freeIdx := s.freeIdx + 1 })

/-- `Chip.ReadRxFrame()`: `F` bytes from the chip into the receive staging buffer (R51, R174). -/
def chipReadRxFrame (s : State) : State :=
  { emit s [.readRxFrame] with
    rxStage := fit s.params.frameSize s.freeIdx (s.env.frames.headD []),
    env := { s.env with frames := s.env.frames.tail }, freeIdx := s.freeIdx + 1 }

/-- `Chip.RegRead(addr, n)`: `n` bytes from the chip (R202, R232). -/
def chipRegRead (s : State) (addr : Byte) (n : Nat) : List Byte × State :=
  (fit n s.freeIdx (s.env.regAnswers.headD []),
   { emit s [.regRead addr n] with
     env := { s.env with regAnswers := s.env.regAnswers.tail }, freeIdx := s.freeIdx + 1 })

/-! The mode arbiter (43_mode_arbiter.md). -/

/-- The port events of the return to Receiving (R156). -/
def toRxEvents : List ChipEvent := [.ce false, .powerRx, .clearTxFlags, .ce true]

/-- The port events of entering Transmitting with frame `f` (R152). -/
def enterTxEvents (f : List Byte) : List ChipEvent := [.ce false, .powerTx, .flushTx, .writeTxFrame f, .ce true]

/-- The effect of MA.TO_RX (R156): the port steps, then `tx_mode <- 0`. -/
def toRx (s : State) : State := { emit s toRxEvents with mode := .receiving }

/-- The effect of MA.TIMEOUT: exactly MA.TO_RX (R162). -/
def forceRecovery (s : State) : State := toRx s

/-- The effect of MA.ENTER_TX (R152): `tx_mode <- 1`, `tx_start <- Now()`, then the five port steps. The frame is the
one in the transmit staging buffer (R51), which the chip then holds and the block forgets (R35). -/
def enterTx (s : State) : State :=
  let r := readNow { s with mode := .transmitting }
  { emit r.2 (enterTxEvents s.txStage) with txStart := r.1, txStage := [] }

/-- The effect of MA.POLL (R159): whether the block is in Receiving when the poll ends. -/
def poll (s : State) : Bool × State :=
  match s.mode with
  | .receiving => (true, s)
  | .transmitting =>
    let r := chipStatus s
    if r.2.params.pollCompletesTx && isTransmit r.1 then (true, toRx r.2)
    else
      let t := readNow r.2
      if timedOut t.2.params t.1 t.2.txStart then (true, forceRecovery t.2) else (false, t.2)

end Sys2Proof.Machine
end

