-- ==== Sys2Proof/Machine/Application.lean ====
section
/-! DEFINITION. INIT, AVAILABLE, DRAIN and CKERR_COUNT (45_application_interface.md R185, R188, R189, R191). -/
namespace Sys2Proof.Machine

/-- INIT (R185): the latch, the bus, the chip, the error counter, the ring buffers, Receiving, then `initialized`. -/
def execInit (s : State) : Outcome State :=
  let t := emit (clearPending s) [.transportInit, .configure]
  complete { toRx (resetRings { t with cksumErr := 0 }) with initialized := true } 0 []

/-- AVAILABLE (R188); on an invalid pipe the value is 0 and the code `REJ_RANGE`. -/
def execAvailable (p : Nat) (s : State) : Outcome State :=
  whenInitialized s (withPipe s p fun q => complete s (s.ring q).count [])

/-- DRAIN up to its first interleaving point: the availability check (R62, R189). -/
def execDrain (p count : Nat) (s : State) : Outcome State :=
  whenInitialized s (withPipe s p fun q =>
    if count > (s.ring q).count then reject s .rejUnderrun else .next (s.setTask (.drain q count [])))

/-- The next step of a running DRAIN that has removed `out` (R189): one RB.REMOVE, whose byte goes out whatever its
code, or, after the last one, the return. A dispatch may run before each (R62). After a passed check the buffer is not
empty at a remove. -/
def stepDrain (q : Pipe) (count : Nat) (out : List Byte) (s : State) : Outcome State :=
  if out.length < count then
    if isEmpty s q then .next (s.setTask (.drain q count (out ++ [0])))
    else andThen (removeByte s q) fun r => .next (r.2.setTask (.drain q count (out ++ [r.1])))
  else complete s 0 out

/-- CKERR_COUNT (R191). -/
def execCkerrCount (s : State) : Outcome State := whenInitialized s (complete s s.cksumErr [])

end Sys2Proof.Machine
end

