-- ==== Sys2Proof/Machine/Checksum.lean ====
section
/-! DEFINITION. The checksum and its two operations (41_checksum.md R120 to R124). -/
namespace Sys2Proof.Machine

/-- The byte accumulator of R121 and R123, in unbounded numbers; reduced modulo 256 by `checksum`. -/
def byteSum : List Byte → Nat
  | [] => 0
  | b :: bs => b.toNat + byteSum bs

/-- `Checksum(L, s)`: the complement of `(L + sum of the bytes) mod 256` (R120). -/
def checksum (len : Nat) (bytes : List Byte) : Byte := ~~~ BitVec.ofNat 8 (len + byteSum bytes)

/-- CK.COMPUTE (R123). -/
def execCkCompute (len : Nat) (s : State) : Outcome State :=
  withinPayload s len (complete s (checksum len (s.inStream.take len)).toNat [])

/-- CK.VERIFY (R124): `L` payload bytes, then the received checksum byte. -/
def execCkVerify (len : Nat) (s : State) : Outcome State :=
  withinPayload s len
    (complete s (s.inStream[len]? == some (checksum len (s.inStream.take len))).toNat [])

end Sys2Proof.Machine
end

