-- ==== Sys2Proof/Machine/Configuration.lean ====
section
/-! DEFINITION. The configuration operations (45_application_interface.md R192 to R197): each checks its operand and
issues one chip-port transaction; no state of the block changes. -/
namespace Sys2Proof.Machine

/-- SET_RX_PIPE_ADDRESS (R192): the address bytes in stream order. -/
def execSetRxPipeAddress (p : Nat) (s : State) : Outcome State :=
  whenInitialized s (withPipe s p fun q =>
    complete (emit s [.setRxAddress q (s.inStream.take s.params.addrLen)]) 0 [])

/-- SET_TX_ADDRESS (R193). -/
def execSetTxAddress (s : State) : Outcome State :=
  whenInitialized s (complete (emit s [.setTxAddress (s.inStream.take s.params.addrLen)]) 0 [])

/-- SET_CHANNEL (R194). -/
def execSetChannel (ch : Nat) (s : State) : Outcome State :=
  whenInitialized s
    (if ch > s.params.channelMax then reject s .rejRange else complete (emit s [.setChannel ch]) 0 [])

/-- ENABLE_PIPES (R195). -/
def execEnablePipes (mask : Byte) (s : State) : Outcome State :=
  whenInitialized s
    (if validMask mask then complete (emit s [.enablePipes mask]) 0 [] else reject s .rejRange)

/-- DISABLE_PIPES (R196). -/
def execDisablePipes (mask : Byte) (s : State) : Outcome State :=
  whenInitialized s
    (if validMask mask then complete (emit s [.disablePipes mask]) 0 [] else reject s .rejRange)

end Sys2Proof.Machine
end

