-- ==== Sys2Proof/Machine/Framing.lean ====
section
/-! DEFINITION. The frame (30_encoding.md R74 to R80) and the operations that build, parse and split
(42_framing.md R131 to R138). -/
namespace Sys2Proof.Machine

/-- The frame of a length and its payload: length byte, payload, checksum byte, filler (R74, R131). -/
def buildFrame (c : Params) (len : Nat) (payload : List Byte) : List Byte :=
  BitVec.ofNat 8 len :: payload ++ checksum len payload :: List.replicate (c.frameSize - len - 2) c.filler

/-- The payload of an accepted frame, `none` if `Accept(f)` does not hold (R78, R80, R134). -/
def parseFrame (c : Params) (f : List Byte) : Option (List Byte) :=
  match f with
  | [] => none
  | lengthByte :: rest =>
    let len := lengthByte.toNat
    if len > c.maxPayload then none
    else if rest[len]? = some (checksum len (rest.take len)) then some (rest.take len)
    else none

/-- The payload lengths of the fragments of a write of `len` bytes (R136, R138). -/
def fragmentLengths (maxPayload len : Nat) : List Nat :=
  List.replicate (len / maxPayload) maxPayload ++ (if len % maxPayload > 0 then [len % maxPayload] else [])

/-- FR.BUILD (R131). -/
def execFrBuild (len : Nat) (s : State) : Outcome State :=
  withinPayload s len (complete s 0 (buildFrame s.params len (s.inStream.take len)))

/-- FR.PARSE (R134): a frame that is not accepted is a normal result with value `0xFFFFFFFF`. -/
def execFrParse (s : State) : Outcome State :=
  match parseFrame s.params (s.inStream.take s.params.frameSize) with
  | some payload => complete s payload.length payload
  | none => complete s 0xFFFFFFFF []

/-- FR.SPLIT (R138): the number of fragments, and their payload lengths as bytes. -/
def execFrSplit (len : Nat) (s : State) : Outcome State :=
  let parts := fragmentLengths s.params.maxPayload len
  complete s parts.length (parts.map (BitVec.ofNat 8))

end Sys2Proof.Machine
end

