-- ==== Sys2Proof/Machine/ModeArbiter.lean ====
section
/-! DEFINITION. The mode-arbiter operations (43_mode_arbiter.md R152 to R162). MA.ENTER_TX, MA.TO_RX and MA.TIMEOUT are
internal: other rules run them and they return no result (R83, R84). -/
namespace Sys2Proof.Machine

/-- MA.ENTER_TX (R152), its frame operand in the transmit staging buffer. -/
def execMaEnterTx (s : State) : Outcome State := .next (enterTx s)

/-- MA.TO_RX (R156). -/
def execMaToRx (s : State) : Outcome State := .next (toRx s)

/-- MA.POLL (R159). -/
def execMaPoll (s : State) : Outcome State :=
  whenInitialized s (complete (poll s).2 (poll s).1.toNat [])

/-- MA.TIMEOUT (R162). -/
def execMaTimeout (s : State) : Outcome State := .next (forceRecovery s)

end Sys2Proof.Machine
end

