-- ==== Sys2Proof/Machine/ReceiveDispatch.lean ====
section
/-! DEFINITION. IRQ.DISPATCH (44_receive_dispatch.md R170 to R180), one atomic step of the interrupt agent (R61). -/
namespace Sys2Proof.Machine

/-- Offer the payload bytes to a ring buffer in order; a byte that finds it full is dropped (R175). -/
def admitBytes (q : Pipe) : List Byte → State → Outcome State
  | [], s => .next s
  | b :: bs, s =>
    if (s.ring q).count < s.params.capacity then andThen (insertByte s q b) (admitBytes q bs) else admitBytes q bs s

/-- One more checksum error, modulo `2^ERRCNT_WIDTH` (R33, R176). -/
def countError (s : State) : State := { s with cksumErr := (s.cksumErr + 1) % 2 ^ s.params.errcntWidth }

/-- Case 2 with a valid pipe: read the frame, flush, clear the flag, then validate (R174 to R176). The receive staging
buffer holds the frame inside the dispatch only (R40). -/
def receiveFrame (q : Pipe) (s : State) : Outcome State :=
  let t := emit (chipReadRxFrame s) [.flushRx, .clearRxReady]
  let done := { t with rxStage := [] }
  match parseFrame t.params t.rxStage with
  | some payload => admitBytes q payload done
  | none => .next (countError done)

/-- The three cases, by the class of the Status (R172, R173, R174, R177). -/
def dispatchCase (class_ : Status) (s : State) : Outcome State :=
  match class_ with
  | .txComplete | .maxRetransmits => .next (toRx s)
  | .rxReady q =>
    match pipeOf q with
    | none => .next (emit s [.clearRxReady])
    | some q => receiveFrame q s
  | .none => .next s

/-- The optional last step (R165, R180). The time input is read only while Transmitting (log 14). -/
def dispatchTimeout (s : State) : State :=
  if s.params.timeoutCheckInIrq && s.mode == .transmitting then
    let t := readNow s
    if timedOut t.2.params t.1 t.2.txStart then forceRecovery t.2 else t.2
  else s

/-- IRQ.DISPATCH (R170, R171). -/
def execIrqDispatch (s : State) : Outcome State :=
  if s.initialized then
    let r := chipStatus (clearPending s)
    andThen (dispatchCase r.1 r.2) fun t => .next (dispatchTimeout t)
  else .next (clearPending s)

end Sys2Proof.Machine
end

