-- ==== Sys2Proof/Machine/RegisterAccess.lean ====
section
/-! DEFINITION. The register-access operations (45_application_interface.md R199 to R202). -/
namespace Sys2Proof.Machine

/-- REG.WRITE (R200). -/
def execRegWrite (addr b : Byte) (s : State) : Outcome State :=
  whenInitialized s
    (if validReg s.params addr then complete (emit s [.regWrite addr [b]]) 0 [] else reject s .rejRange)

/-- REG.WRITEN (R201). -/
def execRegWriteN (addr : Byte) (count : Nat) (s : State) : Outcome State :=
  whenInitialized s
    (if validReg s.params addr then complete (emit s [.regWrite addr (s.inStream.take count)]) 0 []
     else reject s .rejRange)

/-- REG.READ (R202): the one rejection that returns an output stream, of `count` free bytes (log 10). -/
def execRegRead (addr : Byte) (count : Nat) (s : State) : Outcome State :=
  whenInitialized s
    (if validReg s.params addr then
      complete (chipRegRead s addr count).2 0 (chipRegRead s addr count).1
     else .next (finish (drawBytes count s).2 ⟨.rejRange, 0, (drawBytes count s).1⟩))

end Sys2Proof.Machine
end

