-- ==== Sys2Proof/Machine/RingBuffer.lean ====
section
/-! DEFINITION. The ring-buffer operations (40_ring_buffer.md R100 to R108), checks in the order of R92. -/
namespace Sys2Proof.Machine

/-- RB.INIT (R100): `capacity` is only compared with `N`. -/
def execRbInit (p capacity : Nat) (s : State) : Outcome State :=
  whenInitialized s (withPipe s p fun q =>
    if capacity = s.params.capacity then complete (resetRing s q) 0 [] else reject s .rejRange)

/-- RB.INSERT (R101). -/
def execRbInsert (p : Nat) (b : Byte) (s : State) : Outcome State :=
  whenInitialized s (withPipe s p fun q =>
    if isFull s q then reject s .rejFull else andThen (insertByte s q b) fun t => complete t 0 [])

/-- RB.REMOVE (R102). -/
def execRbRemove (p : Nat) (s : State) : Outcome State :=
  whenInitialized s (withPipe s p fun q =>
    if isEmpty s q then reject s .rejEmpty else andThen (removeByte s q) fun r => complete r.2 r.1.toNat [])

/-- RB.STARTPEEK (R103). -/
def execRbStartPeek (p : Nat) (s : State) : Outcome State :=
  whenInitialized s (withPipe s p fun q =>
    complete (s.setRing q { s.ring q with pk := (s.ring q).rd }) 0 [])

/-- RB.PEEK (R105). -/
def execRbPeek (p : Nat) (s : State) : Outcome State :=
  whenInitialized s (withPipe s p fun q =>
    if isEmpty s q then reject s .rejEmpty else andThen (peekByte s q) fun r => complete r.2 r.1.toNat [])

/-- RB.COUNT (R106). -/
def execRbCount (p : Nat) (s : State) : Outcome State :=
  whenInitialized s (withPipe s p fun q => complete s (s.ring q).count [])

/-- RB.ISEMPTY (R107). -/
def execRbIsEmpty (p : Nat) (s : State) : Outcome State :=
  whenInitialized s (withPipe s p fun q => complete s (isEmpty s q).toNat [])

/-- RB.ISFULL (R108). -/
def execRbIsFull (p : Nat) (s : State) : Outcome State :=
  whenInitialized s (withPipe s p fun q => complete s (isFull s q).toNat [])

end Sys2Proof.Machine
end

