-- ==== Sys2Proof/Machine/WritePath.lean ====
section
/-! DEFINITION. WRITE_FRAME and WRITE (42_framing.md R140, R142), cut at the interleaving points of 20_memory.md R62:
after each MA.POLL, and after each WRITE_FRAME inside a WRITE. The meaning of the operation runs up to its first
interleaving point; the steps after it are the task agent's (`TaskAgent.lean`). -/
namespace Sys2Proof.Machine

/-- What follows a poll: push when ready, poll again when not (R140). -/
def phaseAfter (ready : Bool) : SendPhase := if ready then .sending else .waiting

/-- One MA.POLL of the busy-wait, with the operation that then goes on (R140). -/
def pollThen (s : State) (resume : SendPhase → Task) : Outcome State :=
  .next ((poll s).2.setTask (resume (phaseAfter (poll s).1)))

/-- FR.BUILD into the transmit staging buffer, then MA.ENTER_TX (R140). -/
def pushFrame (s : State) (payload : List Byte) : State :=
  enterTx { s with txStage := buildFrame s.params payload.length payload }

/-- The payload length of the fragment that starts at offset `k` (R136, R142). -/
def fragmentAt (c : Params) (len k : Nat) : Nat := min c.maxPayload (len - k)

/-- WRITE_FRAME up to its first interleaving point: the length check, then the first MA.POLL (R140). -/
def execWriteFrame (len : Nat) (s : State) : Outcome State :=
  whenInitialized s (withinPayload s len (pollThen s (.writeFrame len)))

/-- WRITE up to its first interleaving point: nothing for `L = 0`, else the first MA.POLL of the first fragment
(R142). -/
def execWrite (len : Nat) (s : State) : Outcome State :=
  whenInitialized s (if len = 0 then complete s 0 [] else pollThen s (.write len 0))

/-- The next step of a running WRITE_FRAME (R140). -/
def stepWriteFrame (len : Nat) (phase : SendPhase) (s : State) : Outcome State :=
  match phase with
  | .waiting => pollThen s (.writeFrame len)
  | .sending => complete (pushFrame s (s.inStream.take len)) 0 []

/-- The next step of a running WRITE, `k` bytes handed over so far (R142): a poll, or the push of the next fragment,
which ends a WRITE_FRAME, or, after the last one, the return. A dispatch may run before each (R62). -/
def stepWrite (len k : Nat) (phase : SendPhase) (s : State) : Outcome State :=
  match phase with
  | .waiting => if k < len then pollThen s (.write len k) else complete s 0 []
  | .sending =>
    let m := fragmentAt s.params len k
    .next ((pushFrame s ((s.inStream.drop k).take m)).setTask (.write len (k + m) .waiting))

end Sys2Proof.Machine
end

