-- ==== Sys2Proof/Machine/Dispatch.lean ====
section
/-! DEFINITION. One arm per operation (30_encoding.md R83). -/
namespace Sys2Proof.Machine

def exec (i : Instr) (s : State) : Host.Outcome State Fault Refusal :=
  match i with
  | .rbInit p capacity => Sys2Proof.Machine.execRbInit p capacity s
  | .rbInsert p b => Sys2Proof.Machine.execRbInsert p b s
  | .rbRemove p => Sys2Proof.Machine.execRbRemove p s
  | .rbStartPeek p => Sys2Proof.Machine.execRbStartPeek p s
  | .rbPeek p => Sys2Proof.Machine.execRbPeek p s
  | .rbCount p => Sys2Proof.Machine.execRbCount p s
  | .rbIsEmpty p => Sys2Proof.Machine.execRbIsEmpty p s
  | .rbIsFull p => Sys2Proof.Machine.execRbIsFull p s
  | .ckCompute len => Sys2Proof.Machine.execCkCompute len s
  | .ckVerify len => Sys2Proof.Machine.execCkVerify len s
  | .frBuild len => Sys2Proof.Machine.execFrBuild len s
  | .frParse => Sys2Proof.Machine.execFrParse s
  | .frSplit len => Sys2Proof.Machine.execFrSplit len s
  | .maEnterTx => Sys2Proof.Machine.execMaEnterTx s
  | .maToRx => Sys2Proof.Machine.execMaToRx s
  | .maPoll => Sys2Proof.Machine.execMaPoll s
  | .maTimeout => Sys2Proof.Machine.execMaTimeout s
  | .irqDispatch => Sys2Proof.Machine.execIrqDispatch s
  | .init => Sys2Proof.Machine.execInit s
  | .write len => Sys2Proof.Machine.execWrite len s
  | .writeFrame len => Sys2Proof.Machine.execWriteFrame len s
  | .available p => Sys2Proof.Machine.execAvailable p s
  | .drain p count => Sys2Proof.Machine.execDrain p count s
  | .ckerrCount => Sys2Proof.Machine.execCkerrCount s
  | .setRxPipeAddress p => Sys2Proof.Machine.execSetRxPipeAddress p s
  | .setTxAddress => Sys2Proof.Machine.execSetTxAddress s
  | .setChannel ch => Sys2Proof.Machine.execSetChannel ch s
  | .enablePipes mask => Sys2Proof.Machine.execEnablePipes mask s
  | .disablePipes mask => Sys2Proof.Machine.execDisablePipes mask s
  | .regWrite addr b => Sys2Proof.Machine.execRegWrite addr b s
  | .regWriteN addr count => Sys2Proof.Machine.execRegWriteN addr count s
  | .regRead addr count => Sys2Proof.Machine.execRegRead addr count s

end Sys2Proof.Machine
end

