-- ==== Sys2Proof/Machine/TaskAgent.lean ====
section
/-! DEFINITION. One atomic step of the task agent (20_memory.md R62): accept the next command on the command port
(30_encoding.md R70, R84, R85), or go on with the running operation. -/
namespace Sys2Proof.Machine

/-- The input stream of an accepted operation: exactly as many bytes as its rule says (R73; log 7 where the issuer
supplies more or fewer). -/
def openStream (i : Instr) (supplied : List Byte) (s : State) : State :=
  { s with inStream := fit (inBytes s.params i) s.freeIdx supplied, freeIdx := s.freeIdx + 1 }

/-- What the word of a command stands for (R71, R83). -/
def Command.operation (c : Command) (params : Params) : Except DecodeError Instr :=
  decode params.lenWidth (BitVec.ofNat _ c.word)

/-- Check (1) of R92: a word that stands for no operation, or for one the command port does not accept, is
`REJ_ILLEGAL`; its input stream is consumed (R73, R84, R85). -/
def issue (c : Command) (s : State) : Outcome State :=
  match c.operation s.params with
  | .ok i => if i.issuer = .cmd then exec i (openStream i c.stream s) else reject s .rejIllegal
  | .error _ => reject s .rejIllegal

/-- The command port between operations: take the next command, or idle (R62, R244). -/
def acceptCommand (s : State) : Outcome State :=
  match s.env.commands with
  | [] => .next s
  | c :: rest => issue c { s with env := { s.env with commands := rest } }

/-- One atomic step of the task agent. -/
def taskStep (s : State) : Outcome State :=
  match s.task with
  | .idle => acceptCommand s
  | .drain q count out => stepDrain q count out s
  | .writeFrame len phase => stepWriteFrame len phase s
  | .write len k phase => stepWrite len k phase s

/-- One atomic step of whichever agent moves: with a pending edge the choice is the environment's (R219, R220, R222),
without one it is the task agent's. -/
def agentStep (s : State) : Outcome State :=
  if s.irqPending then
    let c := drawChoice s
    if c.1 then exec .irqDispatch c.2 else taskStep c.2
  else taskStep s

/-- A falling edge that arrives during a step is latched, and dispatched after it (R37, R61 (c), R226). -/
def latchEdge (edge : Bool) (s : State) : State := { s with irqPending := s.irqPending || edge }

/-- An atomic step with the edges that arrive during it. -/
def steppedWithEdge (s : State) : Outcome State :=
  andThen (agentStep (drawEdge s).2) fun t => .next (latchEdge (drawEdge s).1 t)

/-- The command port holding one more command in front, and the task agent free to accept it at once. -/
def commandInFront (s : State) (c : Command) : State :=
  { s with
    task := .idle
    env := { s.env with
      commands := c :: s.env.commands
      choices := if s.irqPending then false :: s.env.choices else s.env.choices } }

/-- A word of the operation map with an input stream of zero bytes, as many as its operation takes. -/
def commandOfWord (c : Params) (w : CommandWord 16) : Command :=
  { word := (ofTableWord c.lenWidth w).toNat
    stream := match decode 16 w with
      | .ok i => List.replicate (inBytes c i) 0
      | .error _ => [] }

/-- A pending edge whose dispatch starts at the next boundary (R222). -/
def dispatchNext (s : State) : State :=
  { s with irqPending := true, env := { s.env with choices := true :: s.env.choices } }

/-- A word placed so that the next step runs what it stands for: a command waits at the command port; IRQ.DISPATCH,
which only the interrupt agent starts, is started by a pending edge (R170). The internal codes are placed as commands,
and are rejected (R84); log 6. -/
def placeWord (s : State) (w : CommandWord 16) : State :=
  match decode 16 w with
  | .ok .irqDispatch => dispatchNext s
  | _ => commandInFront s (commandOfWord s.params w)

end Sys2Proof.Machine
end

