-- ==== Sys2Proof/Machine/Step.lean ====
section
/-! DEFINITION. One step of the machine: one atomic step of one agent (20_memory.md R60 to R62), and how the host
places a command word. -/
namespace Sys2Proof.Machine

/-- One atomic step (R60). -/
def step (s : State) : Host.Outcome State Fault Refusal := steppedWithEdge s

/-- `s` with a command word waiting in front of the command port, with an input stream of zero bytes of the length the
operation takes, the task agent idle, and a pending edge (if any) not dispatched at the next boundary; for the code of
IRQ.DISPATCH, a pending edge that is dispatched next (log 6). -/
def State.withFetchWord (s : State) (nbits w : Nat) : State :=
  placeWord s (BitVec.ofNat 32 (w % 2 ^ nbits))

end Sys2Proof.Machine
end

