-- ==== Sys2Proof/Safety.lean ====
section
/-! DEFINITION. What a good state is (10_state.md R22, R23, R26, R33, R34, R40; 43_mode_arbiter.md R153), what the
content of a ring buffer is (R23), and which part of a state is the block's. -/
namespace Sys2Proof.Machine

/-- The registers of one ring buffer of capacity `N` (R22, R23). -/
structure RingBuffer.Good (capacity : Nat) (r : RingBuffer) : Prop where
  wr_lt : r.wr < capacity
  rd_lt : r.rd < capacity
  pk_lt : r.pk < capacity
  count_le : r.count ≤ capacity
  wr_eq : r.wr = (r.rd + r.count) % capacity

/-- The flat address of valid byte number `j` of a pipe, 0 the oldest (R23). -/
def validAddr (s : State) (p : Pipe) (j : Nat) : Nat :=
  flatAddr s.params p (((s.ring p).rd + j) % s.params.capacity)

/-- The valid content of a ring buffer, oldest first (R23); `none` for a cell that was never written. -/
def contents (s : State) (p : Pipe) : List (Option Byte) :=
  (List.range (s.ring p).count).map fun j => s.cell (validAddr s p j)

/-- What a running operation of the task agent may rely on (R27, R137, R153, R189): a DRAIN still has its bytes to
come, a write has its data, the block is initialised, and it is Receiving when a frame is about to be pushed. -/
def Task.Good (s : State) : Task → Prop
  | .idle => s.inStream = []
  | .drain p count out =>
    s.initialized = true ∧ out.length ≤ count ∧ count - out.length ≤ (s.ring p).count
  | .writeFrame len phase =>
    s.initialized = true ∧ len ≤ s.params.maxPayload ∧ s.inStream.length = len ∧
      (phase = .sending → s.mode = .receiving)
  | .write len k phase =>
    s.initialized = true ∧ k ≤ len ∧ s.inStream.length = len ∧ (phase = .sending → k < len ∧ s.mode = .receiving)

/-- The invariant of the machine. -/
structure Inv (s : State) : Prop where
  /-- The parameters are legal (R7). -/
  params : s.params.WF
  /-- R22, R23. -/
  rings : ∀ p : Pipe, (s.ring p).Good s.params.capacity
  /-- Memory is in its canonical form. -/
  mem_wf : Memory.wf s.mem
  /-- Only cells that exist are written (R52). -/
  mem_in : ∀ x ∈ s.mem, x.1 < numPipes * s.params.capacity
  /-- Every valid byte was written (R26). -/
  written : ∀ p : Pipe, ∀ b ∈ contents s p, b ≠ none
  /-- `cksum_err` fits its width (R33). -/
  cksum_lt : s.cksumErr < 2 ^ s.params.errcntWidth
  /-- `tx_start` fits its width (R34). -/
  start_lt : s.txStart < 2 ^ s.params.timeWidth
  /-- The time input fits its width (R229). -/
  now_lt : s.env.now < 2 ^ s.params.timeWidth
  /-- The staging buffers are empty between steps (R40). -/
  tx_empty : s.txStage = []
  rx_empty : s.rxStage = []
  /-- The running operation (R27). -/
  task_good : s.task.Good s

/-- The block's own state (R21, R30, R38), without the configuration, the running operation, the inputs and the
outputs: what R14 and R214 say a rejected operation leaves as it was. -/
structure BlockState where
  rb : Vector RingBuffer numPipes
  mem : Memory
  initialized : Bool
  mode : Mode
  cksumErr : Nat
  txStart : Nat
  irqPending : Bool
deriving DecidableEq, Repr

/-- The block's own state of a machine state. -/
def State.block (s : State) : BlockState where
  rb := s.rb
  mem := s.mem
  initialized := s.initialized
  mode := s.mode
  cksumErr := s.cksumErr
  txStart := s.txStart
  irqPending := s.irqPending

/-- `s` after an operation that returned `r` and changed nothing else: no block state, no port event (R14, R214). -/
def State.returned (s : State) (r : Result) : State :=
  { s with results := s.results ++ [r], task := .idle, inStream := [] }

/-- `s` after the port events `es`, and nothing else (R16). -/
def State.issued (s : State) (es : List ChipEvent) : State := { s with port := s.port ++ es }

/-- From `s` to `t` an operation returned `r` and is over; the configuration is the same (R10, R62). -/
structure Answered (s t : State) (r : Result) : Prop where
  results : t.results = s.results ++ [r]
  idle : t.task = .idle
  stream : t.inStream = []
  params : t.params = s.params

/-- From `s` to `t` the block issued exactly these port events, in this order (R16). -/
abbrev Emitted (s t : State) (es : List ChipEvent) : Prop := t.port = s.port ++ es

/-- The codes an operation can return (R212), apart from `REJ_ILLEGAL`, which the command port returns before any
operation runs. The internal and interrupt operations return none. -/
def possibleCodes : Instr → List Code
  | .rbInit _ _ | .rbStartPeek _ | .rbCount _ | .rbIsEmpty _ | .rbIsFull _ | .available _ | .setRxPipeAddress _
  | .setChannel _ | .enablePipes _ | .disablePipes _ | .regWrite _ _ | .regWriteN _ _ | .regRead _ _ =>
    [.ok, .rejUninit, .rejRange]
  | .rbInsert _ _ => [.ok, .rejUninit, .rejRange, .rejFull]
  | .rbRemove _ | .rbPeek _ => [.ok, .rejUninit, .rejRange, .rejEmpty]
  | .ckCompute _ | .ckVerify _ | .frBuild _ => [.ok, .rejLength]
  | .frParse | .frSplit _ | .init => [.ok]
  | .maPoll | .write _ | .ckerrCount | .setTxAddress => [.ok, .rejUninit]
  | .writeFrame _ => [.ok, .rejUninit, .rejLength]
  | .drain _ _ => [.ok, .rejUninit, .rejRange, .rejUnderrun]
  | .maEnterTx | .maToRx | .maTimeout | .irqDispatch => []

/-- The pipe a ring-buffer operation names, if it names one. -/
def ringOperand : Instr → Option Nat
  | .rbInit p _ | .rbInsert p _ | .rbRemove p | .rbStartPeek p | .rbPeek p | .rbCount p | .rbIsEmpty p | .rbIsFull p =>
    some p
  | .ckCompute _ | .ckVerify _ | .frBuild _ | .frParse | .frSplit _ | .maEnterTx | .maToRx | .maPoll | .maTimeout
  | .irqDispatch | .init | .write _ | .writeFrame _ | .available _ | .drain _ _ | .ckerrCount | .setRxPipeAddress _
  | .setTxAddress | .setChannel _ | .enablePipes _ | .disablePipes _ | .regWrite _ _ | .regWriteN _ _
  | .regRead _ _ => none

/-- The task agent is inside the write path: a WRITE or a WRITE_FRAME is running (R144). -/
def Task.isWrite : Task → Bool
  | .writeFrame _ _ | .write _ _ _ => true
  | .idle | .drain _ _ _ => false

/-- The task agent is about to build and push a frame (R140). -/
def Task.isPushing : Task → Bool
  | .writeFrame _ .sending | .write _ _ .sending => true
  | .writeFrame _ .waiting | .write _ _ .waiting | .idle | .drain _ _ _ => false

/-- The frames that port events hand to the chip, in order (R152). -/
def pushedFrames : List ChipEvent → List (List Byte)
  | [] => []
  | .writeTxFrame f :: es => f :: pushedFrames es
  | _ :: es => pushedFrames es

/-- The payloads of the frames that port events hand to the chip, joined in order (R139). -/
def pushedBytes (c : Params) (es : List ChipEvent) : List Byte :=
  (pushedFrames es).flatMap fun f => (parseFrame c f).getD []

/-- Two machines that differ at most in what R43 leaves unspecified: before INIT in the registers without a power-on
value, after it in `tx_start` while Receiving (R34). -/
structure SameButUnspecified (s t : State) : Prop where
  rest : t = { s with rb := t.rb, mode := t.mode, cksumErr := t.cksumErr, txStart := t.txStart }
  before : s.initialized = false → s.task = .idle
  rb : s.initialized = true → t.rb = s.rb
  mode : s.initialized = true → t.mode = s.mode
  cksum : s.initialized = true → t.cksumErr = s.cksumErr
  start : s.initialized = true → s.mode = .transmitting → t.txStart = s.txStart

/-- A ring-buffer operation of one pipe, for the laws over sequences (R109, R110). -/
inductive RingOp where
  | insert (b : Byte)
  | remove
deriving DecidableEq, Repr

/-- The operation as an instruction. -/
def RingOp.instr (p : Nat) : RingOp → Instr
  | .insert b => .rbInsert p b
  | .remove => .rbRemove p

/-- Run a sequence of operations, one after the other. -/
def execAll : List Instr → State → Outcome State
  | [], s => .next s
  | i :: is, s => andThen (exec i s) (execAll is)

/-- The bytes that the inserts of a sequence put in, given the results they returned (R109: "the bytes of the inserts
that returned `OK`, in order"). -/
def acceptedBytes : List RingOp → List Result → List Byte
  | .insert b :: ops, r :: rs => if r.code = .ok then b :: acceptedBytes ops rs else acceptedBytes ops rs
  | .remove :: ops, _ :: rs => acceptedBytes ops rs
  | _, _ => []

/-- The values that the removes of a sequence returned with `OK`, in order (R109). -/
def removedBytes : List RingOp → List Result → List Nat
  | .remove :: ops, r :: rs => if r.code = .ok then r.value :: removedBytes ops rs else removedBytes ops rs
  | .insert _ :: ops, _ :: rs => removedBytes ops rs
  | _, _ => []

end Sys2Proof.Machine
end

