-- ==== Sys2Proof/Certificates/Slice0/Obligations.lean ====
section
/-! DEFINITION. The statements for the provers. Each holds for every configuration the parameters of a state give,
under the hypotheses it names. -/
open Sys2Proof Sys2Proof.Machine

/-! ## Encoding -/

/-- Decoding the command word of a well-formed operation gives the operation back, every operand at every value its
field admits, at every `LEN_WIDTH` (R7, R71, R72, R83; the words of widths other than 16 are log 20). -/
def Obligations.DecodeOfEncodeIsTheOperation : Prop :=
  ∀ (lenWidth : Nat) (i : Instr), i.wf lenWidth = true → decode lenWidth (encode lenWidth i) = .ok i

/-- With `LEN_WIDTH = 16` the decoder accepts exactly the words of the operation map (R83), each as the operation of its
row. At every `LEN_WIDTH` the operands fit their fields, and an operation of the command port has one word only:
encoding what a word decodes to gives the word (R85, R86; the words of widths other than 16 are log 20). -/
def Obligations.DecoderFollowsTheOperationMap : Prop :=
  (∀ w : CommandWord 16,
    (∀ i, decode 16 w = .ok i → ∃ r ∈ opcodeRows, r.accepts w = true ∧ r.mnemonic = i.mnemonic) ∧
    (∀ r ∈ opcodeRows, r.accepts w = true → ∃ i, decode 16 w = .ok i ∧ i.mnemonic = r.mnemonic)) ∧
  ∀ (lenWidth : Nat) (w : CommandWord lenWidth) (i : Instr), decode lenWidth w = .ok i →
    i.wf lenWidth = true ∧ (i.issuer = .cmd → encode lenWidth i = w)

/-- Words written out from the encoding of R71 and R83 decode to the operations they stand for, and words with an
unassigned code or a non-zero reserved field are rejected. -/
def Obligations.WrittenOutWordsDecode : Prop :=
  decode 16 0x01020041 = .ok (.rbInsert 2 0x41) ∧ decode 16 0x11000005 = .ok (.ckVerify 5) ∧
  decode 16 0x2200FFFF = .ok (.frSplit 65535) ∧ decode 16 0x32000000 = .ok .maPoll ∧
  decode 16 0x40000000 = .ok .irqDispatch ∧ decode 16 0x5402000A = .ok (.drain 2 10) ∧
  decode 16 0x584C0000 = .ok (.setChannel 76) ∧ decode 16 0x6005004C = .ok (.regWrite 0x05 0x4C) ∧
  decode 16 0x70000000 = .error .unassignedOp ∧ decode 16 0x05020001 = .error .reservedField

/-! ## Steps -/

/-- With no running operation, and no pending edge or one that is not dispatched at this boundary, a step takes the
command in front, opens its input stream, runs `exec` of what its word decodes to, and latches an edge that arrived
meanwhile (R62, R70, R217, R222). A stream supplied at the length the operation takes is taken as it is (R73); that the
opened stream has this length whatever is supplied is the model's choice (log 7). -/
def Obligations.StepRunsTheDecodedOperation : Prop :=
  (∀ (s s₀ : State) (c : Command) (rest : List Command) (i : Instr),
    s.task = .idle → s.env.commands = c :: rest →
    decode s.params.lenWidth (BitVec.ofNat _ c.word) = .ok i → i.issuer = .cmd →
    (s.irqPending = false ∧ s₀ = (drawEdge s).2) ∨
      (s.irqPending = true ∧ (drawChoice (drawEdge s).2).1 = false ∧ s₀ = (drawChoice (drawEdge s).2).2) →
    step s = andThen (exec i (openStream i c.stream { s₀ with env := { s₀.env with commands := rest } }))
      fun t => .next (latchEdge (drawEdge s).1 t)) ∧
  (∀ (i : Instr) (supplied : List Byte) (s : State),
    (openStream i supplied s).inStream.length = inBytes s.params i ∧
    (supplied.length = inBytes s.params i → (openStream i supplied s).inStream = supplied))

/-- A word that stands for no operation, or for an internal or interrupt operation, is answered `REJ_ILLEGAL`,
initialised or not: nothing of the block changes but an edge that arrives, and no port event is issued (R84, R85). -/
def Obligations.IllegalWordIsRejected : Prop :=
  ∀ (s : State) (c : Command) (rest : List Command),
    s.task = .idle → s.irqPending = false → s.env.commands = c :: rest →
    (∀ i, decode s.params.lenWidth (BitVec.ofNat _ c.word) = .ok i → i.issuer ≠ .cmd) →
    ∃ t, step s = .next t ∧ Answered s t ⟨.rejIllegal, 0, []⟩ ∧
      t.block = { s.block with irqPending := (drawEdge s).1 } ∧ t.port = s.port ∧ t.env.commands = rest

/-- At a boundary with a pending edge the environment chooses: the step is a whole IRQ.DISPATCH, or one atomic step of
the task agent. Both can happen: with the choice scripted, the step follows the script, and latches the edge scripted
for it (R61, R217, R219, R222). -/
def Obligations.PendingEdgeLeavesTheChoiceOpen : Prop :=
  (∀ s : State, s.irqPending = true →
    step s = andThen
      (if (drawChoice (drawEdge s).2).1 then exec .irqDispatch (drawChoice (drawEdge s).2).2
       else taskStep (drawChoice (drawEdge s).2).2)
      fun t => .next (latchEdge (drawEdge s).1 t)) ∧
  ∀ (s s₀ : State) (edge choice : Bool) (edges choices : List Bool), s.irqPending = true →
    s.env.edges = edge :: edges → s.env.choices = choice :: choices →
    s₀ = { s with env := { s.env with edges := edges, choices := choices }, freeIdx := s.freeIdx + 2 } →
    (choice = true → step s = andThen (exec .irqDispatch s₀) fun t => .next (latchEdge edge t)) ∧
    (choice = false → step s = andThen (taskStep s₀) fun t => .next (latchEdge edge t))

/-- With no command waiting, no operation running and no pending edge the block idles: nothing of it changes but an
edge that arrives (R244). -/
def Obligations.IdleBlockWaits : Prop :=
  ∀ s : State, s.task = .idle → s.irqPending = false → s.env.commands = [] →
    ∃ t, step s = .next t ∧ t.block = { s.block with irqPending := (drawEdge s).1 } ∧ t.port = s.port ∧
      t.results = s.results ∧ t.task = .idle

/-! ## Invariants of every step -/

/-- The machine right after power-on meets the invariant. Its parameters and the registers without a power-on value
hold what the model chose (log 2, log 3). -/
def Obligations.ResetMeetsTheInvariant : Prop := Inv State.reset

/-- Every step keeps the invariant: ring-buffer registers in range and consistent (R22, R23), memory canonical and
inside space RB (R52), valid bytes written (R26), counters within their widths, staging buffers empty, running
operations in order. -/
def Obligations.StepKeepsTheInvariant : Prop :=
  ∀ s t : State, Inv s → step s = .next t → Inv t

/-- Nothing stops in a good state: no step, and no operation, whichever agent it belongs to (R210). -/
def Obligations.NothingStops : Prop :=
  ∀ s : State, Inv s → (∃ t, step s = .next t) ∧ ∀ i : Instr, ∃ t, exec i s = .next t

/-- No step changes a parameter (R10). -/
def Obligations.ParametersNeverChange : Prop :=
  ∀ s t : State, step s = .next t → t.params = s.params

/-- What the block has put out is never taken back: a step only appends to the results and to the port history; and
`initialized` is never cleared (R16, R31). -/
def Obligations.OutputsOnlyGrow : Prop :=
  ∀ s t : State, step s = .next t →
    s.results <+: t.results ∧ s.port <+: t.port ∧ (s.initialized = true → t.initialized = true)

/-- Between steps the radio-enable line of an initialised block is high: every sequence that lowers it raises it again
in the same critical step (R152, R156, R185, R233). -/
def Obligations.RadioIsEnabledBetweenSteps : Prop :=
  ∀ s t : State, (s.initialized = true → radioEnable s.port = some true) → step s = .next t →
    t.initialized = true → radioEnable t.port = some true

/-- No register that power-on leaves unspecified is ever observed: two machines that differ only there put out the same
results and the same port history, step by step (R43, R245). So no run depends on the values of log 3. -/
def Obligations.UnspecifiedRegistersAreNeverObserved : Prop :=
  ∀ s t s' : State, SameButUnspecified s t → step s = .next s' →
    ∃ t', step t = .next t' ∧ SameButUnspecified s' t'

/-! ## Reset and initialisation -/

/-- Power-on: `initialized = 0`, `irq_pending = 0`, no cell written, nothing running (R43, R241). The other registers'
values are the model's choice (log 3) and are not stated. -/
def Obligations.PowerOnState : Prop :=
  State.reset.initialized = false ∧ State.reset.irqPending = false ∧ (∀ a, State.reset.cell a = none) ∧
  State.reset.task = .idle ∧ State.reset.port = [] ∧ State.reset.results = []

/-- INIT from any state: the block's state after it, an edge that arrives while it runs being latched; its answer; and
its port events in order (R44, R185). -/
def Obligations.InitResetsTheBlock : Prop :=
  ∀ s : State, ∃ t, exec .init s = .next t ∧ Answered s t ⟨.ok, 0, []⟩ ∧
    t.block = { s.block with
      initialized := true, mode := .receiving, cksumErr := 0, irqPending := false,
      rb := Vector.replicate 6 ⟨0, 0, 0, 0⟩ } ∧
    (∀ edge, (latchEdge edge t).irqPending = edge) ∧
    Emitted s t [.transportInit, .configure, .ce false, .powerRx, .clearTxFlags, .ce true]

/-- Before INIT every command-port operation but INIT and the five pure ones is rejected with `REJ_UNINIT`; nothing
else changes (R186). -/
def Obligations.UninitialisedBlockRejects : Prop :=
  ∀ (i : Instr) (s : State), s.initialized = false → i.issuer = .cmd → i ≠ .init → i.isPure = false →
    exec i s = .next (s.returned ⟨.rejUninit, 0, []⟩)

/-! ## Rejections -/

/-- A command-port operation that answers anything but `OK` leaves the whole state of the block and the port history as
they were, and the command port is free again (R14, R111, R214). -/
def Obligations.RejectedOperationChangesNothing : Prop :=
  ∀ (i : Instr) (s t : State) (r : Result), exec i s = .next t → t.results = s.results ++ [r] → r.code ≠ .ok →
    t.block = s.block ∧ t.port = s.port ∧ t.task = .idle ∧ t.params = s.params

/-- Which codes an operation can return (R212). -/
def Obligations.OperationsReturnOnlyTheirCodes : Prop :=
  ∀ (i : Instr) (s t : State), exec i s = .next t →
    t.results = s.results ∨ ∃ r, t.results = s.results ++ [r] ∧ r.code ∈ possibleCodes i

/-- A pipe index of 6 or above is rejected with `REJ_RANGE`, value 0 and an empty stream, by every operation that takes
one (R187, R188). -/
def Obligations.OutOfRangePipeIsRejected : Prop :=
  ∀ (s : State) (p capacity count : Nat) (b : Byte), s.initialized = true → 6 ≤ p →
    ∀ i ∈ [Instr.rbInit p capacity, .rbInsert p b, .rbRemove p, .rbStartPeek p, .rbPeek p, .rbCount p, .rbIsEmpty p,
      .rbIsFull p, .available p, .drain p count, .setRxPipeAddress p],
      exec i s = .next (s.returned ⟨.rejRange, 0, []⟩)

/-- The other operand checks: a capacity other than `N`, a channel above `CHANNEL_MAX`, a mask with bit 6 or 7, an
invalid register address, a payload longer than `M` (R100, R124, R131, R140, R194, R195, R199). -/
def Obligations.BadOperandIsRejected : Prop :=
  ∀ s : State, s.initialized = true →
    (∀ (p : Pipe) (capacity : Nat), capacity ≠ s.params.capacity →
      exec (.rbInit p.val capacity) s = .next (s.returned ⟨.rejRange, 0, []⟩)) ∧
    (∀ ch, s.params.channelMax < ch → exec (.setChannel ch) s = .next (s.returned ⟨.rejRange, 0, []⟩)) ∧
    (∀ mask : Byte, 64 ≤ mask.toNat →
      exec (.enablePipes mask) s = .next (s.returned ⟨.rejRange, 0, []⟩) ∧
      exec (.disablePipes mask) s = .next (s.returned ⟨.rejRange, 0, []⟩)) ∧
    (∀ (addr b : Byte) (count : Nat), validReg s.params addr = false →
      exec (.regWrite addr b) s = .next (s.returned ⟨.rejRange, 0, []⟩) ∧
      exec (.regWriteN addr count) s = .next (s.returned ⟨.rejRange, 0, []⟩)) ∧
    (∀ len, s.params.maxPayload < len →
      ∀ i ∈ [Instr.ckCompute len, .ckVerify len, .frBuild len, .writeFrame len],
        exec i s = .next (s.returned ⟨.rejLength, 0, []⟩))

/-! ## Ring buffer -/

/-- RB.INIT zeroes the four registers of its pipe; cells, other pipes and device registers are unchanged (R243). -/
def Obligations.RingInitZeroesOnePipe : Prop :=
  ∀ (s : State) (p : Pipe), s.initialized = true →
    exec (.rbInit p.val s.params.capacity) s = .next
      ((s.setRing p ⟨0, 0, 0, 0⟩).returned ⟨.ok, 0, []⟩)

/-- RB.INSERT into a buffer that is not full: the byte goes to the cell at the write cursor, every other byte of space
RB reads as before, `wr` advances modulo `N`, `count` grows by one, `rd` and `pk` and everything else stay (R101). -/
def Obligations.InsertStoresAtTheWriteCursor : Prop :=
  ∀ (s : State) (p : Pipe) (b : Byte), s.initialized = true → (s.ring p).count ≠ s.params.capacity →
    (s.ring p).wr < s.params.capacity →
    ∃ t, exec (.rbInsert p.val b) s = .next t ∧
      t = { s with
        rb := s.rb.set p.val { s.ring p with
          wr := ((s.ring p).wr + 1) % s.params.capacity, count := (s.ring p).count + 1 } p.isLt,
        mem := t.mem, results := s.results ++ [⟨.ok, 0, []⟩], task := .idle, inStream := [] } ∧
      t.cell (p.val * s.params.capacity + (s.ring p).wr) = some b ∧
      ∀ a, a ≠ p.val * s.params.capacity + (s.ring p).wr → t.cell a = s.cell a

/-- RB.REMOVE from a buffer that is not empty returns the byte at the read cursor; `rd` advances modulo `N`, `count`
shrinks by one; the cell keeps its byte and nothing else changes (R102). -/
def Obligations.RemoveReturnsTheOldestByte : Prop :=
  ∀ (s : State) (p : Pipe) (b : Byte), s.initialized = true → (s.ring p).count ≠ 0 →
    (s.ring p).rd < s.params.capacity → s.cell (p.val * s.params.capacity + (s.ring p).rd) = some b →
    exec (.rbRemove p.val) s = .next
      ((s.setRing p { s.ring p with
        rd := ((s.ring p).rd + 1) % s.params.capacity, count := (s.ring p).count - 1 }).returned ⟨.ok, b.toNat, []⟩)

/-- RB.STARTPEEK sets the peek cursor to the read cursor, RB.PEEK inside the window returns the byte at the peek cursor
and advances it modulo `N`; neither touches anything else (R103, R105). -/
def Obligations.PeekReadsWithoutConsuming : Prop :=
  ∀ (s : State) (p : Pipe), s.initialized = true →
    exec (.rbStartPeek p.val) s = .next
      ((s.setRing p { s.ring p with pk := (s.ring p).rd }).returned ⟨.ok, 0, []⟩) ∧
    ∀ b : Byte, (s.ring p).count ≠ 0 → (s.ring p).pk < s.params.capacity → inWindow s p = true →
      s.cell (p.val * s.params.capacity + (s.ring p).pk) = some b →
      exec (.rbPeek p.val) s = .next
        ((s.setRing p { s.ring p with pk := ((s.ring p).pk + 1) % s.params.capacity }).returned ⟨.ok, b.toNat, []⟩)

/-- RB.PEEK outside the window of a buffer that is not empty answers `OK` with some byte, and the peek cursor advances
all the same; nothing else of the block changes (R104, R105). -/
def Obligations.PeekOutsideTheWindowStillAdvances : Prop :=
  ∀ (s : State) (p : Pipe), s.initialized = true → (s.ring p).count ≠ 0 → (s.ring p).pk < s.params.capacity →
    inWindow s p = false →
    ∃ t, ∃ v : Byte, exec (.rbPeek p.val) s = .next t ∧ Answered s t ⟨.ok, v.toNat, []⟩ ∧ t.port = s.port ∧
      t.block = { s.block with
        rb := s.rb.set p.val { s.ring p with pk := ((s.ring p).pk + 1) % s.params.capacity } p.isLt }

/-- RB.INSERT into a full buffer is rejected with `REJ_FULL` (R101), RB.REMOVE and RB.PEEK of an empty one with
`REJ_EMPTY` and value 0 (R102, R105): no cursor moves, nothing changes. -/
def Obligations.FullAndEmptyBuffersReject : Prop :=
  ∀ (s : State) (p : Pipe), s.initialized = true →
    ((s.ring p).count = s.params.capacity →
      ∀ b, exec (.rbInsert p.val b) s = .next (s.returned ⟨.rejFull, 0, []⟩)) ∧
    ((s.ring p).count = 0 →
      exec (.rbRemove p.val) s = .next (s.returned ⟨.rejEmpty, 0, []⟩) ∧
      exec (.rbPeek p.val) s = .next (s.returned ⟨.rejEmpty, 0, []⟩))

/-- RB.COUNT and AVAILABLE return the element count, RB.ISEMPTY and RB.ISFULL return 1 or 0, CKERR_COUNT returns the
error counter; none changes anything (R106, R107, R108, R188, R191). -/
def Obligations.QueriesAnswerAndChangeNothing : Prop :=
  ∀ (s : State) (p : Pipe), s.initialized = true →
    exec (.rbCount p.val) s = .next (s.returned ⟨.ok, (s.ring p).count, []⟩) ∧
    exec (.available p.val) s = .next (s.returned ⟨.ok, (s.ring p).count, []⟩) ∧
    exec (.rbIsEmpty p.val) s = .next (s.returned ⟨.ok, if (s.ring p).count = 0 then 1 else 0, []⟩) ∧
    exec (.rbIsFull p.val) s = .next
      (s.returned ⟨.ok, if (s.ring p).count = s.params.capacity then 1 else 0, []⟩) ∧
    exec .ckerrCount s = .next (s.returned ⟨.ok, s.cksumErr, []⟩)

/-- A ring-buffer operation on one pipe leaves every register and every cell of every other pipe as they were (R24). -/
def Obligations.PipesAreIndependent : Prop :=
  ∀ (i : Instr) (s t : State) (p q : Pipe), Inv s → ringOperand i = some p.val → exec i s = .next t → q ≠ p →
    t.ring q = s.ring q ∧
    ∀ j, j < s.params.capacity → t.cell (q.val * s.params.capacity + j) = s.cell (q.val * s.params.capacity + j)

/-- The FIFO law: from a ring buffer just reset, over any sequence of inserts and removes, the bytes the removes
returned are, in order, the first of the bytes the accepted inserts put in; the rest are the buffer's content
(R109). -/
def Obligations.RingBufferIsFirstInFirstOut : Prop :=
  ∀ (ops : List RingOp) (s t : State) (p : Pipe) (rs : List Result), Inv s → s.initialized = true →
    s.ring p = ⟨0, 0, 0, 0⟩ → execAll (ops.map (RingOp.instr p.val)) s = .next t → t.results = s.results ++ rs →
    rs.length = ops.length ∧
    (acceptedBytes ops rs).map (fun b => some b) =
      (removedBytes ops rs).map (fun v => some (BitVec.ofNat 8 v)) ++ contents t p

/-- The overflow law: `k >= N` inserts into an empty buffer leave exactly the first `N` bytes in it, `count = N`; the
first `N` answer `OK` and every later one `REJ_FULL` (R110). -/
def Obligations.OverflowKeepsTheFirstBytes : Prop :=
  ∀ (bytes : List Byte) (s : State) (p : Pipe), Inv s → s.initialized = true → (s.ring p).count = 0 →
    s.params.capacity ≤ bytes.length →
    ∃ t, execAll (bytes.map (Instr.rbInsert p.val)) s = .next t ∧
      contents t p = (bytes.take s.params.capacity).map some ∧ (t.ring p).count = s.params.capacity ∧
      t.results = s.results ++ List.replicate s.params.capacity ⟨.ok, 0, []⟩ ++
        List.replicate (bytes.length - s.params.capacity) ⟨.rejFull, 0, []⟩

/-! ## Checksum and framing -/

/-- CK.COMPUTE returns `255 - ((L + sum of the bytes) mod 256)`, CK.VERIFY returns 1 exactly when the byte after the
payload is that value; neither changes anything, before INIT or after (R120, R123, R124). -/
def Obligations.ChecksumOperationsAnswer : Prop :=
  ∀ (s : State) (payload : List Byte) (c : Byte), payload.length ≤ s.params.maxPayload →
    (s.inStream = payload →
      exec (.ckCompute payload.length) s = .next (s.returned
        ⟨.ok, 255 - (payload.length + (payload.map BitVec.toNat).sum) % 256, []⟩)) ∧
    (s.inStream = payload ++ [c] →
      exec (.ckVerify payload.length) s = .next (s.returned
        ⟨.ok, if c.toNat = 255 - (payload.length + (payload.map BitVec.toNat).sum) % 256 then 1 else 0, []⟩))

/-- Flipping one bit of one payload byte, or of the length byte, changes the checksum (R126). -/
def Obligations.SingleBitFlipChangesTheChecksum : Prop :=
  (∀ (len : Nat) (bytes : List Byte) (j k : Nat) (h : j < bytes.length), k < 8 →
    checksum len (bytes.set j (bytes[j] ^^^ BitVec.twoPow 8 k)) ≠ checksum len bytes) ∧
  (∀ (len : Byte) (bytes : List Byte) (k : Nat), k < 8 →
    checksum (len ^^^ BitVec.twoPow 8 k).toNat bytes ≠ checksum len.toNat bytes)

/-- FR.BUILD returns the length byte, the payload, the checksum byte and the filler, `F` bytes in all; nothing changes
(R74, R131). -/
def Obligations.BuildReturnsTheFrame : Prop :=
  ∀ (s : State) (payload : List Byte), s.params.WF → payload.length ≤ s.params.maxPayload → s.inStream = payload →
    ∃ f, exec (.frBuild payload.length) s = .next (s.returned ⟨.ok, 0, f⟩) ∧ f.length = s.params.frameSize ∧
      f = [BitVec.ofNat 8 payload.length] ++ payload ++ [checksum payload.length payload] ++
        List.replicate (s.params.frameSize - payload.length - 2) s.params.filler

/-- FR.PARSE: a frame is accepted exactly when its length byte is at most `M` and the byte after the payload is the
checksum; then it returns the length and the payload, otherwise `0xFFFFFFFF` and nothing; nothing changes
(R80, R134). -/
def Obligations.ParseAcceptsExactlyGoodFrames : Prop :=
  ∀ (s : State) (len : Byte) (rest : List Byte), s.params.WF → s.inStream = len :: rest →
    rest.length + 1 = s.params.frameSize →
    exec .frParse s = .next (s.returned
      (if len.toNat ≤ s.params.maxPayload ∧ rest[len.toNat]? = some (checksum len.toNat (rest.take len.toNat)) then
        ⟨.ok, len.toNat, rest.take len.toNat⟩
       else ⟨.ok, 0xFFFFFFFF, []⟩))

/-- The round trip: parsing a built frame gives back its payload, and so does parsing it with any other bytes in the
filler positions (R135). -/
def Obligations.ParseInvertsBuild : Prop :=
  ∀ (c : Params) (payload filler : List Byte), c.WF → payload.length ≤ c.maxPayload →
    parseFrame c (buildFrame c payload.length payload) = some payload ∧
    parseFrame c ((buildFrame c payload.length payload).take (payload.length + 2) ++ filler) = some payload

/-- FR.SPLIT returns `ceil(L / M)` and one length byte per fragment: full fragments of `M`, then the remainder if there
is one. The lengths add up to `L`; nothing changes (R136, R138). -/
def Obligations.SplitReportsTheFragments : Prop :=
  ∀ (s : State) (len : Nat), s.params.WF →
    ∃ parts : List Nat, exec (.frSplit len) s = .next
      (s.returned ⟨.ok, (len + s.params.maxPayload - 1) / s.params.maxPayload, parts.map (BitVec.ofNat 8)⟩) ∧
      parts.length = (len + s.params.maxPayload - 1) / s.params.maxPayload ∧ parts.sum = len ∧
      parts = List.replicate (len / s.params.maxPayload) s.params.maxPayload ++
        (if len % s.params.maxPayload = 0 then [] else [len % s.params.maxPayload])

/-- The five pure operations: their result depends on the parameters and the input stream alone, and they write no
state of the block and issue no port event (R125, R130). -/
def Obligations.PureOperationsReadNoState : Prop :=
  ∀ (i : Instr) (s t : State), i.isPure = true → s.params = t.params → s.inStream = t.inStream →
    ∃ r, exec i s = .next (s.returned r) ∧ exec i t = .next (t.returned r)

/-! ## Mode arbiter and write path -/

/-- MA.ENTER_TX: Transmitting, `tx_start` the time read, the five port events in order with the frame handed over,
nothing else of the block changed (R152). -/
def Obligations.EnterTxPushesTheFrame : Prop :=
  ∀ s : State, ∃ t, exec .maEnterTx s = .next t ∧
    t.block = { s.block with mode := .transmitting, txStart := (readNow s).1 } ∧
    Emitted s t [.ce false, .powerTx, .flushTx, .writeTxFrame s.txStage, .ce true] ∧
    t.txStage = [] ∧ t.results = s.results ∧ t.task = s.task ∧ t.params = s.params

/-- MA.TO_RX and MA.TIMEOUT: the four port events, then Receiving, nothing else changed, from either mode
(R156, R157, R162). -/
def Obligations.ReturnToReceiving : Prop :=
  ∀ s : State,
    exec .maToRx s = .next
      { s with mode := .receiving, port := s.port ++ [.ce false, .powerRx, .clearTxFlags, .ce true] } ∧
    exec .maTimeout s = .next
      { s with mode := .receiving, port := s.port ++ [.ce false, .powerRx, .clearTxFlags, .ce true] }

/-- MA.POLL: in Receiving it answers 1 with no port event; in Transmitting it reads Status once and answers 1 after
returning to Receiving if the elapsed time exceeds `T`, or if it may end the transmission and the status is a transmit
class; otherwise it answers 0 and stays (R159, R160, R161). -/
def Obligations.PollReportsReadiness : Prop :=
  ∀ s : State, s.initialized = true →
    (s.mode = .receiving → exec .maPoll s = .next (s.returned ⟨.ok, 1, []⟩)) ∧
    (s.mode = .transmitting →
      (s.params.pollCompletesTx = true ∧ isTransmit (chipStatus s).1 = true) ∨
        s.params.txTimeout < elapsed s.params (readNow (chipStatus s).2).1 s.txStart →
      ∃ t, exec .maPoll s = .next t ∧ Answered s t ⟨.ok, 1, []⟩ ∧ t.block = { s.block with mode := .receiving } ∧
        Emitted s t [.status, .ce false, .powerRx, .clearTxFlags, .ce true]) ∧
    (s.mode = .transmitting →
      ¬ (s.params.pollCompletesTx = true ∧ isTransmit (chipStatus s).1 = true) →
      elapsed s.params (readNow (chipStatus s).2).1 s.txStart ≤ s.params.txTimeout →
      ∃ t, exec .maPoll s = .next t ∧ Answered s t ⟨.ok, 0, []⟩ ∧ t.block = s.block ∧ Emitted s t [.status])

/-- WRITE_FRAME within `M`, and WRITE of at least one byte, begin with one poll: in Receiving, and whenever that poll
returns to Receiving, they are ready to push; otherwise they wait. The block is as the poll leaves it. The poll is in the
step that accepts the command (log 12), which is all `exec` runs (log 27). WRITE of no bytes sends nothing: it answers
`OK`, nothing changes and there is no port event (R140, R142). -/
def Obligations.WritesBeginWithAPoll : Prop :=
  ∀ (s : State) (len : Nat), s.initialized = true →
    (len ≤ s.params.maxPayload → ∃ t, exec (.writeFrame len) s = .next t ∧
      t = (poll s).2.setTask (.writeFrame len (if t.mode = .receiving then .sending else .waiting))) ∧
    (len ≠ 0 → ∃ t, exec (.write len) s = .next t ∧
      t = (poll s).2.setTask (.write len 0 (if t.mode = .receiving then .sending else .waiting))) ∧
    exec (.write 0) s = .next (s.returned ⟨.ok, 0, []⟩)

/-- A write of one frame issued in Receiving, with no interrupt meanwhile: two steps later its frame is pushed and the
block is Transmitting since the time read. WRITE_FRAME has then answered `OK`, in the step that pushed (log 12); WRITE
answers `OK` in the step after, which does nothing else (R62, R140, R142). -/
def Obligations.WriteCompletesInReceiving : Prop :=
  ∀ (s : State) (data : List Byte) (rest : List Command) (i : Instr), Inv s → s.initialized = true → s.task = .idle →
    s.mode = .receiving → s.irqPending = false → s.env.edges.take 3 = [false, false, false] →
    data.length ≤ s.params.maxPayload →
    i = .writeFrame data.length ∨ (i = .write data.length ∧ data ≠ []) → data.length < 2 ^ s.params.lenWidth →
    s.env.commands = ⟨(encode s.params.lenWidth i).toNat, data⟩ :: rest →
    ∃ u v now, step s = .next u ∧ step u = .next v ∧
      v.block = { s.block with mode := .transmitting, txStart := now } ∧ v.env.now = now ∧
      Emitted s v [.ce false, .powerTx, .flushTx,
        .writeTxFrame (buildFrame s.params data.length data), .ce true] ∧
      (i = .writeFrame data.length → Answered s v ⟨.ok, 0, []⟩) ∧
      (i = .write data.length → v.results = s.results ∧
        ∃ t, step v = .next t ∧ Answered s t ⟨.ok, 0, []⟩ ∧ t.block = v.block ∧ t.port = v.port)

/-- A step of a running WRITE keeps its data in order: what has been pushed since it began is always the first `k`
bytes of the data. A step pushes nothing, or exactly one frame, of the next `min(M, L - k)` bytes; WRITE returns, in a
step of its own (log 12), once it has pushed all of them, whatever dispatches interleave (R62, R136, R139, R142,
R143). -/
def Obligations.WritePushesItsDataInOrder : Prop :=
  ∀ (s t : State) (len k : Nat) (phase : SendPhase) (before : List Byte), Inv s → s.task = .write len k phase →
    pushedBytes s.params s.port = before ++ s.inStream.take k → step s = .next t →
    ∃ es, t.port = s.port ++ es ∧
      ((∃ phase', t.task = .write len k phase' ∧ t.inStream = s.inStream ∧ t.results = s.results ∧
          pushedFrames es = []) ∨
        (phase = .sending ∧ k < len ∧ ∃ m, m = min s.params.maxPayload (len - k) ∧
          t.task = .write len (k + m) .waiting ∧ t.inStream = s.inStream ∧ t.results = s.results ∧
          pushedFrames es = [buildFrame s.params m ((s.inStream.drop k).take m)] ∧
          pushedBytes t.params t.port = before ++ s.inStream.take (k + m)) ∨
        (k = len ∧ t.task = .idle ∧ t.results = s.results ++ [⟨.ok, 0, []⟩] ∧ es = [] ∧ t.mode = s.mode ∧
          pushedBytes t.params t.port = before ++ s.inStream))

/-- The busy-wait is bounded: if no interrupt comes and every poll finds the clock moved on by at least a millisecond
(and at most half its range), a waiting WRITE_FRAME, or a WRITE waiting with a fragment to send, is ready to push
within `T + 1` steps (R141, R158). -/
def Obligations.BusyWaitIsBounded : Prop :=
  ∀ (s : State) (len k : Nat), Inv s →
    s.task = .writeFrame len .waiting ∨ (s.task = .write len k .waiting ∧ k < len) → s.irqPending = false →
    s.mode = .transmitting → elapsed s.params s.env.now s.txStart ≤ s.params.txTimeout →
    s.env.edges = List.replicate (s.params.txTimeout + 1) false →
    s.env.advances.length = s.params.txTimeout + 1 →
    (∀ d ∈ s.env.advances, 1 ≤ d ∧ d ≤ 2 ^ (s.params.timeWidth - 1)) →
    ∃ n ≤ s.params.txTimeout + 1, ∃ t, Sys2Proof.core.run n s = .next t ∧ t.task.isPushing = true ∧
      t.mode = .receiving

/-- The write path writes no ring buffer, not `cksum_err`, not `irq_pending`, not `initialized`: each of its steps
changes at most `tx_mode` and `tx_start` (R144). -/
def Obligations.WritePathLeavesTheBuffersAlone : Prop :=
  (∀ (s t : State) (len : Nat) (i : Instr), i = .write len ∨ i = .writeFrame len → exec i s = .next t →
    t.block = { s.block with mode := t.mode, txStart := t.txStart }) ∧
  (∀ s t : State, s.task.isWrite = true → taskStep s = .next t →
    t.block = { s.block with mode := t.mode, txStart := t.txStart })

/-- The block enters Transmitting only when the task agent pushes a frame. A step pushes at most one frame, and pushes
one only in Receiving, which it leaves for Transmitting: at most one frame is in flight (R143, R151, R153). -/
def Obligations.OneFrameInFlight : Prop :=
  ∀ s t : State, Inv s → step s = .next t →
    (s.mode = .receiving → t.mode = .transmitting → s.task.isPushing = true) ∧
    ∃ es, t.port = s.port ++ es ∧
      (pushedFrames es = [] ∨
        ∃ f, pushedFrames es = [f] ∧ s.task.isPushing = true ∧ s.mode = .receiving ∧ t.mode = .transmitting)

/-! ## Receive dispatch -/

/-- A dispatch before INIT clears the latch and does nothing else (R171). -/
def Obligations.DispatchBeforeInitIsDiscarded : Prop :=
  ∀ s : State, s.initialized = false → exec .irqDispatch s = .next { s with irqPending := false }

/-- A transmit class returns the block to Receiving with the port events of MA.TO_RX, from either mode; nothing else
of the block changes but the latch (R172). A snapshot with a transmit flag set has a transmit class whatever its receive
flag; one with the receive flag alone is receive-data-ready with the index it carries; one with no flag is none (R82,
R221). -/
def Obligations.TransmitClassReturnsToReceiving : Prop :=
  (∀ s : State, s.initialized = true → isTransmit (chipStatus s).1 = true →
    ∃ t, exec .irqDispatch s = .next t ∧ t.block = { s.block with irqPending := false, mode := .receiving } ∧
      Emitted s t [.status, .ce false, .powerRx, .clearTxFlags, .ce true] ∧ t.results = s.results ∧
      t.task = s.task ∧ t.inStream = s.inStream) ∧
  ∀ (s : State) (x : Snapshot) (xs : List Snapshot), s.env.snapshots = x :: xs →
    (x.txComplete = true ∨ x.maxRetransmits = true → isTransmit (chipStatus s).1 = true) ∧
    (x.txComplete = false → x.maxRetransmits = false →
      (chipStatus s).1 = if x.rxReady then .rxReady (x.pipe % 2 ^ s.params.pipeFieldWidth) else .none)

/-- Receive-data-ready with a pipe index of 6 or above clears the flag only, and status none does nothing: the block
keeps its state but for the latch. Stated where no timeout is due in the dispatch (R173, R177). -/
def Obligations.DispatchWithNothingToReceive : Prop :=
  ∀ s : State, s.initialized = true → s.params.timeoutCheckInIrq = false ∨ s.mode = .receiving →
    (∀ q, 6 ≤ q → (chipStatus s).1 = .rxReady q →
      ∃ t, exec .irqDispatch s = .next t ∧ t.block = { s.block with irqPending := false } ∧
        Emitted s t [.status, .clearRxReady] ∧ t.results = s.results) ∧
    ((chipStatus s).1 = .none →
      ∃ t, exec .irqDispatch s = .next t ∧ t.block = { s.block with irqPending := false } ∧
        Emitted s t [.status] ∧ t.results = s.results)

/-- With `TIMEOUT_CHECK_IN_IRQ` a dispatch does what it does without, and then, if the block is still Transmitting and
the bound is exceeded, returns to Receiving with the port events of MA.TO_RX (R165, R180). -/
def Obligations.DispatchMayCheckTheTimeout : Prop :=
  ∀ s t : State, s.initialized = true → s.params.timeoutCheckInIrq = true →
    exec .irqDispatch { s with params := { s.params with timeoutCheckInIrq := false } } = .next t →
    ∃ u, exec .irqDispatch s = .next u ∧ u.results = s.results ∧ u.task = s.task ∧
      if t.mode = .transmitting ∧ s.params.txTimeout < elapsed s.params (readNow t).1 s.txStart then
        u.block = { t.block with mode := .receiving } ∧
          Emitted t u [.ce false, .powerRx, .clearTxFlags, .ce true]
      else u.block = t.block ∧ u.port = t.port

/-- An accepted frame: exactly the first `min(L, N - c)` payload bytes reach the ring buffer of its pipe, behind what
was there; the rest are dropped and nothing records it; no cell but those at the write cursor and behind it, one for
each byte that reached the buffer, no other pipe and no device register but the latch changes. Stated where no timeout
is due in the dispatch (R174, R175, R178). -/
def Obligations.AcceptedFrameAdmitsAPrefix : Prop :=
  ∀ (s : State) (q : Pipe) (len : Byte) (rest : List Byte), Inv s → s.initialized = true →
    s.params.timeoutCheckInIrq = false ∨ s.mode = .receiving → (chipStatus s).1 = .rxReady q.val →
    (chipReadRxFrame (chipStatus s).2).rxStage = len :: rest → len.toNat ≤ s.params.maxPayload →
    rest[len.toNat]? = some (checksum len.toNat (rest.take len.toNat)) →
    ∃ t, exec .irqDispatch s = .next t ∧
      contents t q = contents s q ++
        ((rest.take len.toNat).take (s.params.capacity - (s.ring q).count)).map some ∧
      (t.ring q).count = (s.ring q).count + min len.toNat (s.params.capacity - (s.ring q).count) ∧
      (t.ring q).rd = (s.ring q).rd ∧ (t.ring q).pk = (s.ring q).pk ∧
      (∀ p, p ≠ q → t.ring p = s.ring p ∧ contents t p = contents s p) ∧
      (∀ a, (∀ i, i < min len.toNat (s.params.capacity - (s.ring q).count) →
          a ≠ q.val * s.params.capacity + ((s.ring q).wr + i) % s.params.capacity) →
        t.cell a = s.cell a) ∧
      t.block = { s.block with irqPending := false, rb := t.rb, mem := t.mem } ∧
      Emitted s t [.status, .readRxFrame, .flushRx, .clearRxReady] ∧ t.results = s.results

/-- A frame that is not accepted (length byte above `M`, or a wrong checksum) adds exactly one to `cksum_err`, modulo
`2^ERRCNT_WIDTH`, and reaches no ring buffer. Stated where no timeout is due in the dispatch (R80, R176). -/
def Obligations.BadFrameIsCountedAndDropped : Prop :=
  ∀ (s : State) (q : Pipe) (len : Byte) (rest : List Byte), s.initialized = true →
    s.params.timeoutCheckInIrq = false ∨ s.mode = .receiving → (chipStatus s).1 = .rxReady q.val →
    (chipReadRxFrame (chipStatus s).2).rxStage = len :: rest →
    s.params.maxPayload < len.toNat ∨ rest[len.toNat]? ≠ some (checksum len.toNat (rest.take len.toNat)) →
    ∃ t, exec .irqDispatch s = .next t ∧
      t.block = { s.block with
        irqPending := false, cksumErr := (s.cksumErr + 1) % 2 ^ s.params.errcntWidth } ∧
      Emitted s t [.status, .readRxFrame, .flushRx, .clearRxReady] ∧ t.results = s.results

/-- What a dispatch can write. It always clears the latch; it never writes `initialized`, `tx_start`, a read or peek
cursor; it returns no result and leaves the preempted operation as it was (R181, R223). `tx_mode` changes only to
Receiving, by a transmit class or the timeout check; `cksum_err` only where a frame of a valid pipe is not accepted. A
ring buffer changes only where the frame of its own pipe is accepted: then `count` does not shrink, and no cell changes
but those of that pipe at the write cursor and behind it; in every other case no ring buffer and no cell changes. -/
def Obligations.DispatchWritesOnlyItsOwnState : Prop :=
  ∀ s t : State, Inv s → exec .irqDispatch s = .next t →
    t.irqPending = false ∧ t.initialized = s.initialized ∧ t.txStart = s.txStart ∧ t.params = s.params ∧
    t.results = s.results ∧ t.task = s.task ∧ t.inStream = s.inStream ∧
    (t.mode ≠ s.mode → s.initialized = true ∧ t.mode = .receiving ∧
      (isTransmit (chipStatus s).1 = true ∨ s.params.timeoutCheckInIrq = true)) ∧
    (t.cksumErr ≠ s.cksumErr → s.initialized = true ∧ (∃ q : Pipe, (chipStatus s).1 = .rxReady q.val) ∧
      parseFrame s.params (chipReadRxFrame (chipStatus s).2).rxStage = none) ∧
    (t.rb = s.rb ∧ t.mem = s.mem ∨
      s.initialized = true ∧ parseFrame s.params (chipReadRxFrame (chipStatus s).2).rxStage ≠ none ∧
      ∃ q : Pipe, (chipStatus s).1 = .rxReady q.val ∧
        (t.ring q).rd = (s.ring q).rd ∧ (t.ring q).pk = (s.ring q).pk ∧ (s.ring q).count ≤ (t.ring q).count ∧
        (∀ p, p ≠ q → t.ring p = s.ring p) ∧
        ∀ a, (∀ i, i < s.params.capacity - (s.ring q).count →
            a ≠ q.val * s.params.capacity + ((s.ring q).wr + i) % s.params.capacity) →
          t.cell a = s.cell a)

/-! ## DRAIN -/

/-- DRAIN begins with its check: more than the pipe holds is refused whole with `REJ_UNDERRUN`, nothing removed;
otherwise it has begun, nothing removed yet, and the removes and the return follow, one step each. The check is the
step in which the command is accepted (log 12), which is all `exec` runs (log 27; R62, R189). -/
def Obligations.DrainChecksFirst : Prop :=
  ∀ (s : State) (p : Pipe) (count : Nat), s.initialized = true →
    ((s.ring p).count < count → exec (.drain p.val count) s = .next (s.returned ⟨.rejUnderrun, 0, []⟩)) ∧
    (count ≤ (s.ring p).count → exec (.drain p.val count) s = .next (s.setTask (.drain p count [])))

/-- The DRAIN law: the bytes already out followed by the oldest ones still to come never change while a DRAIN runs,
whatever dispatches interleave, and they are what it returns (R190). -/
def Obligations.DrainReturnsTheOldestBytes : Prop :=
  ∀ (s t : State) (p : Pipe) (count : Nat) (out promised : List Byte), Inv s → s.task = .drain p count out →
    out.map some ++ (contents s p).take (count - out.length) = promised.map some → step s = .next t →
    (∃ out', t.task = .drain p count out' ∧ t.results = s.results ∧
      out'.map some ++ (contents t p).take (count - out'.length) = promised.map some) ∨
    (t.task = .idle ∧ t.results = s.results ++ [⟨.ok, 0, promised⟩])

/-- With no interrupt a DRAIN takes one step for each byte still to come and one to return, and the bytes behind them
stay in the buffer (R62, R189, R190). That the return is a step of its own is the reading of R62 in log 12. -/
def Obligations.DrainTakesOneStepPerByte : Prop :=
  ∀ (s : State) (p : Pipe) (count : Nat) (out : List Byte), Inv s → s.task = .drain p count out →
    s.irqPending = false → s.env.edges = List.replicate (count - out.length + 1) false →
    ∃ t bytes, Sys2Proof.core.run (count - out.length + 1) s = .next t ∧
      (contents s p).take (count - out.length) = bytes.map some ∧
      Answered s t ⟨.ok, 0, out ++ bytes⟩ ∧ contents t p = (contents s p).drop (count - out.length) ∧
      t.port = s.port ∧ t.mode = s.mode ∧ t.cksumErr = s.cksumErr ∧ t.mem = s.mem ∧ ∀ q, q ≠ p → t.ring q = s.ring q

/-! ## Configuration and register access -/

/-- The configuration operations: one port event each, the operand as given, the address bytes in stream order; no
state of the block changes, in either mode (R192, R193, R194, R195, R196, R197). -/
def Obligations.ConfigurationIsOneTransaction : Prop :=
  ∀ s : State, s.initialized = true →
    (∀ (p : Pipe) (bytes : List Byte), s.inStream = bytes → bytes.length = s.params.addrLen →
      exec (.setRxPipeAddress p.val) s = .next
        ((s.issued [.setRxAddress p bytes]).returned ⟨.ok, 0, []⟩) ∧
      exec .setTxAddress s = .next ((s.issued [.setTxAddress bytes]).returned ⟨.ok, 0, []⟩)) ∧
    (∀ ch, ch ≤ s.params.channelMax →
      exec (.setChannel ch) s = .next ((s.issued [.setChannel ch]).returned ⟨.ok, 0, []⟩)) ∧
    (∀ mask : Byte, mask.toNat < 64 →
      exec (.enablePipes mask) s = .next ((s.issued [.enablePipes mask]).returned ⟨.ok, 0, []⟩) ∧
      exec (.disablePipes mask) s = .next ((s.issued [.disablePipes mask]).returned ⟨.ok, 0, []⟩))

/-- Register access. REG.WRITE and REG.WRITEN to a valid address are one port event with the bytes in order. REG.READ
of a valid address is one port event and the `count` bytes the chip answers; of an invalid one `REJ_RANGE` with `count`
bytes and no port event. No state of the block changes (R199, R200, R201, R202). -/
def Obligations.RegisterAccessIsOneTransaction : Prop :=
  ∀ (s : State) (addr b : Byte) (bytes : List Byte) (count : Nat), s.initialized = true →
    (validReg s.params addr = true →
      exec (.regWrite addr b) s = .next
        ((s.issued [.regWrite addr [b]]).returned ⟨.ok, 0, []⟩) ∧
      (s.inStream = bytes →
        exec (.regWriteN addr bytes.length) s = .next
          ((s.issued [.regWrite addr bytes]).returned ⟨.ok, 0, []⟩)) ∧
      ∃ t out, exec (.regRead addr count) s = .next t ∧
        Answered s t ⟨.ok, 0, out⟩ ∧ out.length = count ∧
        (∀ answer later, s.env.regAnswers = answer :: later → answer.length = count → out = answer) ∧
        t.block = s.block ∧ Emitted s t [.regRead addr count]) ∧
    (validReg s.params addr = false → ∃ t out, exec (.regRead addr count) s = .next t ∧
      Answered s t ⟨.rejRange, 0, out⟩ ∧ out.length = count ∧ t.block = s.block ∧ t.port = s.port)

/-! ## Memory -/

/-- Reading after writing one byte of space RB: the written cell holds the byte, every other cell what it held; the
canonical form is kept (R13, R57). An address of `6*N` or above faults by name (R52; log 11). -/
def Obligations.MemoryHoldsWhatIsWritten : Prop :=
  ∀ (s : State) (a : Nat) (b : Byte),
    (a < 6 * s.params.capacity → ∃ t, memWrite s a b = .next t ∧ t.cell a = some b ∧
      (∀ a', a' ≠ a → t.cell a' = s.cell a') ∧ (Memory.wf s.mem → Memory.wf t.mem) ∧ t = { s with mem := t.mem }) ∧
    (6 * s.params.capacity ≤ a →
      memWrite s a b = .fault (.noSuchAddress a) ∧ memRead s a = .fault (.noSuchAddress a))
end

