-- ==== Sys2Proof/Laws/State.lean ====
section
/-! SUPPORT. One lemma per field per update of the state, all true by definition: later proofs rewrite with these and
do not unfold the updates. -/
namespace Sys2Proof.Machine

/-! `setRing` -/

@[simp] theorem setRing_params (s : State) (p : Pipe) (r : RingBuffer) : (s.setRing p r).params = s.params := rfl
@[simp] theorem setRing_rb (s : State) (p : Pipe) (r : RingBuffer) : (s.setRing p r).rb = s.rb.set p.val r p.isLt := rfl
@[simp] theorem setRing_mem (s : State) (p : Pipe) (r : RingBuffer) : (s.setRing p r).mem = s.mem := rfl
@[simp] theorem setRing_initialized (s : State) (p : Pipe) (r : RingBuffer) : (s.setRing p r).initialized = s.initialized := rfl
@[simp] theorem setRing_mode (s : State) (p : Pipe) (r : RingBuffer) : (s.setRing p r).mode = s.mode := rfl
@[simp] theorem setRing_cksumErr (s : State) (p : Pipe) (r : RingBuffer) : (s.setRing p r).cksumErr = s.cksumErr := rfl
@[simp] theorem setRing_txStart (s : State) (p : Pipe) (r : RingBuffer) : (s.setRing p r).txStart = s.txStart := rfl
@[simp] theorem setRing_irqPending (s : State) (p : Pipe) (r : RingBuffer) : (s.setRing p r).irqPending = s.irqPending := rfl
@[simp] theorem setRing_task (s : State) (p : Pipe) (r : RingBuffer) : (s.setRing p r).task = s.task := rfl
@[simp] theorem setRing_inStream (s : State) (p : Pipe) (r : RingBuffer) : (s.setRing p r).inStream = s.inStream := rfl
@[simp] theorem setRing_txStage (s : State) (p : Pipe) (r : RingBuffer) : (s.setRing p r).txStage = s.txStage := rfl
@[simp] theorem setRing_rxStage (s : State) (p : Pipe) (r : RingBuffer) : (s.setRing p r).rxStage = s.rxStage := rfl
@[simp] theorem setRing_results (s : State) (p : Pipe) (r : RingBuffer) : (s.setRing p r).results = s.results := rfl
@[simp] theorem setRing_port (s : State) (p : Pipe) (r : RingBuffer) : (s.setRing p r).port = s.port := rfl
@[simp] theorem setRing_env (s : State) (p : Pipe) (r : RingBuffer) : (s.setRing p r).env = s.env := rfl
@[simp] theorem setRing_freeIdx (s : State) (p : Pipe) (r : RingBuffer) : (s.setRing p r).freeIdx = s.freeIdx := rfl
@[simp] theorem setRing_cell (s : State) (p : Pipe) (r : RingBuffer) (a : Nat) : (s.setRing p r).cell a = s.cell a := rfl

/-! `finish` -/

@[simp] theorem finish_params (s : State) (r : Result) : (finish s r).params = s.params := rfl
@[simp] theorem finish_rb (s : State) (r : Result) : (finish s r).rb = s.rb := rfl
@[simp] theorem finish_mem (s : State) (r : Result) : (finish s r).mem = s.mem := rfl
@[simp] theorem finish_initialized (s : State) (r : Result) : (finish s r).initialized = s.initialized := rfl
@[simp] theorem finish_mode (s : State) (r : Result) : (finish s r).mode = s.mode := rfl
@[simp] theorem finish_cksumErr (s : State) (r : Result) : (finish s r).cksumErr = s.cksumErr := rfl
@[simp] theorem finish_txStart (s : State) (r : Result) : (finish s r).txStart = s.txStart := rfl
@[simp] theorem finish_irqPending (s : State) (r : Result) : (finish s r).irqPending = s.irqPending := rfl
@[simp] theorem finish_task (s : State) (r : Result) : (finish s r).task = .idle := rfl
@[simp] theorem finish_inStream (s : State) (r : Result) : (finish s r).inStream = [] := rfl
@[simp] theorem finish_txStage (s : State) (r : Result) : (finish s r).txStage = s.txStage := rfl
@[simp] theorem finish_rxStage (s : State) (r : Result) : (finish s r).rxStage = s.rxStage := rfl
@[simp] theorem finish_results (s : State) (r : Result) : (finish s r).results = s.results ++ [r] := rfl
@[simp] theorem finish_port (s : State) (r : Result) : (finish s r).port = s.port := rfl
@[simp] theorem finish_env (s : State) (r : Result) : (finish s r).env = s.env := rfl
@[simp] theorem finish_freeIdx (s : State) (r : Result) : (finish s r).freeIdx = s.freeIdx := rfl
@[simp] theorem finish_ring (s : State) (r : Result) (q : Pipe) : (finish s r).ring q = s.ring q := rfl
@[simp] theorem finish_cell (s : State) (r : Result) (a : Nat) : (finish s r).cell a = s.cell a := rfl
@[simp] theorem finish_contents (s : State) (r : Result) (q : Pipe) : contents (finish s r) q = contents s q := rfl

/-! `setTask` -/

@[simp] theorem setTask_params (s : State) (task : Task) : (s.setTask task).params = s.params := rfl
@[simp] theorem setTask_rb (s : State) (task : Task) : (s.setTask task).rb = s.rb := rfl
@[simp] theorem setTask_mem (s : State) (task : Task) : (s.setTask task).mem = s.mem := rfl
@[simp] theorem setTask_initialized (s : State) (task : Task) : (s.setTask task).initialized = s.initialized := rfl
@[simp] theorem setTask_mode (s : State) (task : Task) : (s.setTask task).mode = s.mode := rfl
@[simp] theorem setTask_cksumErr (s : State) (task : Task) : (s.setTask task).cksumErr = s.cksumErr := rfl
@[simp] theorem setTask_txStart (s : State) (task : Task) : (s.setTask task).txStart = s.txStart := rfl
@[simp] theorem setTask_irqPending (s : State) (task : Task) : (s.setTask task).irqPending = s.irqPending := rfl
@[simp] theorem setTask_task (s : State) (task : Task) : (s.setTask task).task = task := rfl
@[simp] theorem setTask_inStream (s : State) (task : Task) : (s.setTask task).inStream = s.inStream := rfl
@[simp] theorem setTask_txStage (s : State) (task : Task) : (s.setTask task).txStage = s.txStage := rfl
@[simp] theorem setTask_rxStage (s : State) (task : Task) : (s.setTask task).rxStage = s.rxStage := rfl
@[simp] theorem setTask_results (s : State) (task : Task) : (s.setTask task).results = s.results := rfl
@[simp] theorem setTask_port (s : State) (task : Task) : (s.setTask task).port = s.port := rfl
@[simp] theorem setTask_env (s : State) (task : Task) : (s.setTask task).env = s.env := rfl
@[simp] theorem setTask_freeIdx (s : State) (task : Task) : (s.setTask task).freeIdx = s.freeIdx := rfl
@[simp] theorem setTask_ring (s : State) (task : Task) (q : Pipe) : (s.setTask task).ring q = s.ring q := rfl
@[simp] theorem setTask_cell (s : State) (task : Task) (a : Nat) : (s.setTask task).cell a = s.cell a := rfl
@[simp] theorem setTask_contents (s : State) (task : Task) (q : Pipe) : contents (s.setTask task) q = contents s q := rfl

/-! `clearPending` -/

@[simp] theorem clearPending_params (s : State) : (clearPending s).params = s.params := rfl
@[simp] theorem clearPending_rb (s : State) : (clearPending s).rb = s.rb := rfl
@[simp] theorem clearPending_mem (s : State) : (clearPending s).mem = s.mem := rfl
@[simp] theorem clearPending_initialized (s : State) : (clearPending s).initialized = s.initialized := rfl
@[simp] theorem clearPending_mode (s : State) : (clearPending s).mode = s.mode := rfl
@[simp] theorem clearPending_cksumErr (s : State) : (clearPending s).cksumErr = s.cksumErr := rfl
@[simp] theorem clearPending_txStart (s : State) : (clearPending s).txStart = s.txStart := rfl
@[simp] theorem clearPending_irqPending (s : State) : (clearPending s).irqPending = false := rfl
@[simp] theorem clearPending_task (s : State) : (clearPending s).task = s.task := rfl
@[simp] theorem clearPending_inStream (s : State) : (clearPending s).inStream = s.inStream := rfl
@[simp] theorem clearPending_txStage (s : State) : (clearPending s).txStage = s.txStage := rfl
@[simp] theorem clearPending_rxStage (s : State) : (clearPending s).rxStage = s.rxStage := rfl
@[simp] theorem clearPending_results (s : State) : (clearPending s).results = s.results := rfl
@[simp] theorem clearPending_port (s : State) : (clearPending s).port = s.port := rfl
@[simp] theorem clearPending_env (s : State) : (clearPending s).env = s.env := rfl
@[simp] theorem clearPending_freeIdx (s : State) : (clearPending s).freeIdx = s.freeIdx := rfl
@[simp] theorem clearPending_ring (s : State) (q : Pipe) : (clearPending s).ring q = s.ring q := rfl
@[simp] theorem clearPending_cell (s : State) (a : Nat) : (clearPending s).cell a = s.cell a := rfl
@[simp] theorem clearPending_contents (s : State) (q : Pipe) : contents (clearPending s) q = contents s q := rfl

/-! `emit` -/

@[simp] theorem emit_params (s : State) (es : List ChipEvent) : (emit s es).params = s.params := rfl
@[simp] theorem emit_rb (s : State) (es : List ChipEvent) : (emit s es).rb = s.rb := rfl
@[simp] theorem emit_mem (s : State) (es : List ChipEvent) : (emit s es).mem = s.mem := rfl
@[simp] theorem emit_initialized (s : State) (es : List ChipEvent) : (emit s es).initialized = s.initialized := rfl
@[simp] theorem emit_mode (s : State) (es : List ChipEvent) : (emit s es).mode = s.mode := rfl
@[simp] theorem emit_cksumErr (s : State) (es : List ChipEvent) : (emit s es).cksumErr = s.cksumErr := rfl
@[simp] theorem emit_txStart (s : State) (es : List ChipEvent) : (emit s es).txStart = s.txStart := rfl
@[simp] theorem emit_irqPending (s : State) (es : List ChipEvent) : (emit s es).irqPending = s.irqPending := rfl
@[simp] theorem emit_task (s : State) (es : List ChipEvent) : (emit s es).task = s.task := rfl
@[simp] theorem emit_inStream (s : State) (es : List ChipEvent) : (emit s es).inStream = s.inStream := rfl
@[simp] theorem emit_txStage (s : State) (es : List ChipEvent) : (emit s es).txStage = s.txStage := rfl
@[simp] theorem emit_rxStage (s : State) (es : List ChipEvent) : (emit s es).rxStage = s.rxStage := rfl
@[simp] theorem emit_results (s : State) (es : List ChipEvent) : (emit s es).results = s.results := rfl
@[simp] theorem emit_port (s : State) (es : List ChipEvent) : (emit s es).port = s.port ++ es := rfl
@[simp] theorem emit_env (s : State) (es : List ChipEvent) : (emit s es).env = s.env := rfl
@[simp] theorem emit_freeIdx (s : State) (es : List ChipEvent) : (emit s es).freeIdx = s.freeIdx := rfl
@[simp] theorem emit_ring (s : State) (es : List ChipEvent) (q : Pipe) : (emit s es).ring q = s.ring q := rfl
@[simp] theorem emit_cell (s : State) (es : List ChipEvent) (a : Nat) : (emit s es).cell a = s.cell a := rfl
@[simp] theorem emit_contents (s : State) (es : List ChipEvent) (q : Pipe) : contents (emit s es) q = contents s q := rfl

/-! `toRx` -/

@[simp] theorem toRx_params (s : State) : (toRx s).params = s.params := rfl
@[simp] theorem toRx_rb (s : State) : (toRx s).rb = s.rb := rfl
@[simp] theorem toRx_mem (s : State) : (toRx s).mem = s.mem := rfl
@[simp] theorem toRx_initialized (s : State) : (toRx s).initialized = s.initialized := rfl
@[simp] theorem toRx_mode (s : State) : (toRx s).mode = .receiving := rfl
@[simp] theorem toRx_cksumErr (s : State) : (toRx s).cksumErr = s.cksumErr := rfl
@[simp] theorem toRx_txStart (s : State) : (toRx s).txStart = s.txStart := rfl
@[simp] theorem toRx_irqPending (s : State) : (toRx s).irqPending = s.irqPending := rfl
@[simp] theorem toRx_task (s : State) : (toRx s).task = s.task := rfl
@[simp] theorem toRx_inStream (s : State) : (toRx s).inStream = s.inStream := rfl
@[simp] theorem toRx_txStage (s : State) : (toRx s).txStage = s.txStage := rfl
@[simp] theorem toRx_rxStage (s : State) : (toRx s).rxStage = s.rxStage := rfl
@[simp] theorem toRx_results (s : State) : (toRx s).results = s.results := rfl
@[simp] theorem toRx_port (s : State) : (toRx s).port = s.port ++ toRxEvents := rfl
@[simp] theorem toRx_env (s : State) : (toRx s).env = s.env := rfl
@[simp] theorem toRx_freeIdx (s : State) : (toRx s).freeIdx = s.freeIdx := rfl
@[simp] theorem toRx_ring (s : State) (q : Pipe) : (toRx s).ring q = s.ring q := rfl
@[simp] theorem toRx_cell (s : State) (a : Nat) : (toRx s).cell a = s.cell a := rfl
@[simp] theorem toRx_contents (s : State) (q : Pipe) : contents (toRx s) q = contents s q := rfl

/-! `latchEdge` -/

@[simp] theorem latchEdge_params (edge : Bool) (s : State) : (latchEdge edge s).params = s.params := rfl
@[simp] theorem latchEdge_rb (edge : Bool) (s : State) : (latchEdge edge s).rb = s.rb := rfl
@[simp] theorem latchEdge_mem (edge : Bool) (s : State) : (latchEdge edge s).mem = s.mem := rfl
@[simp] theorem latchEdge_initialized (edge : Bool) (s : State) : (latchEdge edge s).initialized = s.initialized := rfl
@[simp] theorem latchEdge_mode (edge : Bool) (s : State) : (latchEdge edge s).mode = s.mode := rfl
@[simp] theorem latchEdge_cksumErr (edge : Bool) (s : State) : (latchEdge edge s).cksumErr = s.cksumErr := rfl
@[simp] theorem latchEdge_txStart (edge : Bool) (s : State) : (latchEdge edge s).txStart = s.txStart := rfl
@[simp] theorem latchEdge_irqPending (edge : Bool) (s : State) : (latchEdge edge s).irqPending = (s.irqPending || edge) := rfl
@[simp] theorem latchEdge_task (edge : Bool) (s : State) : (latchEdge edge s).task = s.task := rfl
@[simp] theorem latchEdge_inStream (edge : Bool) (s : State) : (latchEdge edge s).inStream = s.inStream := rfl
@[simp] theorem latchEdge_txStage (edge : Bool) (s : State) : (latchEdge edge s).txStage = s.txStage := rfl
@[simp] theorem latchEdge_rxStage (edge : Bool) (s : State) : (latchEdge edge s).rxStage = s.rxStage := rfl
@[simp] theorem latchEdge_results (edge : Bool) (s : State) : (latchEdge edge s).results = s.results := rfl
@[simp] theorem latchEdge_port (edge : Bool) (s : State) : (latchEdge edge s).port = s.port := rfl
@[simp] theorem latchEdge_env (edge : Bool) (s : State) : (latchEdge edge s).env = s.env := rfl
@[simp] theorem latchEdge_freeIdx (edge : Bool) (s : State) : (latchEdge edge s).freeIdx = s.freeIdx := rfl
@[simp] theorem latchEdge_ring (edge : Bool) (s : State) (q : Pipe) : (latchEdge edge s).ring q = s.ring q := rfl
@[simp] theorem latchEdge_cell (edge : Bool) (s : State) (a : Nat) : (latchEdge edge s).cell a = s.cell a := rfl
@[simp] theorem latchEdge_contents (edge : Bool) (s : State) (q : Pipe) : contents (latchEdge edge s) q = contents s q := rfl

/-! `resetRings` -/

@[simp] theorem resetRings_params (s : State) : (resetRings s).params = s.params := rfl
@[simp] theorem resetRings_rb (s : State) : (resetRings s).rb = Vector.replicate numPipes RingBuffer.zero := rfl
@[simp] theorem resetRings_mem (s : State) : (resetRings s).mem = s.mem := rfl
@[simp] theorem resetRings_initialized (s : State) : (resetRings s).initialized = s.initialized := rfl
@[simp] theorem resetRings_mode (s : State) : (resetRings s).mode = s.mode := rfl
@[simp] theorem resetRings_cksumErr (s : State) : (resetRings s).cksumErr = s.cksumErr := rfl
@[simp] theorem resetRings_txStart (s : State) : (resetRings s).txStart = s.txStart := rfl
@[simp] theorem resetRings_irqPending (s : State) : (resetRings s).irqPending = s.irqPending := rfl
@[simp] theorem resetRings_task (s : State) : (resetRings s).task = s.task := rfl
@[simp] theorem resetRings_inStream (s : State) : (resetRings s).inStream = s.inStream := rfl
@[simp] theorem resetRings_txStage (s : State) : (resetRings s).txStage = s.txStage := rfl
@[simp] theorem resetRings_rxStage (s : State) : (resetRings s).rxStage = s.rxStage := rfl
@[simp] theorem resetRings_results (s : State) : (resetRings s).results = s.results := rfl
@[simp] theorem resetRings_port (s : State) : (resetRings s).port = s.port := rfl
@[simp] theorem resetRings_env (s : State) : (resetRings s).env = s.env := rfl
@[simp] theorem resetRings_freeIdx (s : State) : (resetRings s).freeIdx = s.freeIdx := rfl
@[simp] theorem resetRings_cell (s : State) (a : Nat) : (resetRings s).cell a = s.cell a := rfl

/-! `countError` -/

@[simp] theorem countError_params (s : State) : (countError s).params = s.params := rfl
@[simp] theorem countError_rb (s : State) : (countError s).rb = s.rb := rfl
@[simp] theorem countError_mem (s : State) : (countError s).mem = s.mem := rfl
@[simp] theorem countError_initialized (s : State) : (countError s).initialized = s.initialized := rfl
@[simp] theorem countError_mode (s : State) : (countError s).mode = s.mode := rfl
@[simp] theorem countError_cksumErr (s : State) : (countError s).cksumErr = (s.cksumErr + 1) % 2 ^ s.params.errcntWidth := rfl
@[simp] theorem countError_txStart (s : State) : (countError s).txStart = s.txStart := rfl
@[simp] theorem countError_irqPending (s : State) : (countError s).irqPending = s.irqPending := rfl
@[simp] theorem countError_task (s : State) : (countError s).task = s.task := rfl
@[simp] theorem countError_inStream (s : State) : (countError s).inStream = s.inStream := rfl
@[simp] theorem countError_txStage (s : State) : (countError s).txStage = s.txStage := rfl
@[simp] theorem countError_rxStage (s : State) : (countError s).rxStage = s.rxStage := rfl
@[simp] theorem countError_results (s : State) : (countError s).results = s.results := rfl
@[simp] theorem countError_port (s : State) : (countError s).port = s.port := rfl
@[simp] theorem countError_env (s : State) : (countError s).env = s.env := rfl
@[simp] theorem countError_freeIdx (s : State) : (countError s).freeIdx = s.freeIdx := rfl
@[simp] theorem countError_ring (s : State) (q : Pipe) : (countError s).ring q = s.ring q := rfl
@[simp] theorem countError_cell (s : State) (a : Nat) : (countError s).cell a = s.cell a := rfl
@[simp] theorem countError_contents (s : State) (q : Pipe) : contents (countError s) q = contents s q := rfl

/-! `drawEdge` -/

@[simp] theorem drawEdge_params (s : State) : (drawEdge s).2.params = s.params := rfl
@[simp] theorem drawEdge_rb (s : State) : (drawEdge s).2.rb = s.rb := rfl
@[simp] theorem drawEdge_mem (s : State) : (drawEdge s).2.mem = s.mem := rfl
@[simp] theorem drawEdge_initialized (s : State) : (drawEdge s).2.initialized = s.initialized := rfl
@[simp] theorem drawEdge_mode (s : State) : (drawEdge s).2.mode = s.mode := rfl
@[simp] theorem drawEdge_cksumErr (s : State) : (drawEdge s).2.cksumErr = s.cksumErr := rfl
@[simp] theorem drawEdge_txStart (s : State) : (drawEdge s).2.txStart = s.txStart := rfl
@[simp] theorem drawEdge_irqPending (s : State) : (drawEdge s).2.irqPending = s.irqPending := rfl
@[simp] theorem drawEdge_task (s : State) : (drawEdge s).2.task = s.task := rfl
@[simp] theorem drawEdge_inStream (s : State) : (drawEdge s).2.inStream = s.inStream := rfl
@[simp] theorem drawEdge_txStage (s : State) : (drawEdge s).2.txStage = s.txStage := rfl
@[simp] theorem drawEdge_rxStage (s : State) : (drawEdge s).2.rxStage = s.rxStage := rfl
@[simp] theorem drawEdge_results (s : State) : (drawEdge s).2.results = s.results := rfl
@[simp] theorem drawEdge_port (s : State) : (drawEdge s).2.port = s.port := rfl
@[simp] theorem drawEdge_freeIdx (s : State) : (drawEdge s).2.freeIdx = s.freeIdx + 1 := rfl
@[simp] theorem drawEdge_ring (s : State) (q : Pipe) : (drawEdge s).2.ring q = s.ring q := rfl
@[simp] theorem drawEdge_cell (s : State) (a : Nat) : (drawEdge s).2.cell a = s.cell a := rfl
@[simp] theorem drawEdge_contents (s : State) (q : Pipe) : contents (drawEdge s).2 q = contents s q := rfl

/-! `drawChoice` -/

@[simp] theorem drawChoice_params (s : State) : (drawChoice s).2.params = s.params := rfl
@[simp] theorem drawChoice_rb (s : State) : (drawChoice s).2.rb = s.rb := rfl
@[simp] theorem drawChoice_mem (s : State) : (drawChoice s).2.mem = s.mem := rfl
@[simp] theorem drawChoice_initialized (s : State) : (drawChoice s).2.initialized = s.initialized := rfl
@[simp] theorem drawChoice_mode (s : State) : (drawChoice s).2.mode = s.mode := rfl
@[simp] theorem drawChoice_cksumErr (s : State) : (drawChoice s).2.cksumErr = s.cksumErr := rfl
@[simp] theorem drawChoice_txStart (s : State) : (drawChoice s).2.txStart = s.txStart := rfl
@[simp] theorem drawChoice_irqPending (s : State) : (drawChoice s).2.irqPending = s.irqPending := rfl
@[simp] theorem drawChoice_task (s : State) : (drawChoice s).2.task = s.task := rfl
@[simp] theorem drawChoice_inStream (s : State) : (drawChoice s).2.inStream = s.inStream := rfl
@[simp] theorem drawChoice_txStage (s : State) : (drawChoice s).2.txStage = s.txStage := rfl
@[simp] theorem drawChoice_rxStage (s : State) : (drawChoice s).2.rxStage = s.rxStage := rfl
@[simp] theorem drawChoice_results (s : State) : (drawChoice s).2.results = s.results := rfl
@[simp] theorem drawChoice_port (s : State) : (drawChoice s).2.port = s.port := rfl
@[simp] theorem drawChoice_freeIdx (s : State) : (drawChoice s).2.freeIdx = s.freeIdx + 1 := rfl
@[simp] theorem drawChoice_ring (s : State) (q : Pipe) : (drawChoice s).2.ring q = s.ring q := rfl
@[simp] theorem drawChoice_cell (s : State) (a : Nat) : (drawChoice s).2.cell a = s.cell a := rfl
@[simp] theorem drawChoice_contents (s : State) (q : Pipe) : contents (drawChoice s).2 q = contents s q := rfl

/-! `drawBytes` -/

@[simp] theorem drawBytes_params (n : Nat) (s : State) : (drawBytes n s).2.params = s.params := rfl
@[simp] theorem drawBytes_rb (n : Nat) (s : State) : (drawBytes n s).2.rb = s.rb := rfl
@[simp] theorem drawBytes_mem (n : Nat) (s : State) : (drawBytes n s).2.mem = s.mem := rfl
@[simp] theorem drawBytes_initialized (n : Nat) (s : State) : (drawBytes n s).2.initialized = s.initialized := rfl
@[simp] theorem drawBytes_mode (n : Nat) (s : State) : (drawBytes n s).2.mode = s.mode := rfl
@[simp] theorem drawBytes_cksumErr (n : Nat) (s : State) : (drawBytes n s).2.cksumErr = s.cksumErr := rfl
@[simp] theorem drawBytes_txStart (n : Nat) (s : State) : (drawBytes n s).2.txStart = s.txStart := rfl
@[simp] theorem drawBytes_irqPending (n : Nat) (s : State) : (drawBytes n s).2.irqPending = s.irqPending := rfl
@[simp] theorem drawBytes_task (n : Nat) (s : State) : (drawBytes n s).2.task = s.task := rfl
@[simp] theorem drawBytes_inStream (n : Nat) (s : State) : (drawBytes n s).2.inStream = s.inStream := rfl
@[simp] theorem drawBytes_txStage (n : Nat) (s : State) : (drawBytes n s).2.txStage = s.txStage := rfl
@[simp] theorem drawBytes_rxStage (n : Nat) (s : State) : (drawBytes n s).2.rxStage = s.rxStage := rfl
@[simp] theorem drawBytes_results (n : Nat) (s : State) : (drawBytes n s).2.results = s.results := rfl
@[simp] theorem drawBytes_port (n : Nat) (s : State) : (drawBytes n s).2.port = s.port := rfl
@[simp] theorem drawBytes_env (n : Nat) (s : State) : (drawBytes n s).2.env = s.env := rfl
@[simp] theorem drawBytes_freeIdx (n : Nat) (s : State) : (drawBytes n s).2.freeIdx = s.freeIdx + 1 := rfl
@[simp] theorem drawBytes_ring (n : Nat) (s : State) (q : Pipe) : (drawBytes n s).2.ring q = s.ring q := rfl
@[simp] theorem drawBytes_cell (n : Nat) (s : State) (a : Nat) : (drawBytes n s).2.cell a = s.cell a := rfl
@[simp] theorem drawBytes_contents (n : Nat) (s : State) (q : Pipe) : contents (drawBytes n s).2 q = contents s q := rfl

/-! `readNow` -/

@[simp] theorem readNow_params (s : State) : (readNow s).2.params = s.params := rfl
@[simp] theorem readNow_rb (s : State) : (readNow s).2.rb = s.rb := rfl
@[simp] theorem readNow_mem (s : State) : (readNow s).2.mem = s.mem := rfl
@[simp] theorem readNow_initialized (s : State) : (readNow s).2.initialized = s.initialized := rfl
@[simp] theorem readNow_mode (s : State) : (readNow s).2.mode = s.mode := rfl
@[simp] theorem readNow_cksumErr (s : State) : (readNow s).2.cksumErr = s.cksumErr := rfl
@[simp] theorem readNow_txStart (s : State) : (readNow s).2.txStart = s.txStart := rfl
@[simp] theorem readNow_irqPending (s : State) : (readNow s).2.irqPending = s.irqPending := rfl
@[simp] theorem readNow_task (s : State) : (readNow s).2.task = s.task := rfl
@[simp] theorem readNow_inStream (s : State) : (readNow s).2.inStream = s.inStream := rfl
@[simp] theorem readNow_txStage (s : State) : (readNow s).2.txStage = s.txStage := rfl
@[simp] theorem readNow_rxStage (s : State) : (readNow s).2.rxStage = s.rxStage := rfl
@[simp] theorem readNow_results (s : State) : (readNow s).2.results = s.results := rfl
@[simp] theorem readNow_port (s : State) : (readNow s).2.port = s.port := rfl
@[simp] theorem readNow_freeIdx (s : State) : (readNow s).2.freeIdx = s.freeIdx + 1 := rfl
@[simp] theorem readNow_ring (s : State) (q : Pipe) : (readNow s).2.ring q = s.ring q := rfl
@[simp] theorem readNow_cell (s : State) (a : Nat) : (readNow s).2.cell a = s.cell a := rfl
@[simp] theorem readNow_contents (s : State) (q : Pipe) : contents (readNow s).2 q = contents s q := rfl

/-! `chipStatus` -/

@[simp] theorem chipStatus_params (s : State) : (chipStatus s).2.params = s.params := rfl
@[simp] theorem chipStatus_rb (s : State) : (chipStatus s).2.rb = s.rb := rfl
@[simp] theorem chipStatus_mem (s : State) : (chipStatus s).2.mem = s.mem := rfl
@[simp] theorem chipStatus_initialized (s : State) : (chipStatus s).2.initialized = s.initialized := rfl
@[simp] theorem chipStatus_mode (s : State) : (chipStatus s).2.mode = s.mode := rfl
@[simp] theorem chipStatus_cksumErr (s : State) : (chipStatus s).2.cksumErr = s.cksumErr := rfl
@[simp] theorem chipStatus_txStart (s : State) : (chipStatus s).2.txStart = s.txStart := rfl
@[simp] theorem chipStatus_irqPending (s : State) : (chipStatus s).2.irqPending = s.irqPending := rfl
@[simp] theorem chipStatus_task (s : State) : (chipStatus s).2.task = s.task := rfl
@[simp] theorem chipStatus_inStream (s : State) : (chipStatus s).2.inStream = s.inStream := rfl
@[simp] theorem chipStatus_txStage (s : State) : (chipStatus s).2.txStage = s.txStage := rfl
@[simp] theorem chipStatus_rxStage (s : State) : (chipStatus s).2.rxStage = s.rxStage := rfl
@[simp] theorem chipStatus_results (s : State) : (chipStatus s).2.results = s.results := rfl
@[simp] theorem chipStatus_port (s : State) : (chipStatus s).2.port = s.port ++ [.status] := rfl
@[simp] theorem chipStatus_freeIdx (s : State) : (chipStatus s).2.freeIdx = s.freeIdx + 1 := rfl
@[simp] theorem chipStatus_ring (s : State) (q : Pipe) : (chipStatus s).2.ring q = s.ring q := rfl
@[simp] theorem chipStatus_cell (s : State) (a : Nat) : (chipStatus s).2.cell a = s.cell a := rfl
@[simp] theorem chipStatus_contents (s : State) (q : Pipe) : contents (chipStatus s).2 q = contents s q := rfl

/-! `chipReadRxFrame` -/

@[simp] theorem chipReadRxFrame_params (s : State) : (chipReadRxFrame s).params = s.params := rfl
@[simp] theorem chipReadRxFrame_rb (s : State) : (chipReadRxFrame s).rb = s.rb := rfl
@[simp] theorem chipReadRxFrame_mem (s : State) : (chipReadRxFrame s).mem = s.mem := rfl
@[simp] theorem chipReadRxFrame_initialized (s : State) : (chipReadRxFrame s).initialized = s.initialized := rfl
@[simp] theorem chipReadRxFrame_mode (s : State) : (chipReadRxFrame s).mode = s.mode := rfl
@[simp] theorem chipReadRxFrame_cksumErr (s : State) : (chipReadRxFrame s).cksumErr = s.cksumErr := rfl
@[simp] theorem chipReadRxFrame_txStart (s : State) : (chipReadRxFrame s).txStart = s.txStart := rfl
@[simp] theorem chipReadRxFrame_irqPending (s : State) : (chipReadRxFrame s).irqPending = s.irqPending := rfl
@[simp] theorem chipReadRxFrame_task (s : State) : (chipReadRxFrame s).task = s.task := rfl
@[simp] theorem chipReadRxFrame_inStream (s : State) : (chipReadRxFrame s).inStream = s.inStream := rfl
@[simp] theorem chipReadRxFrame_txStage (s : State) : (chipReadRxFrame s).txStage = s.txStage := rfl
@[simp] theorem chipReadRxFrame_results (s : State) : (chipReadRxFrame s).results = s.results := rfl
@[simp] theorem chipReadRxFrame_port (s : State) : (chipReadRxFrame s).port = s.port ++ [.readRxFrame] := rfl
@[simp] theorem chipReadRxFrame_freeIdx (s : State) : (chipReadRxFrame s).freeIdx = s.freeIdx + 1 := rfl
@[simp] theorem chipReadRxFrame_ring (s : State) (q : Pipe) : (chipReadRxFrame s).ring q = s.ring q := rfl
@[simp] theorem chipReadRxFrame_cell (s : State) (a : Nat) : (chipReadRxFrame s).cell a = s.cell a := rfl
@[simp] theorem chipReadRxFrame_contents (s : State) (q : Pipe) : contents (chipReadRxFrame s) q = contents s q := rfl

/-! `chipRegRead` -/

@[simp] theorem chipRegRead_params (s : State) (addr : Byte) (n : Nat) : (chipRegRead s addr n).2.params = s.params := rfl
@[simp] theorem chipRegRead_rb (s : State) (addr : Byte) (n : Nat) : (chipRegRead s addr n).2.rb = s.rb := rfl
@[simp] theorem chipRegRead_mem (s : State) (addr : Byte) (n : Nat) : (chipRegRead s addr n).2.mem = s.mem := rfl
@[simp] theorem chipRegRead_initialized (s : State) (addr : Byte) (n : Nat) : (chipRegRead s addr n).2.initialized = s.initialized := rfl
@[simp] theorem chipRegRead_mode (s : State) (addr : Byte) (n : Nat) : (chipRegRead s addr n).2.mode = s.mode := rfl
@[simp] theorem chipRegRead_cksumErr (s : State) (addr : Byte) (n : Nat) : (chipRegRead s addr n).2.cksumErr = s.cksumErr := rfl
@[simp] theorem chipRegRead_txStart (s : State) (addr : Byte) (n : Nat) : (chipRegRead s addr n).2.txStart = s.txStart := rfl
@[simp] theorem chipRegRead_irqPending (s : State) (addr : Byte) (n : Nat) : (chipRegRead s addr n).2.irqPending = s.irqPending := rfl
@[simp] theorem chipRegRead_task (s : State) (addr : Byte) (n : Nat) : (chipRegRead s addr n).2.task = s.task := rfl
@[simp] theorem chipRegRead_inStream (s : State) (addr : Byte) (n : Nat) : (chipRegRead s addr n).2.inStream = s.inStream := rfl
@[simp] theorem chipRegRead_txStage (s : State) (addr : Byte) (n : Nat) : (chipRegRead s addr n).2.txStage = s.txStage := rfl
@[simp] theorem chipRegRead_rxStage (s : State) (addr : Byte) (n : Nat) : (chipRegRead s addr n).2.rxStage = s.rxStage := rfl
@[simp] theorem chipRegRead_results (s : State) (addr : Byte) (n : Nat) : (chipRegRead s addr n).2.results = s.results := rfl
@[simp] theorem chipRegRead_port (s : State) (addr : Byte) (n : Nat) : (chipRegRead s addr n).2.port = s.port ++ [.regRead addr n] := rfl
@[simp] theorem chipRegRead_freeIdx (s : State) (addr : Byte) (n : Nat) : (chipRegRead s addr n).2.freeIdx = s.freeIdx + 1 := rfl
@[simp] theorem chipRegRead_ring (s : State) (addr : Byte) (n : Nat) (q : Pipe) : (chipRegRead s addr n).2.ring q = s.ring q := rfl
@[simp] theorem chipRegRead_cell (s : State) (addr : Byte) (n : Nat) (a : Nat) : (chipRegRead s addr n).2.cell a = s.cell a := rfl
@[simp] theorem chipRegRead_contents (s : State) (addr : Byte) (n : Nat) (q : Pipe) : contents (chipRegRead s addr n).2 q = contents s q := rfl

/-! `enterTx` -/

@[simp] theorem enterTx_params (s : State) : (enterTx s).params = s.params := rfl
@[simp] theorem enterTx_rb (s : State) : (enterTx s).rb = s.rb := rfl
@[simp] theorem enterTx_mem (s : State) : (enterTx s).mem = s.mem := rfl
@[simp] theorem enterTx_initialized (s : State) : (enterTx s).initialized = s.initialized := rfl
@[simp] theorem enterTx_mode (s : State) : (enterTx s).mode = .transmitting := rfl
@[simp] theorem enterTx_cksumErr (s : State) : (enterTx s).cksumErr = s.cksumErr := rfl
@[simp] theorem enterTx_irqPending (s : State) : (enterTx s).irqPending = s.irqPending := rfl
@[simp] theorem enterTx_task (s : State) : (enterTx s).task = s.task := rfl
@[simp] theorem enterTx_inStream (s : State) : (enterTx s).inStream = s.inStream := rfl
@[simp] theorem enterTx_txStage (s : State) : (enterTx s).txStage = [] := rfl
@[simp] theorem enterTx_rxStage (s : State) : (enterTx s).rxStage = s.rxStage := rfl
@[simp] theorem enterTx_results (s : State) : (enterTx s).results = s.results := rfl
@[simp] theorem enterTx_port (s : State) : (enterTx s).port = s.port ++ enterTxEvents s.txStage := rfl
@[simp] theorem enterTx_freeIdx (s : State) : (enterTx s).freeIdx = s.freeIdx + 1 := rfl
@[simp] theorem enterTx_ring (s : State) (q : Pipe) : (enterTx s).ring q = s.ring q := rfl
@[simp] theorem enterTx_cell (s : State) (a : Nat) : (enterTx s).cell a = s.cell a := rfl
@[simp] theorem enterTx_contents (s : State) (q : Pipe) : contents (enterTx s) q = contents s q := rfl

/-! `openStream` -/

@[simp] theorem openStream_params (i : Instr) (xs : List Byte) (s : State) : (openStream i xs s).params = s.params := rfl
@[simp] theorem openStream_rb (i : Instr) (xs : List Byte) (s : State) : (openStream i xs s).rb = s.rb := rfl
@[simp] theorem openStream_mem (i : Instr) (xs : List Byte) (s : State) : (openStream i xs s).mem = s.mem := rfl
@[simp] theorem openStream_initialized (i : Instr) (xs : List Byte) (s : State) : (openStream i xs s).initialized = s.initialized := rfl
@[simp] theorem openStream_mode (i : Instr) (xs : List Byte) (s : State) : (openStream i xs s).mode = s.mode := rfl
@[simp] theorem openStream_cksumErr (i : Instr) (xs : List Byte) (s : State) : (openStream i xs s).cksumErr = s.cksumErr := rfl
@[simp] theorem openStream_txStart (i : Instr) (xs : List Byte) (s : State) : (openStream i xs s).txStart = s.txStart := rfl
@[simp] theorem openStream_irqPending (i : Instr) (xs : List Byte) (s : State) : (openStream i xs s).irqPending = s.irqPending := rfl
@[simp] theorem openStream_task (i : Instr) (xs : List Byte) (s : State) : (openStream i xs s).task = s.task := rfl
@[simp] theorem openStream_txStage (i : Instr) (xs : List Byte) (s : State) : (openStream i xs s).txStage = s.txStage := rfl
@[simp] theorem openStream_rxStage (i : Instr) (xs : List Byte) (s : State) : (openStream i xs s).rxStage = s.rxStage := rfl
@[simp] theorem openStream_results (i : Instr) (xs : List Byte) (s : State) : (openStream i xs s).results = s.results := rfl
@[simp] theorem openStream_port (i : Instr) (xs : List Byte) (s : State) : (openStream i xs s).port = s.port := rfl
@[simp] theorem openStream_env (i : Instr) (xs : List Byte) (s : State) : (openStream i xs s).env = s.env := rfl
@[simp] theorem openStream_freeIdx (i : Instr) (xs : List Byte) (s : State) : (openStream i xs s).freeIdx = s.freeIdx + 1 := rfl
@[simp] theorem openStream_ring (i : Instr) (xs : List Byte) (s : State) (q : Pipe) : (openStream i xs s).ring q = s.ring q := rfl
@[simp] theorem openStream_cell (i : Instr) (xs : List Byte) (s : State) (a : Nat) : (openStream i xs s).cell a = s.cell a := rfl
@[simp] theorem openStream_contents (i : Instr) (xs : List Byte) (s : State) (q : Pipe) : contents (openStream i xs s) q = contents s q := rfl

/-! `returned` -/

@[simp] theorem returned_params (s : State) (r : Result) : (s.returned r).params = s.params := rfl
@[simp] theorem returned_rb (s : State) (r : Result) : (s.returned r).rb = s.rb := rfl
@[simp] theorem returned_mem (s : State) (r : Result) : (s.returned r).mem = s.mem := rfl
@[simp] theorem returned_initialized (s : State) (r : Result) : (s.returned r).initialized = s.initialized := rfl
@[simp] theorem returned_mode (s : State) (r : Result) : (s.returned r).mode = s.mode := rfl
@[simp] theorem returned_cksumErr (s : State) (r : Result) : (s.returned r).cksumErr = s.cksumErr := rfl
@[simp] theorem returned_txStart (s : State) (r : Result) : (s.returned r).txStart = s.txStart := rfl
@[simp] theorem returned_irqPending (s : State) (r : Result) : (s.returned r).irqPending = s.irqPending := rfl
@[simp] theorem returned_task (s : State) (r : Result) : (s.returned r).task = .idle := rfl
@[simp] theorem returned_inStream (s : State) (r : Result) : (s.returned r).inStream = [] := rfl
@[simp] theorem returned_txStage (s : State) (r : Result) : (s.returned r).txStage = s.txStage := rfl
@[simp] theorem returned_rxStage (s : State) (r : Result) : (s.returned r).rxStage = s.rxStage := rfl
@[simp] theorem returned_results (s : State) (r : Result) : (s.returned r).results = s.results ++ [r] := rfl
@[simp] theorem returned_port (s : State) (r : Result) : (s.returned r).port = s.port := rfl
@[simp] theorem returned_env (s : State) (r : Result) : (s.returned r).env = s.env := rfl
@[simp] theorem returned_freeIdx (s : State) (r : Result) : (s.returned r).freeIdx = s.freeIdx := rfl
@[simp] theorem returned_ring (s : State) (r : Result) (q : Pipe) : (s.returned r).ring q = s.ring q := rfl
@[simp] theorem returned_cell (s : State) (r : Result) (a : Nat) : (s.returned r).cell a = s.cell a := rfl
@[simp] theorem returned_contents (s : State) (r : Result) (q : Pipe) : contents (s.returned r) q = contents s q := rfl

/-! The registers of a ring buffer after one of them is written. -/

@[simp] theorem ring_setRing_self (s : State) (p : Pipe) (r : RingBuffer) : (s.setRing p r).ring p = r := by
  simp [State.ring, State.setRing]

theorem ring_setRing_of_ne (s : State) (p q : Pipe) (r : RingBuffer) (h : q ≠ p) : (s.setRing p r).ring q = s.ring q := by
  have : p.val ≠ q.val := fun e => h (Fin.ext e.symm)
  simp [State.ring, State.setRing, Vector.getElem_set_ne, this]

@[simp] theorem ring_resetRings (s : State) (p : Pipe) : (resetRings s).ring p = RingBuffer.zero := by
  simp [State.ring, resetRings]

end Sys2Proof.Machine
end

