-- ==== Sys2Proof/Laws/Memory.lean ====
section
/-! SUPPORT. Space RB: a read after a write, the canonical form, and which addresses exist. -/
namespace Sys2Proof.Machine

theorem lookup_store_self (m : Memory) (a : Nat) (b : Byte) : Memory.lookup (Memory.store m a b) a = some b := by
  induction m with
  | nil => simp [Memory.store, Memory.lookup]
  | cons x m ih =>
    obtain ⟨k, v⟩ := x
    unfold Memory.store
    split
    · simp [Memory.lookup]
    · split
      · simp [Memory.lookup]
      · next h => simp [Memory.lookup, Ne.symm h, ih]

theorem lookup_store_of_ne (m : Memory) (a a' : Nat) (b : Byte) (h : a' ≠ a) :
    Memory.lookup (Memory.store m a b) a' = Memory.lookup m a' := by
  induction m with
  | nil => simp [Memory.store, Memory.lookup, Ne.symm h]
  | cons x m ih =>
    obtain ⟨k, v⟩ := x
    unfold Memory.store
    split
    · simp [Memory.lookup, Ne.symm h]
    · split
      · next e => subst e; simp [Memory.lookup, Ne.symm h]
      · simp [Memory.lookup, ih]

/-- A stored memory lists the stored cell and cells that were listed before. -/
theorem mem_store (m : Memory) (a : Nat) (b : Byte) (x : Host.Cell) (h : x ∈ Memory.store m a b) : x = (a, b) ∨ x ∈ m := by
  induction m with
  | nil => simpa [Memory.store] using h
  | cons y m ih =>
    obtain ⟨k, v⟩ := y
    unfold Memory.store at h
    split at h
    · simpa using h
    · split at h
      · rcases List.mem_cons.1 h with h | h <;> simp [h]
      · rcases List.mem_cons.1 h with h | h
        · simp [h]
        · rcases ih h with h | h <;> simp [h]

/-- A store keeps the canonical form. -/
theorem store_wf (m : Memory) (a : Nat) (b : Byte) (h : Memory.wf m) : Memory.wf (Memory.store m a b) := by
  induction m with
  | nil => simp [Memory.store]
  | cons y m ih =>
    obtain ⟨k, v⟩ := y
    have hm := List.pairwise_cons.1 h
    unfold Memory.store
    split
    · next hlt =>
      refine List.pairwise_cons.2 ⟨fun x hx => ?_, h⟩
      rcases List.mem_cons.1 hx with hx | hx
      · subst hx; exact hlt
      · exact lt_trans hlt (hm.1 x hx)
    · split
      · next hlt heq => subst heq; exact List.pairwise_cons.2 hm
      · next hlt hne =>
        refine List.pairwise_cons.2 ⟨fun x hx => ?_, ih hm.2⟩
        rcases mem_store m a b x hx with hx | hx
        · subst hx; show k < a; omega
        · exact hm.1 x hx

/-- In the canonical form a memory is determined by what its cells hold. -/
theorem lookup_eq_none_of_lt (m : Memory) (a : Nat) (h : ∀ x ∈ m, a < x.1) : Memory.lookup m a = none := by
  induction m with
  | nil => rfl
  | cons y m ih =>
    have hy := h y (by simp)
    simp [Memory.lookup, Nat.ne_of_gt hy, ih fun x hx => h x (by simp [hx])]

/-- Cells of a pipe exist. -/
theorem flatAddr_lt (c : Params) (p : Pipe) (i : Nat) (h : i < c.capacity) :
    flatAddr c p i < numPipes * c.capacity := by
  have h1 : (p.val + 1) * c.capacity ≤ numPipes * c.capacity := Nat.mul_le_mul_right _ p.isLt
  have h2 : (p.val + 1) * c.capacity = p.val * c.capacity + c.capacity := by ring
  unfold flatAddr
  omega

/-- Two cells share an address only if they are the same cell of the same pipe (R24, R52). -/
theorem flatAddr_inj (c : Params) (p q : Pipe) (i j : Nat) (hi : i < c.capacity) (hj : j < c.capacity)
    (h : flatAddr c p i = flatAddr c q j) : p = q ∧ i = j := by
  unfold flatAddr at h
  rcases Nat.lt_trichotomy p.val q.val with hpq | hpq | hpq
  · have : (p.val + 1) * c.capacity ≤ q.val * c.capacity := Nat.mul_le_mul_right _ hpq
    have : (p.val + 1) * c.capacity = p.val * c.capacity + c.capacity := by ring
    omega
  · rw [hpq] at h
    exact ⟨Fin.ext hpq, by omega⟩
  · have : (q.val + 1) * c.capacity ≤ p.val * c.capacity := Nat.mul_le_mul_right _ hpq
    have : (q.val + 1) * c.capacity = q.val * c.capacity + c.capacity := by ring
    omega

theorem memWrite_of_lt (s : State) (a : Nat) (b : Byte) (h : a < numPipes * s.params.capacity) :
    memWrite s a b = .next { s with mem := Memory.store s.mem a b } := by
  simp [memWrite, addrExists, h]

theorem memRead_of_lt (s : State) (a : Nat) (h : a < numPipes * s.params.capacity) :
    memRead s a = .next (drawCell (s.cell a) s) := by
  simp [memRead, addrExists, h]

theorem memWrite_cases {s t : State} {a : Nat} {b : Byte} (h : memWrite s a b = .next t) :
    a < numPipes * s.params.capacity ∧ t = { s with mem := Memory.store s.mem a b } := by
  unfold memWrite at h
  split at h
  · next ha => exact ⟨by simpa [addrExists] using ha, by simpa using h.symm⟩
  · cases h

theorem memRead_cases {s : State} {a : Nat} {r : Byte × State} (h : memRead s a = .next r) :
    a < numPipes * s.params.capacity ∧ r = drawCell (s.cell a) s := by
  unfold memRead at h
  split at h
  · next ha => exact ⟨by simpa [addrExists] using ha, by simpa using h.symm⟩
  · cases h

end Sys2Proof.Machine
end

