-- ==== Sys2Proof/Laws/Ring.lean ====
section
/-! SUPPORT. What the ring-buffer operations do to a good state: once for each of insert, remove and peek. -/
namespace Sys2Proof.Machine

theorem andThen_next {α β : Type} (a : α) (f : α → Outcome β) : andThen (.next a) f = f a := rfl

/-- `andThen` answers a next state only through both parts. -/
theorem andThen_cases {α β : Type} {x : Outcome α} {f : α → Outcome β} {b : β} (h : andThen x f = .next b) :
    ∃ a, x = .next a ∧ f a = .next b := by
  cases x with
  | next a => exact ⟨a, rfl, h⟩
  | fault r => cases h
  | refused r => cases h

/-- The part of the invariant that does not speak of the running operation or of the staging buffers. -/
structure Sound (s : State) : Prop where
  params : s.params.WF
  rings : ∀ p : Pipe, (s.ring p).Good s.params.capacity
  mem_wf : Memory.wf s.mem
  mem_in : ∀ x ∈ s.mem, x.1 < numPipes * s.params.capacity
  written : ∀ p : Pipe, ∀ b ∈ contents s p, b ≠ none
  cksum_lt : s.cksumErr < 2 ^ s.params.errcntWidth
  start_lt : s.txStart < 2 ^ s.params.timeWidth
  now_lt : s.env.now < 2 ^ s.params.timeWidth

theorem Inv.sound {s : State} (h : Inv s) : Sound s :=
  ⟨h.params, h.rings, h.mem_wf, h.mem_in, h.written, h.cksum_lt, h.start_lt, h.now_lt⟩

theorem Sound.inv {s : State} (h : Sound s) (tx : s.txStage = []) (rx : s.rxStage = []) (task : s.task.Good s) : Inv s :=
  ⟨h.params, h.rings, h.mem_wf, h.mem_in, h.written, h.cksum_lt, h.start_lt, h.now_lt, tx, rx, task⟩

theorem Sound.capacity_pos {s : State} (h : Sound s) : 0 < s.params.capacity := h.params.capacity_pos

theorem contents_congr {s t : State} (hp : t.params = s.params) (hr : t.rb = s.rb) (hm : t.mem = s.mem) (p : Pipe) :
    contents t p = contents s p := by
  simp only [contents, State.ring, State.cell, validAddr, hp, hr, hm]

/-- Soundness looks at these fields only. -/
theorem Sound.congr {s t : State} (h : Sound s) (hp : t.params = s.params) (hr : t.rb = s.rb) (hm : t.mem = s.mem)
    (hc : t.cksumErr < 2 ^ s.params.errcntWidth) (hs : t.txStart < 2 ^ s.params.timeWidth)
    (hn : t.env.now < 2 ^ s.params.timeWidth) : Sound t where
  params := hp ▸ h.params
  rings p := by simpa only [State.ring, hp, hr] using h.rings p
  mem_wf := hm ▸ h.mem_wf
  mem_in := by simpa only [hm, hp] using h.mem_in
  written p := by rw [contents_congr hp hr hm]; exact h.written p
  cksum_lt := by simpa only [hp] using hc
  start_lt := by simpa only [hp] using hs
  now_lt := by simpa only [hp] using hn

@[simp] theorem length_contents (s : State) (p : Pipe) : (contents s p).length = (s.ring p).count := by
  simp [contents]

theorem mod_add_mod_succ (a j n : Nat) : ((a + 1) % n + j) % n = (a + (j + 1)) % n := by
  rw [Nat.mod_add_mod]
  congr 1
  omega

/-- Valid byte number `j < count < N` is not where the next insert writes (R101). -/
theorem validIndex_ne_wr {capacity : Nat} {r : RingBuffer} (h : r.Good capacity) (hc : r.count < capacity) (j : Nat)
    (hj : j < r.count) : (r.rd + j) % capacity ≠ r.wr := by
  have hrd := h.rd_lt
  rw [h.wr_eq]
  intro e
  have h1 : (r.rd + j) % capacity = if r.rd + j < capacity then r.rd + j else r.rd + j - capacity := by
    split
    · exact Nat.mod_eq_of_lt ‹_›
    · rw [Nat.mod_eq_sub_mod (by omega), Nat.mod_eq_of_lt (by omega)]
  have h2 : (r.rd + r.count) % capacity =
      if r.rd + r.count < capacity then r.rd + r.count else r.rd + r.count - capacity := by
    split
    · exact Nat.mod_eq_of_lt ‹_›
    · rw [Nat.mod_eq_sub_mod (by omega), Nat.mod_eq_of_lt (by omega)]
  rw [h1, h2] at e
  split at e <;> split at e <;> omega

/-- The registers after an insert are good (R22, R23). -/
theorem RingBuffer.Good.insert {capacity : Nat} {r : RingBuffer} (h : r.Good capacity) (hc : r.count < capacity) :
    RingBuffer.Good capacity { r with wr := advance capacity r.wr, count := r.count + 1 } where
  wr_lt := Nat.mod_lt _ (by omega)
  rd_lt := h.rd_lt
  pk_lt := h.pk_lt
  count_le := hc
  wr_eq := by
    show (r.wr + 1) % capacity = (r.rd + (r.count + 1)) % capacity
    rw [h.wr_eq, Nat.mod_add_mod, Nat.add_assoc]

/-- The registers after a remove are good (R22, R23). -/
theorem RingBuffer.Good.remove {capacity : Nat} {r : RingBuffer} (h : r.Good capacity) (hc : r.count ≠ 0) :
    RingBuffer.Good capacity { r with rd := advance capacity r.rd, count := r.count - 1 } where
  wr_lt := h.wr_lt
  rd_lt := Nat.mod_lt _ (by have := h.rd_lt; omega)
  pk_lt := h.pk_lt
  count_le := by have := h.count_le; show r.count - 1 ≤ capacity; omega
  wr_eq := by
    show r.wr = ((r.rd + 1) % capacity + (r.count - 1)) % capacity
    rw [h.wr_eq, mod_add_mod_succ]
    congr 2
    omega

/-- Moving the peek cursor keeps the registers good. -/
theorem RingBuffer.Good.withPk {capacity : Nat} {r : RingBuffer} (h : r.Good capacity) (pk : Nat) (hk : pk < capacity) :
    RingBuffer.Good capacity { r with pk := pk } :=
  ⟨h.wr_lt, h.rd_lt, hk, h.count_le, h.wr_eq⟩

theorem RingBuffer.Good.zero {capacity : Nat} (h : 0 < capacity) : RingBuffer.zero.Good capacity :=
  ⟨h, h, h, Nat.zero_le _, (Nat.zero_mod _).symm⟩

/-- The state after an insert at the write cursor (R101). -/
def inserted (s : State) (p : Pipe) (b : Byte) : State :=
  { s with
    mem := Memory.store s.mem (flatAddr s.params p (s.ring p).wr) b
    rb := s.rb.set p.val
      { s.ring p with wr := advance s.params.capacity (s.ring p).wr, count := (s.ring p).count + 1 } p.isLt }

/-- RB.INSERT past its checks, in any state whose write cursor is in range. -/
theorem insertByte_eq (s : State) (p : Pipe) (b : Byte) (h : (s.ring p).wr < s.params.capacity) :
    insertByte s p b = .next (inserted s p b) := by
  rw [insertByte, memWrite_of_lt s _ b (flatAddr_lt _ _ _ h)]
  rfl

@[simp] theorem inserted_ring_self (s : State) (p : Pipe) (b : Byte) :
    (inserted s p b).ring p =
      { s.ring p with wr := advance s.params.capacity (s.ring p).wr, count := (s.ring p).count + 1 } :=
  ring_setRing_self _ _ _

theorem inserted_ring_of_ne (s : State) (p q : Pipe) (b : Byte) (h : q ≠ p) : (inserted s p b).ring q = s.ring q :=
  ring_setRing_of_ne s p q _ h

theorem inserted_cell_self (s : State) (p : Pipe) (b : Byte) :
    (inserted s p b).cell (flatAddr s.params p (s.ring p).wr) = some b :=
  lookup_store_self _ _ _

theorem inserted_cell_of_ne (s : State) (p : Pipe) (b : Byte) (a : Nat) (h : a ≠ flatAddr s.params p (s.ring p).wr) :
    (inserted s p b).cell a = s.cell a :=
  lookup_store_of_ne _ _ _ _ h

/-- An insert puts its byte behind the valid content (R23, R109). -/
theorem contents_inserted (s : State) (p : Pipe) (b : Byte) (h : (s.ring p).Good s.params.capacity)
    (hc : (s.ring p).count < s.params.capacity) : contents (inserted s p b) p = contents s p ++ [some b] := by
  have hr := inserted_ring_self s p b
  unfold contents
  rw [hr]
  simp only [List.range_succ, List.map_append, List.map_cons, List.map_nil]
  congr 1
  · refine List.map_congr_left fun j hj => ?_
    have hj := List.mem_range.1 hj
    have hne := validIndex_ne_wr h hc j hj
    have : validAddr (inserted s p b) p j = validAddr s p j := by simp only [validAddr, hr]; rfl
    rw [this]
    refine inserted_cell_of_ne s p b _ fun e => hne ?_
    exact (flatAddr_inj s.params p p _ _ (Nat.mod_lt _ (by omega)) h.wr_lt e).2
  · have : validAddr (inserted s p b) p (s.ring p).count = flatAddr s.params p (s.ring p).wr := by
      simp only [validAddr, hr]
      rw [h.wr_eq]
      rfl
    rw [this, inserted_cell_self]

/-- An insert leaves the content of the other pipes (R24). -/
theorem contents_inserted_of_ne (s : State) (p q : Pipe) (b : Byte) (hw : (s.ring p).wr < s.params.capacity)
    (hq : q ≠ p) : contents (inserted s p b) q = contents s q := by
  have hr := inserted_ring_of_ne s p q b hq
  unfold contents
  rw [hr]
  refine List.map_congr_left fun j hj => ?_
  have : validAddr (inserted s p b) q j = validAddr s q j := by simp only [validAddr, hr]; rfl
  rw [this]
  refine inserted_cell_of_ne s p b _ fun e => hq ?_
  exact (flatAddr_inj s.params q p _ _ (Nat.mod_lt _ (by omega)) hw e).1

/-- An insert into a buffer that is not full keeps a sound state sound. -/
theorem Sound.inserted {s : State} (h : Sound s) (p : Pipe) (b : Byte) (hc : (s.ring p).count < s.params.capacity) :
    Sound (inserted s p b) where
  params := h.params
  rings q := by
    by_cases hq : q = p
    · subst hq; rw [inserted_ring_self]; exact (h.rings q).insert hc
    · rw [inserted_ring_of_ne s p q b hq]; exact h.rings q
  mem_wf := store_wf _ _ _ h.mem_wf
  mem_in x hx := by
    rcases mem_store _ _ _ x hx with hx | hx
    · subst hx; exact flatAddr_lt _ _ _ (h.rings p).wr_lt
    · exact h.mem_in x hx
  written q := by
    by_cases hq : q = p
    · subst hq
      rw [contents_inserted s q b (h.rings q) hc]
      intro x hx
      rcases List.mem_append.1 hx with hx | hx
      · exact h.written q x hx
      · rw [List.mem_singleton.1 hx]; exact Option.some_ne_none b
    · rw [contents_inserted_of_ne s p q b (h.rings p).wr_lt hq]; exact h.written q
  cksum_lt := h.cksum_lt
  start_lt := h.start_lt
  now_lt := h.now_lt

/-- The state after a remove at the read cursor (R102). -/
def removed (s : State) (p : Pipe) : State :=
  s.setRing p { s.ring p with rd := advance s.params.capacity (s.ring p).rd, count := (s.ring p).count - 1 }

/-- RB.REMOVE past its checks returns the byte at the read cursor, if it was written. -/
theorem removeByte_eq (s : State) (p : Pipe) (b : Byte) (h : (s.ring p).rd < s.params.capacity)
    (hb : s.cell (flatAddr s.params p (s.ring p).rd) = some b) : removeByte s p = .next (b, removed s p) := by
  rw [removeByte, memRead_of_lt s _ (flatAddr_lt _ _ _ h), hb]
  rfl

/-- The oldest valid byte is at the read cursor, and a remove leaves the others (R23, R109). -/
theorem contents_removed (s : State) (p : Pipe) (h : (s.ring p).Good s.params.capacity) (hc : (s.ring p).count ≠ 0) :
    contents s p = s.cell (flatAddr s.params p (s.ring p).rd) :: contents (removed s p) p := by
  obtain ⟨n, hn⟩ := Nat.exists_eq_succ_of_ne_zero hc
  have hr : (removed s p).ring p =
      { s.ring p with rd := advance s.params.capacity (s.ring p).rd, count := (s.ring p).count - 1 } :=
    ring_setRing_self _ _ _
  unfold contents
  rw [hr]
  simp only [hn, Nat.succ_eq_add_one, Nat.add_sub_cancel, List.range_succ_eq_map, List.map_cons, List.map_map]
  congr 1
  · simp [validAddr, Nat.mod_eq_of_lt h.rd_lt]
  · refine List.map_congr_left fun j _ => ?_
    have : validAddr (removed s p) p j = validAddr s p (j + 1) := by
      simp only [validAddr, hr, advance]
      exact congrArg _ (mod_add_mod_succ _ _ _)
    rw [this]
    rfl

/-- Writing the registers of one pipe leaves the content of the others (R24). -/
theorem contents_setRing_of_ne (s : State) (p q : Pipe) (r : RingBuffer) (hq : q ≠ p) :
    contents (s.setRing p r) q = contents s q := by
  have hr := ring_setRing_of_ne s p q r hq
  simp only [contents, validAddr, hr]
  rfl

/-- Moving the peek cursor leaves the content. -/
theorem contents_setRing_pk (s : State) (p : Pipe) (pk : Nat) :
    contents (s.setRing p { s.ring p with pk := pk }) p = contents s p := by
  simp only [contents, validAddr, ring_setRing_self]
  rfl

/-- Writing good registers whose content was written keeps a sound state sound. -/
theorem Sound.setRing {s : State} (h : Sound s) (p : Pipe) (r : RingBuffer) (hr : r.Good s.params.capacity)
    (hw : ∀ b ∈ contents (s.setRing p r) p, b ≠ none) : Sound (s.setRing p r) where
  params := h.params
  rings q := by
    by_cases hq : q = p
    · subst hq; rw [ring_setRing_self]; exact hr
    · rw [ring_setRing_of_ne s p q r hq]; exact h.rings q
  mem_wf := h.mem_wf
  mem_in := h.mem_in
  written q := by
    by_cases hq : q = p
    · subst hq; exact hw
    · rw [contents_setRing_of_ne s p q r hq]; exact h.written q
  cksum_lt := h.cksum_lt
  start_lt := h.start_lt
  now_lt := h.now_lt

/-- The byte at the read cursor of a sound buffer that is not empty was written (R26). -/
theorem Sound.oldest {s : State} (h : Sound s) (p : Pipe) (hc : (s.ring p).count ≠ 0) :
    ∃ b, s.cell (flatAddr s.params p (s.ring p).rd) = some b := by
  have hm := contents_removed s p (h.rings p) hc
  have := h.written p (s.cell (flatAddr s.params p (s.ring p).rd)) (by rw [hm]; simp)
  exact Option.ne_none_iff_exists'.1 this

/-- What RB.REMOVE past its checks does to a sound state. -/
theorem Sound.removeByte {s : State} (h : Sound s) (p : Pipe) (hc : (s.ring p).count ≠ 0) :
    ∃ b, Machine.removeByte s p = .next (b, removed s p) ∧ contents s p = some b :: contents (removed s p) p ∧
      Sound (removed s p) := by
  obtain ⟨b, hb⟩ := h.oldest p hc
  have hm := contents_removed s p (h.rings p) hc
  refine ⟨b, removeByte_eq s p b (h.rings p).rd_lt hb, by rw [hm, hb], ?_⟩
  refine h.setRing p _ ((h.rings p).remove hc) fun x hx => h.written p x ?_
  rw [hm]
  exact List.mem_cons_of_mem _ hx

/-- What RB.PEEK past its checks does to a state whose peek cursor is in range: some byte, and the cursor advances. -/
theorem peekByte_eq (s : State) (p : Pipe) (h : (s.ring p).pk < s.params.capacity) :
    ∃ v k, peekByte s p = .next (v, { s.setRing p { s.ring p with
      pk := advance s.params.capacity (s.ring p).pk } with freeIdx := k }) := by
  rw [peekByte, memRead_of_lt s _ (flatAddr_lt _ _ _ h), andThen_next]
  cases hw : inWindow s p with
  | false => exact ⟨_, s.freeIdx + 1, rfl⟩
  | true =>
    cases hb : s.cell (flatAddr s.params p (s.ring p).pk) with
    | none => exact ⟨_, s.freeIdx + 1, rfl⟩
    | some b => exact ⟨b, s.freeIdx, rfl⟩

/-- RB.PEEK past its checks inside the window returns the byte at the peek cursor. -/
theorem peekByte_inWindow (s : State) (p : Pipe) (b : Byte) (h : (s.ring p).pk < s.params.capacity)
    (hw : inWindow s p = true) (hb : s.cell (flatAddr s.params p (s.ring p).pk) = some b) :
    peekByte s p = .next (b, s.setRing p { s.ring p with pk := advance s.params.capacity (s.ring p).pk }) := by
  rw [peekByte, memRead_of_lt s _ (flatAddr_lt _ _ _ h), andThen_next, hw, hb]
  rfl

end Sys2Proof.Machine
end

