-- ==== Sys2Proof/Laws/Arbiter.lean ====
section
/-! SUPPORT. What the inputs and the mode arbiter's operations do to a state (R152 to R162, R229), and the lengths of
input streams (R73). -/
namespace Sys2Proof.Machine

@[simp] theorem length_fit (n k : Nat) (xs : List Byte) : (fit n k xs).length = n := by
  simp [fit]; omega

/-- A stream supplied at the right length is taken as it is (R73). -/
theorem fit_eq_self (n k : Nat) (xs : List Byte) (h : xs.length = n) : fit n k xs = xs := by
  subst h; simp [fit]

/-- The time read fits its width (R229). -/
theorem readNow_lt (s : State) : (readNow s).1 < 2 ^ s.params.timeWidth :=
  Nat.mod_lt _ (Nat.pos_of_ne_zero (by positivity))

@[simp] theorem readNow_now (s : State) : (readNow s).2.env.now = (readNow s).1 := rfl
@[simp] theorem chipStatus_now (s : State) : (chipStatus s).2.env.now = s.env.now := rfl
@[simp] theorem drawEdge_now (s : State) : (drawEdge s).2.env.now = s.env.now := rfl
@[simp] theorem drawChoice_now (s : State) : (drawChoice s).2.env.now = s.env.now := rfl
@[simp] theorem chipReadRxFrame_now (s : State) : (chipReadRxFrame s).env.now = s.env.now := rfl

/-- The clock after zero or more milliseconds, in terms of the elapsed time (R160). -/
theorem elapsed_add (c : Params) (now start d : Nat) :
    elapsed c ((now + d) % 2 ^ c.timeWidth) start = (elapsed c now start + d) % 2 ^ c.timeWidth := by
  have hpos : 0 < 2 ^ c.timeWidth := by positivity
  have hs := Nat.mod_lt start hpos
  unfold elapsed
  rw [Nat.mod_add_mod, Nat.add_sub_assoc hs.le, Nat.mod_add_mod, Nat.add_sub_assoc hs.le]
  congr 1
  omega

/-- Everything MA.POLL can do: nothing in Receiving; in Transmitting one Status read, and then either the return to
Receiving (before or after one read of the clock) or one read of the clock (R159). -/
theorem poll_cases (s : State) :
    (s.mode = .receiving ∧ poll s = (true, s)) ∨
    (s.mode = .transmitting ∧ s.params.pollCompletesTx = true ∧ isTransmit (chipStatus s).1 = true ∧
      poll s = (true, toRx (chipStatus s).2)) ∨
    (s.mode = .transmitting ∧ ¬ (s.params.pollCompletesTx = true ∧ isTransmit (chipStatus s).1 = true) ∧
      s.params.txTimeout < elapsed s.params (readNow (chipStatus s).2).1 s.txStart ∧
      poll s = (true, toRx (readNow (chipStatus s).2).2)) ∨
    (s.mode = .transmitting ∧ ¬ (s.params.pollCompletesTx = true ∧ isTransmit (chipStatus s).1 = true) ∧
      elapsed s.params (readNow (chipStatus s).2).1 s.txStart ≤ s.params.txTimeout ∧
      poll s = (false, (readNow (chipStatus s).2).2)) := by
  cases hm : s.mode with
  | receiving => exact .inl ⟨rfl, by simp [poll, hm]⟩
  | transmitting =>
    by_cases hc : s.params.pollCompletesTx = true ∧ isTransmit (chipStatus s).1 = true
    · exact .inr (.inl ⟨rfl, hc.1, hc.2, by simp [poll, hm, hc]⟩)
    · by_cases ht : s.params.txTimeout < elapsed s.params (readNow (chipStatus s).2).1 s.txStart
      · exact .inr (.inr (.inl ⟨rfl, hc, ht, by
          simp only [poll, hm, chipStatus_params, Bool.and_eq_true, hc, if_false]
          simp [timedOut, ht, forceRecovery]⟩))
      · exact .inr (.inr (.inr ⟨rfl, hc, by omega, by
          simp only [poll, hm, chipStatus_params, Bool.and_eq_true, hc, if_false]
          simp [timedOut, ht]⟩))

/-- What MA.POLL leaves alone, and that it answers whether the block is in Receiving (R159). -/
structure PollFrame (s t : State) : Prop where
  params : t.params = s.params
  rb : t.rb = s.rb
  mem : t.mem = s.mem
  initialized : t.initialized = s.initialized
  cksumErr : t.cksumErr = s.cksumErr
  txStart : t.txStart = s.txStart
  irqPending : t.irqPending = s.irqPending
  task : t.task = s.task
  inStream : t.inStream = s.inStream
  txStage : t.txStage = s.txStage
  rxStage : t.rxStage = s.rxStage
  results : t.results = s.results
  commands : t.env.commands = s.env.commands
  edges : t.env.edges = s.env.edges

theorem PollFrame.refl (s : State) : PollFrame s s := ⟨rfl, rfl, rfl, rfl, rfl, rfl, rfl, rfl, rfl, rfl, rfl, rfl, rfl, rfl⟩

theorem PollFrame.trans {s t u : State} (h : PollFrame s t) (g : PollFrame t u) : PollFrame s u :=
  ⟨g.params.trans h.params, g.rb.trans h.rb, g.mem.trans h.mem, g.initialized.trans h.initialized,
    g.cksumErr.trans h.cksumErr, g.txStart.trans h.txStart, g.irqPending.trans h.irqPending, g.task.trans h.task,
    g.inStream.trans h.inStream, g.txStage.trans h.txStage, g.rxStage.trans h.rxStage, g.results.trans h.results,
    g.commands.trans h.commands, g.edges.trans h.edges⟩

theorem chipStatus_frame (s : State) : PollFrame s (chipStatus s).2 :=
  ⟨rfl, rfl, rfl, rfl, rfl, rfl, rfl, rfl, rfl, rfl, rfl, rfl, rfl, rfl⟩

theorem readNow_frame (s : State) : PollFrame s (readNow s).2 :=
  ⟨rfl, rfl, rfl, rfl, rfl, rfl, rfl, rfl, rfl, rfl, rfl, rfl, rfl, rfl⟩

theorem toRx_frame (s : State) : PollFrame s (toRx s) :=
  ⟨rfl, rfl, rfl, rfl, rfl, rfl, rfl, rfl, rfl, rfl, rfl, rfl, rfl, rfl⟩

theorem poll_frame (s : State) : PollFrame s (poll s).2 := by
  have hc := chipStatus_frame s
  rcases poll_cases s with ⟨-, h⟩ | ⟨-, -, -, h⟩ | ⟨-, -, -, h⟩ | ⟨-, -, -, h⟩ <;> rw [h]
  · exact .refl s
  · exact hc.trans (toRx_frame _)
  · exact (hc.trans (readNow_frame _)).trans (toRx_frame _)
  · exact hc.trans (readNow_frame _)

theorem poll_ready_iff (s : State) : (poll s).1 = true ↔ (poll s).2.mode = .receiving := by
  rcases poll_cases s with ⟨hm, h⟩ | ⟨hm, -, -, h⟩ | ⟨hm, -, -, h⟩ | ⟨hm, -, -, h⟩ <;> rw [h] <;> simp [hm]

theorem poll_now_lt (s : State) (h : s.env.now < 2 ^ s.params.timeWidth) :
    (poll s).2.env.now < 2 ^ s.params.timeWidth := by
  rcases poll_cases s with ⟨-, e⟩ | ⟨-, -, -, e⟩ | ⟨-, -, -, e⟩ | ⟨-, -, -, e⟩ <;> rw [e]
  · exact h
  · exact h
  · exact readNow_lt (chipStatus s).2
  · exact readNow_lt (chipStatus s).2

theorem Sound.poll {s : State} (h : Sound s) : Sound (Machine.poll s).2 :=
  have f := poll_frame s
  h.congr f.params f.rb f.mem (f.cksumErr ▸ h.cksum_lt) (f.txStart ▸ h.start_lt) (poll_now_lt s h.now_lt)

/-- The port events of a poll: none, a Status read, or a Status read and the return to Receiving (R159). -/
theorem poll_port (s : State) :
    (poll s).2.port = s.port ∨ (poll s).2.port = s.port ++ [.status] ∨
      (poll s).2.port = s.port ++ (.status :: toRxEvents) := by
  rcases poll_cases s with ⟨-, h⟩ | ⟨-, -, -, h⟩ | ⟨-, -, -, h⟩ | ⟨-, -, -, h⟩ <;> rw [h] <;> simp

/-- A poll never enters Transmitting (R151). -/
theorem poll_mode (s : State) : (poll s).2.mode = s.mode ∨ (poll s).2.mode = .receiving := by
  rcases poll_cases s with ⟨hm, h⟩ | ⟨hm, -, -, h⟩ | ⟨hm, -, -, h⟩ | ⟨hm, -, -, h⟩ <;> rw [h] <;> simp [hm]

/-- The time at which MA.ENTER_TX starts the transmission (R152). -/
@[simp] theorem enterTx_txStart (s : State) : (enterTx s).txStart = (readNow s).1 := rfl
@[simp] theorem enterTx_now (s : State) : (enterTx s).env.now = (readNow s).1 := rfl

theorem Sound.enterTx {s : State} (h : Sound s) : Sound (Machine.enterTx s) :=
  h.congr rfl rfl rfl h.cksum_lt (readNow_lt s) (readNow_lt s)

theorem Sound.toRx {s : State} (h : Sound s) : Sound (Machine.toRx s) :=
  h.congr rfl rfl rfl h.cksum_lt h.start_lt h.now_lt

theorem Sound.readNow {s : State} (h : Sound s) : Sound (Machine.readNow s).2 :=
  h.congr rfl rfl rfl h.cksum_lt h.start_lt (readNow_lt s)

theorem Sound.setTask {s : State} (h : Sound s) (task : Task) : Sound (s.setTask task) :=
  h.congr rfl rfl rfl h.cksum_lt h.start_lt h.now_lt

theorem Sound.clearPending {s : State} (h : Sound s) : Sound (Machine.clearPending s) :=
  h.congr rfl rfl rfl h.cksum_lt h.start_lt h.now_lt

theorem Sound.latchEdge {s : State} (h : Sound s) (edge : Bool) : Sound (Machine.latchEdge edge s) :=
  h.congr rfl rfl rfl h.cksum_lt h.start_lt h.now_lt

theorem Sound.chipStatus {s : State} (h : Sound s) : Sound (Machine.chipStatus s).2 :=
  h.congr rfl rfl rfl h.cksum_lt h.start_lt h.now_lt

theorem Sound.finish {s : State} (h : Sound s) (r : Result) : Sound (Machine.finish s r) :=
  h.congr rfl rfl rfl h.cksum_lt h.start_lt h.now_lt

end Sys2Proof.Machine
end

