-- ==== Sys2Proof/Laws/Framing.lean ====
section
/-! SUPPORT. The frame: its length, and that parsing ignores what stands after the checksum byte (R74, R77, R80). -/
namespace Sys2Proof.Machine

theorem byteSum_eq_sum (bytes : List Byte) : byteSum bytes = (bytes.map BitVec.toNat).sum := by
  induction bytes with
  | nil => rfl
  | cons b bs ih => simp [byteSum, ih]

/-- The checksum as a number: the formula of R120. -/
theorem checksum_toNat (len : Nat) (bytes : List Byte) :
    (checksum len bytes).toNat = 255 - (len + (bytes.map BitVec.toNat).sum) % 256 := by
  simp [checksum, byteSum_eq_sum]

/-- A built frame has `F` bytes (R74). -/
theorem length_buildFrame (c : Params) (payload : List Byte) (hc : c.WF) (h : payload.length ≤ c.maxPayload) :
    (buildFrame c payload.length payload).length = c.frameSize := by
  have := hc.frame_holds
  simp [buildFrame]
  omega

/-- A frame with a length byte at most `M` is accepted exactly when the byte after the payload is the checksum (R80). -/
theorem parseFrame_cons (c : Params) (len : Byte) (rest : List Byte) :
    parseFrame c (len :: rest) =
      if len.toNat ≤ c.maxPayload ∧ rest[len.toNat]? = some (checksum len.toNat (rest.take len.toNat)) then
        some (rest.take len.toNat)
      else none := by
  simp only [parseFrame]
  by_cases h1 : len.toNat ≤ c.maxPayload
  · have : ¬ len.toNat > c.maxPayload := by omega
    simp [h1]
  · have : len.toNat > c.maxPayload := by omega
    simp [h1, this]

end Sys2Proof.Machine
end

