-- ==== Sys2Proof/Laws/Dispatch.lean ====
section
/-! SUPPORT. What a receive dispatch does to a state (R170 to R181): once for the admission of a payload, once for each
case, once for the optional timeout check. -/
namespace Sys2Proof.Machine

/-- An insert that answers writes a ring buffer and a cell, nothing else. -/
theorem insertByte_frame {s t : State} {p : Pipe} {b : Byte} (h : insertByte s p b = .next t) :
    t = { s with rb := t.rb, mem := t.mem } := by
  obtain ⟨u, hu, ht⟩ := andThen_cases h
  obtain ⟨-, rfl⟩ := memWrite_cases hu
  cases ht
  rfl

/-- An admission that answers writes a ring buffer and cells, nothing else. -/
theorem admitBytes_frame (q : Pipe) (bytes : List Byte) {s t : State} (h : admitBytes q bytes s = .next t) :
    t = { s with rb := t.rb, mem := t.mem } := by
  induction bytes generalizing s with
  | nil => cases h; rfl
  | cons b bs ih =>
    rw [admitBytes] at h
    split at h
    · obtain ⟨u, hu, ht⟩ := andThen_cases h
      have h1 := insertByte_frame hu
      have h2 := ih ht
      rw [h1] at h2
      exact h2
    · exact ih h

/-- What the admission of a payload into the ring buffer of `q` does to a sound state (R175, R178). -/
structure Admitted (q : Pipe) (bytes : List Byte) (s t : State) : Prop where
  frame : t = { s with rb := t.rb, mem := t.mem }
  sound : Sound t
  content : contents t q = contents s q ++ (bytes.take (s.params.capacity - (s.ring q).count)).map some
  rd : (t.ring q).rd = (s.ring q).rd
  pk : (t.ring q).pk = (s.ring q).pk
  ring : ∀ p, p ≠ q → t.ring p = s.ring p
  cell : ∀ p, p ≠ q → ∀ j, j < s.params.capacity →
    t.cell (flatAddr s.params p j) = s.cell (flatAddr s.params p j)

theorem Admitted.params {q : Pipe} {bytes : List Byte} {s t : State} (h : Admitted q bytes s t) : t.params = s.params := by
  rw [h.frame]

/-- Exactly the first `min(L, N - c)` bytes are counted (R178). -/
theorem Admitted.count {q : Pipe} {bytes : List Byte} {s t : State} (h : Admitted q bytes s t) :
    (t.ring q).count = (s.ring q).count + min bytes.length (s.params.capacity - (s.ring q).count) := by
  have := congrArg List.length h.content
  simpa [Nat.min_comm] using this

/-- The content of another pipe is as it was (R24). -/
theorem Admitted.others {q : Pipe} {bytes : List Byte} {s t : State} (h : Admitted q bytes s t) (hs : Sound s) (p : Pipe)
    (hp : p ≠ q) : contents t p = contents s p := by
  unfold contents
  rw [h.ring p hp]
  refine List.map_congr_left fun j _ => ?_
  unfold validAddr
  rw [h.ring p hp, h.params]
  exact h.cell p hp _ (Nat.mod_lt _ hs.capacity_pos)

theorem Sound.admitBytes {s : State} (h : Sound s) (q : Pipe) (bytes : List Byte) :
    ∃ t, Machine.admitBytes q bytes s = .next t ∧ Admitted q bytes s t := by
  induction bytes generalizing s with
  | nil => exact ⟨s, rfl, rfl, h, by simp, rfl, rfl, fun _ _ => rfl, fun _ _ _ _ => rfl⟩
  | cons b bs ih =>
    by_cases hc : (s.ring q).count < s.params.capacity
    · obtain ⟨t, ht, a⟩ := ih (h.inserted q b hc)
      have hr := inserted_ring_self s q b
      refine ⟨t, ?_, a.frame, a.sound, ?_, ?_, ?_, ?_, ?_⟩
      · rw [Machine.admitBytes, if_pos hc, insertByte_eq s q b (h.rings q).wr_lt, andThen_next, ht]
      · obtain ⟨n, hn⟩ : ∃ n, s.params.capacity - (s.ring q).count = n + 1 :=
          ⟨s.params.capacity - (s.ring q).count - 1, by omega⟩
        have hn' : (Machine.inserted s q b).params.capacity - ((Machine.inserted s q b).ring q).count = n := by
          rw [hr]
          show s.params.capacity - ((s.ring q).count + 1) = n
          omega
        rw [a.content, hn', hn, contents_inserted s q b (h.rings q) hc]
        simp
      · rw [a.rd, hr]
      · rw [a.pk, hr]
      · intro p hp
        rw [a.ring p hp, inserted_ring_of_ne s q p b hp]
      · intro p hp j hj
        refine (a.cell p hp j hj).trans (inserted_cell_of_ne s q b _ fun e => hp ?_)
        exact (flatAddr_inj s.params p q j _ hj (h.rings q).wr_lt e).1
    · obtain ⟨t, ht, a⟩ := ih h
      have hz : s.params.capacity - (s.ring q).count = 0 := by omega
      refine ⟨t, by rw [Machine.admitBytes, if_neg hc, ht], a.frame, a.sound, ?_, a.rd, a.pk, a.ring, a.cell⟩
      have := a.content
      rw [hz] at this ⊢
      simpa using this

/-- The cells an admission may write: at the write cursor and behind it, one for each byte that reaches the buffer
(R175, R178). -/
theorem admitBytes_cell (q : Pipe) (bytes : List Byte) {s t : State} (hs : Sound s)
    (h : admitBytes q bytes s = .next t) (a : Nat)
    (ha : ∀ i, i < min bytes.length (s.params.capacity - (s.ring q).count) →
      a ≠ flatAddr s.params q (((s.ring q).wr + i) % s.params.capacity)) : t.cell a = s.cell a := by
  induction bytes generalizing s with
  | nil => cases h; rfl
  | cons b bs ih =>
    rw [admitBytes] at h
    split at h
    · next hc =>
      have hwr := (hs.rings q).wr_lt
      rw [insertByte_eq s q b hwr, andThen_next] at h
      have hr := inserted_ring_self s q b
      rw [ih (hs.inserted q b hc) h]
      · refine inserted_cell_of_ne s q b a ?_
        have := ha 0 (by simp; omega)
        rwa [Nat.add_zero, Nat.mod_eq_of_lt hwr] at this
      · intro i hi
        have hp : (inserted s q b).params = s.params := rfl
        rw [hr, hp] at hi ⊢
        simp only [List.length_cons] at ha hi
        rw [show advance s.params.capacity (s.ring q).wr = ((s.ring q).wr + 1) % s.params.capacity from rfl,
          mod_add_mod_succ]
        exact ha (i + 1) (by omega)
    · next hc => exact ih hs h fun i hi => ha i (by simp only [List.length_cons]; omega)

/-- The state in which a received frame is validated and its payload admitted (R174): the frame is read and consumed. -/
def frameRead (s : State) : State := { emit (chipReadRxFrame s) [.flushRx, .clearRxReady] with rxStage := [] }

@[simp] theorem frameRead_params (s : State) : (frameRead s).params = s.params := rfl
@[simp] theorem frameRead_rb (s : State) : (frameRead s).rb = s.rb := rfl
@[simp] theorem frameRead_mem (s : State) : (frameRead s).mem = s.mem := rfl
@[simp] theorem frameRead_initialized (s : State) : (frameRead s).initialized = s.initialized := rfl
@[simp] theorem frameRead_mode (s : State) : (frameRead s).mode = s.mode := rfl
@[simp] theorem frameRead_cksumErr (s : State) : (frameRead s).cksumErr = s.cksumErr := rfl
@[simp] theorem frameRead_txStart (s : State) : (frameRead s).txStart = s.txStart := rfl
@[simp] theorem frameRead_irqPending (s : State) : (frameRead s).irqPending = s.irqPending := rfl
@[simp] theorem frameRead_task (s : State) : (frameRead s).task = s.task := rfl
@[simp] theorem frameRead_inStream (s : State) : (frameRead s).inStream = s.inStream := rfl
@[simp] theorem frameRead_txStage (s : State) : (frameRead s).txStage = s.txStage := rfl
@[simp] theorem frameRead_rxStage (s : State) : (frameRead s).rxStage = [] := rfl
@[simp] theorem frameRead_results (s : State) : (frameRead s).results = s.results := rfl
@[simp] theorem frameRead_freeIdx (s : State) : (frameRead s).freeIdx = s.freeIdx + 1 := rfl
@[simp] theorem frameRead_port (s : State) : (frameRead s).port = s.port ++ [.readRxFrame, .flushRx, .clearRxReady] := by
  simp [frameRead]
@[simp] theorem frameRead_ring (s : State) (q : Pipe) : (frameRead s).ring q = s.ring q := rfl
@[simp] theorem frameRead_cell (s : State) (a : Nat) : (frameRead s).cell a = s.cell a := rfl
@[simp] theorem frameRead_contents (s : State) (q : Pipe) : contents (frameRead s) q = contents s q := rfl

/-- A receive dispatch, by whether its frame is accepted (R174 to R176). -/
theorem receiveFrame_eq (q : Pipe) (s : State) :
    receiveFrame q s =
      match parseFrame s.params (chipReadRxFrame s).rxStage with
      | some payload => admitBytes q payload (frameRead s)
      | none => .next (countError (frameRead s)) := rfl

theorem Sound.frameRead {s : State} (h : Sound s) : Sound (Machine.frameRead s) :=
  h.congr rfl rfl rfl h.cksum_lt h.start_lt h.now_lt

theorem Sound.countError {s : State} (h : Sound s) : Sound (Machine.countError s) :=
  h.congr rfl rfl rfl (Nat.mod_lt _ (by positivity)) h.start_lt h.now_lt

/-- Everything a dispatch can do past its Status read: return to Receiving, clear the flag, admit an accepted payload,
count a bad frame, or nothing (R172 to R177). -/
theorem dispatchCase_cases {c : Status} {s t : State} (h : dispatchCase c s = .next t) :
    t = toRx s ∨ t = emit s [.clearRxReady] ∨
    (∃ q payload, admitBytes q payload (frameRead s) = .next t) ∨ t = countError (frameRead s) ∨ t = s := by
  cases c with
  | txComplete => exact .inl (by cases h; rfl)
  | maxRetransmits => exact .inl (by cases h; rfl)
  | none => exact .inr (.inr (.inr (.inr (by cases h; rfl))))
  | rxReady q =>
    simp only [dispatchCase] at h
    split at h
    · exact .inr (.inl (by cases h; rfl))
    · next q _ =>
      rw [receiveFrame_eq] at h
      split at h
      · exact .inr (.inr (.inl ⟨q, _, h⟩))
      · exact .inr (.inr (.inr (.inl (by cases h; rfl))))

/-- A dispatch of a sound state never stops past its Status read. -/
theorem Sound.dispatchCase {s : State} (h : Sound s) (c : Status) : ∃ t, Machine.dispatchCase c s = .next t ∧ Sound t := by
  cases c with
  | txComplete => exact ⟨_, rfl, h.toRx⟩
  | maxRetransmits => exact ⟨_, rfl, h.toRx⟩
  | none => exact ⟨_, rfl, h⟩
  | rxReady q =>
    simp only [Machine.dispatchCase]
    split
    · exact ⟨_, rfl, h.congr rfl rfl rfl h.cksum_lt h.start_lt h.now_lt⟩
    · next q _ =>
      rw [receiveFrame_eq]
      split
      · obtain ⟨t, ht, a⟩ := h.frameRead.admitBytes q _
        exact ⟨t, ht, a.sound⟩
      · exact ⟨_, rfl, h.frameRead.countError⟩

/-- Everything the optional timeout check can do (R165, R180). -/
theorem dispatchTimeout_cases (s : State) :
    (dispatchTimeout s = s ∧ (s.params.timeoutCheckInIrq = false ∨ s.mode = .receiving)) ∨
    (s.params.timeoutCheckInIrq = true ∧ s.mode = .transmitting ∧
      s.params.txTimeout < elapsed s.params (readNow s).1 s.txStart ∧ dispatchTimeout s = toRx (readNow s).2) ∨
    (s.params.timeoutCheckInIrq = true ∧ s.mode = .transmitting ∧
      elapsed s.params (readNow s).1 s.txStart ≤ s.params.txTimeout ∧ dispatchTimeout s = (readNow s).2) := by
  cases hc : s.params.timeoutCheckInIrq with
  | false => exact .inl ⟨by simp [dispatchTimeout, hc], .inl rfl⟩
  | true =>
    cases hm : s.mode with
    | receiving => exact .inl ⟨by simp [dispatchTimeout, hm], .inr rfl⟩
    | transmitting =>
      by_cases ht : s.params.txTimeout < elapsed s.params (readNow s).1 s.txStart
      · exact .inr (.inl ⟨rfl, rfl, ht, by simp [dispatchTimeout, hc, hm, timedOut, ht, forceRecovery]⟩)
      · exact .inr (.inr ⟨rfl, rfl, by omega, by simp [dispatchTimeout, hc, hm, timedOut, ht]⟩)

theorem Sound.dispatchTimeout {s : State} (h : Sound s) : Sound (Machine.dispatchTimeout s) := by
  rcases dispatchTimeout_cases s with ⟨e, -⟩ | ⟨-, -, -, e⟩ | ⟨-, -, -, e⟩ <;> rw [e]
  · exact h
  · exact h.readNow.toRx
  · exact h.readNow

/-- The timeout check leaves these fields (R180). -/
theorem dispatchTimeout_frame (s : State) :
    (dispatchTimeout s).params = s.params ∧ (dispatchTimeout s).rb = s.rb ∧ (dispatchTimeout s).mem = s.mem ∧
      (dispatchTimeout s).txStart = s.txStart ∧ (dispatchTimeout s).irqPending = s.irqPending ∧
      (dispatchTimeout s).initialized = s.initialized ∧ (dispatchTimeout s).cksumErr = s.cksumErr := by
  rcases dispatchTimeout_cases s with ⟨e, -⟩ | ⟨-, -, -, e⟩ | ⟨-, -, -, e⟩ <;> rw [e] <;> simp

/-- The timeout check does nothing where it is not made, or in Receiving (R165, R180). -/
theorem dispatchTimeout_of_not_due (s : State) (h : s.params.timeoutCheckInIrq = false ∨ s.mode = .receiving) :
    dispatchTimeout s = s := by
  rcases h with h | h <;> simp [dispatchTimeout, h]

/-- The latch has no part in what the chip answers. -/
theorem chipStatus_clearPending (s : State) :
    chipStatus (clearPending s) = ((chipStatus s).1, clearPending (chipStatus s).2) := rfl

/-- A dispatch of an initialised block (R170). -/
theorem irqDispatch_eq (s : State) (h : s.initialized = true) :
    exec .irqDispatch s =
      andThen (dispatchCase (chipStatus s).1 (clearPending (chipStatus s).2)) fun t => .next (dispatchTimeout t) := by
  simp only [exec, execIrqDispatch, h, if_true, chipStatus_clearPending]

/-- A dispatch of a block that is not initialised (R171). -/
theorem irqDispatch_uninitialised (s : State) (h : s.initialized = false) :
    exec .irqDispatch s = .next (clearPending s) := by
  simp [exec, execIrqDispatch, h]

end Sys2Proof.Machine
end

