-- ==== Sys2Proof/Laws/Encoding.lean ====
section
/-! SUPPORT. The fields of an assembled command word, an assembled word from its fields (R71), and the decoder's answers
as conditions. -/
namespace Sys2Proof

variable {lw : Nat}

theorem opField_toNat (w : CommandWord lw) : (opField lw w).toNat = w.toNat / 2 ^ (lw + 8) % 2 ^ 8 := by
  simp [opField, Nat.shiftRight_eq_div_pow]

theorem aField_toNat (w : CommandWord lw) : (aField lw w).toNat = w.toNat / 2 ^ lw % 2 ^ 8 := by
  simp [aField, Nat.shiftRight_eq_div_pow]

theorem nField_toNat (w : CommandWord lw) : (nField lw w).toNat = w.toNat % 2 ^ lw := by simp [nField]

theorem getLsbD_assemble (op a : BitVec 8) (n : BitVec lw) (i : Nat) :
    (assemble lw op a n).getLsbD i =
      if i < lw then n.getLsbD i else if i - lw < 8 then a.getLsbD (i - lw) else op.getLsbD (i - lw - 8) := by
  have h : (assemble lw op a n).getLsbD i = (op ++ a ++ n).getLsbD i := rfl
  rw [h, BitVec.getLsbD_append]
  split
  · rfl
  · rw [BitVec.getLsbD_append]

@[simp] theorem opField_assemble (op a : BitVec 8) (n : BitVec lw) : opField lw (assemble lw op a n) = op := by
  refine BitVec.eq_of_getLsbD_eq fun i hi => ?_
  rw [opField, BitVec.getLsbD_extractLsb', getLsbD_assemble, if_neg (by omega), if_neg (by omega)]
  simp [hi, show lw + 8 + i - lw - 8 = i by omega]

@[simp] theorem aField_assemble (op a : BitVec 8) (n : BitVec lw) : aField lw (assemble lw op a n) = a := by
  refine BitVec.eq_of_getLsbD_eq fun i hi => ?_
  rw [aField, BitVec.getLsbD_extractLsb', getLsbD_assemble, if_neg (by omega), if_pos (by omega)]
  simp [hi]

@[simp] theorem nField_assemble (op a : BitVec 8) (n : BitVec lw) : nField lw (assemble lw op a n) = n := by
  refine BitVec.eq_of_getLsbD_eq fun i hi => ?_
  rw [nField, BitVec.getLsbD_extractLsb', getLsbD_assemble, if_pos (by omega)]
  simp [hi]

/-- A byte operand that fits the field `n` is read back (R72). -/
theorem nLow_assemble_byte (op a b : BitVec 8) (h : b.toNat < 2 ^ lw) :
    nLow lw (assemble lw op a (b.setWidth lw)) = b := by
  apply BitVec.eq_of_toNat_eq
  simp only [nLow, nField_assemble, BitVec.toNat_setWidth]
  rw [Nat.mod_eq_of_lt h, Nat.mod_eq_of_lt b.isLt]

theorem nIsByte_assemble_byte (op a b : BitVec 8) : nIsByte lw (assemble lw op a (b.setWidth lw)) = true := by
  have := Nat.mod_le b.toNat (2 ^ lw)
  have := b.isLt
  simp [nIsByte]
  omega

/-- A word is assembled from its own fields. -/
theorem assemble_fields (w : CommandWord lw) : assemble lw (opField lw w) (aField lw w) (nField lw w) = w := by
  refine BitVec.eq_of_getLsbD_eq fun i hi => ?_
  rw [getLsbD_assemble, opField, aField, nField, BitVec.getLsbD_extractLsb', BitVec.getLsbD_extractLsb',
    BitVec.getLsbD_extractLsb']
  split
  · next h => simp [h]
  · split
    · next h => simp [h, show lw + (i - lw) = i by omega]
    · simp [show lw + 8 + (i - lw - 8) = i by omega, show i - lw - 8 < 8 by omega]

/-- The field `n` is the byte operand when the bits above it are zero (R72). -/
theorem nField_of_nIsByte (w : CommandWord lw) (h : nIsByte lw w = true) :
    nField lw w = (nLow lw w).setWidth lw := by
  have h : (nField lw w).toNat < 2 ^ 8 := by simpa [nIsByte] using h
  apply BitVec.eq_of_toNat_eq
  simp only [nLow, BitVec.toNat_setWidth]
  rw [Nat.mod_eq_of_lt h, Nat.mod_eq_of_lt (nField lw w).isLt]

/-- Masking a command word masks its fields. -/
theorem assemble_and (op op' a a' : BitVec 8) (n n' : BitVec lw) :
    assemble lw op a n &&& assemble lw op' a' n' = assemble lw (op &&& op') (a &&& a') (n &&& n') := by
  have h : (op ++ a ++ n) &&& (op' ++ a' ++ n') = (op &&& op') ++ (a &&& a') ++ (n &&& n') := by
    rw [BitVec.and_append, BitVec.and_append]
  exact h

theorem assemble_inj {op op' a a' : BitVec 8} {n n' : BitVec lw}
    (h : assemble lw op a n = assemble lw op' a' n') : op = op' ∧ a = a' ∧ n = n' :=
  ⟨by simpa using congrArg (opField lw) h, by simpa using congrArg (aField lw) h,
    by simpa using congrArg (nField lw) h⟩

/-- With `LEN_WIDTH = 16` a word of the operation map is the word of the command port itself (R71). -/
theorem ofTableWord_sixteen (w : CommandWord 16) : ofTableWord 16 w = w := by
  rw [ofTableWord, BitVec.setWidth_eq, assemble_fields]

/-- A row whose mask and pattern are written as fields accepts a word field by field. -/
theorem accepts_assemble_iff (m : String) (op a mop ma : BitVec 8) (n mn : BitVec 16) (w : CommandWord 16) :
    OpcodeRow.accepts ⟨m, assemble 16 op a n, assemble 16 mop ma mn⟩ w = true ↔
      opField 16 w &&& mop = op ∧ aField 16 w &&& ma = a ∧ nField 16 w &&& mn = n := by
  conv_lhs => rw [← assemble_fields w]
  simp only [OpcodeRow.accepts, assemble_and, beq_iff_eq]
  exact ⟨assemble_inj, fun ⟨h1, h2, h3⟩ => by rw [h1, h2, h3]⟩

theorem whenZero_eq_ok {c : Bool} {i j : Instr} : whenZero c i = .ok j ↔ c = true ∧ i = j := by
  cases c <;> simp [whenZero]

theorem fitsA_iff (x : Nat) : fitsA x = true ↔ x < 2 ^ 8 := by simp [fitsA]

theorem fitsN_iff (lw x : Nat) : fitsN lw x = true ↔ x < 2 ^ lw := by simp [fitsN]

end Sys2Proof
end

