-- ==== Sys2Proof/Laws/Exec.lean ====
section
/-! SUPPORT. Everything an operation can do, said once: the shapes of its effect, its results and its first step. -/
namespace Sys2Proof.Machine

/-- The state INIT leaves, before its result is returned (R185). -/
def initialised (s : State) : State :=
  { toRx (resetRings { emit (clearPending s) [.transportInit, .configure] with cksumErr := 0 }) with
    initialized := true }

/-- A port event that neither moves the radio-enable line nor hands over a frame. -/
def ChipEvent.quiet : ChipEvent → Bool
  | .ce _ | .writeTxFrame _ => false
  | .transportInit | .configure | .powerTx | .powerRx | .flushTx | .status | .readRxFrame | .flushRx | .clearRxReady
  | .clearTxFlags | .setRxAddress _ _ | .setTxAddress _ | .setChannel _ | .enablePipes _ | .disablePipes _
  | .regWrite _ _ | .regRead _ _ => true

/-- What an operation that returns at once does before it returns. -/
inductive OpEffect (s : State) : State → Prop where
  | nothing : OpEffect s s
  | drawn (n : Nat) (hi : s.initialized = true) : OpEffect s (drawBytes n s).2
  | reset (q : Pipe) (hi : s.initialized = true) : OpEffect s (resetRing s q)
  | startPeek (q : Pipe) (hi : s.initialized = true) : OpEffect s (s.setRing q { s.ring q with pk := (s.ring q).rd })
  | insert (q : Pipe) (b : Byte) (u : State) (hi : s.initialized = true) (hc : (s.ring q).count ≠ s.params.capacity)
      (hu : insertByte s q b = .next u) : OpEffect s u
  | remove (q : Pipe) (b : Byte) (u : State) (hi : s.initialized = true) (hc : (s.ring q).count ≠ 0)
      (hu : removeByte s q = .next (b, u)) : OpEffect s u
  | peek (q : Pipe) (b : Byte) (u : State) (hi : s.initialized = true) (hc : (s.ring q).count ≠ 0)
      (hu : peekByte s q = .next (b, u)) : OpEffect s u
  | configured (e : ChipEvent) (hi : s.initialized = true) (he : e.quiet = true) : OpEffect s (emit s [e])
  | regRead (addr : Byte) (n : Nat) (hi : s.initialized = true) : OpEffect s (chipRegRead s addr n).2
  | polled (hi : s.initialized = true) : OpEffect s (poll s).2
  | init : OpEffect s (initialised s)

/-- An operation that returns at once: its effect, then its result; one that is rejected had no effect but, for REG.READ,
the draw of its free bytes (R14, R202). -/
structure Returns (i : Instr) (s t : State) : Prop where
  spec : ∃ u r, OpEffect s u ∧ t = finish u r ∧ r.code ∈ possibleCodes i ∧
    (r.code ≠ .ok → u = s ∨ ∃ n, u = (drawBytes n s).2)

theorem Returns.complete {i : Instr} {s u t : State} {v : Nat} {out : List Byte} (e : OpEffect s u)
    (hc : Code.ok ∈ possibleCodes i) (h : Machine.complete u v out = .next t) : Returns i s t := by
  cases h
  exact ⟨u, _, e, rfl, hc, fun hr => absurd rfl hr⟩

theorem Returns.reject {i : Instr} {s t : State} {code : Code} (hc : code ∈ possibleCodes i)
    (h : Machine.reject s code = .next t) : Returns i s t := by
  cases h
  exact ⟨s, _, .nothing, rfl, hc, fun _ => .inl rfl⟩

theorem whenInitialized_cases {s t : State} {k : Outcome State} (h : whenInitialized s k = .next t) :
    (s.initialized = true ∧ k = .next t) ∨ (s.initialized = false ∧ reject s .rejUninit = .next t) := by
  unfold whenInitialized at h
  split at h
  · exact .inl ⟨‹_›, h⟩
  · next hn => exact .inr ⟨by simpa using hn, h⟩

theorem withPipe_cases {s t : State} {p : Nat} {k : Pipe → Outcome State} (h : withPipe s p k = .next t) :
    (∃ hp : p < numPipes, k ⟨p, hp⟩ = .next t) ∨ (numPipes ≤ p ∧ reject s .rejRange = .next t) := by
  unfold withPipe pipeOf at h
  by_cases hp : p < numPipes
  · exact .inl ⟨hp, by simpa [hp] using h⟩
  · exact .inr ⟨by omega, by simpa [hp] using h⟩

theorem withinPayload_cases {s t : State} {len : Nat} {k : Outcome State} (h : withinPayload s len k = .next t) :
    (len ≤ s.params.maxPayload ∧ k = .next t) ∨ (s.params.maxPayload < len ∧ reject s .rejLength = .next t) := by
  unfold withinPayload at h
  split at h
  · exact .inr ⟨‹_›, h⟩
  · exact .inl ⟨by omega, h⟩

/-- After a poll the write path is ready to push exactly when the block is in Receiving (R140, R159). -/
theorem phaseAfter_poll (s : State) :
    phaseAfter (poll s).1 = if (poll s).2.mode = .receiving then .sending else .waiting := by
  have := poll_ready_iff s
  by_cases h : (poll s).1 = true
  · simp [phaseAfter, h, this.1 h]
  · simp [phaseAfter, h, mt this.2 h]

/-- The first step of an operation, when it does not return at once. -/
inductive FirstStep : Instr → State → State → Prop where
  | enterTx (s : State) : FirstStep .maEnterTx s (Machine.enterTx s)
  | toRx (s : State) : FirstStep .maToRx s (Machine.toRx s)
  | timeout (s : State) : FirstStep .maTimeout s (Machine.toRx s)
  | discarded (s : State) (hi : s.initialized = false) : FirstStep .irqDispatch s (clearPending s)
  | dispatch (s t : State) (hi : s.initialized = true)
      (h : dispatchCase (chipStatus (clearPending s)).1 (chipStatus (clearPending s)).2 =
        .next t) : FirstStep .irqDispatch s (dispatchTimeout t)
  | drain (s : State) (q : Pipe) (count : Nat) (hi : s.initialized = true)
      (hc : count ≤ (s.ring q).count) : FirstStep (.drain q.val count) s (s.setTask (.drain q count []))
  | writeFrame (s : State) (len : Nat) (hi : s.initialized = true) (hl : len ≤ s.params.maxPayload) :
      FirstStep (.writeFrame len) s ((poll s).2.setTask (.writeFrame len (phaseAfter (poll s).1)))
  | write (s : State) (len : Nat) (hi : s.initialized = true) (hl : len ≠ 0) :
      FirstStep (.write len) s ((poll s).2.setTask (.write len 0 (phaseAfter (poll s).1)))

/-- An operation whose only checks are `initialized` and its own. -/
theorem Returns.whenInitialized {i : Instr} {s t : State} {k : Outcome State} (hc : Code.rejUninit ∈ possibleCodes i)
    (h : Machine.whenInitialized s k = .next t) (hk : s.initialized = true → k = .next t → Returns i s t) :
    Returns i s t := by
  rcases whenInitialized_cases h with ⟨hi, h⟩ | ⟨-, h⟩
  · exact hk hi h
  · exact .reject hc h

/-- An operation of one pipe. -/
theorem Returns.withPipe {i : Instr} {s t : State} {p : Nat} {k : Pipe → Outcome State}
    (hu : Code.rejUninit ∈ possibleCodes i) (hc : Code.rejRange ∈ possibleCodes i)
    (h : Machine.whenInitialized s (Machine.withPipe s p k) = .next t)
    (hk : s.initialized = true → ∀ q : Pipe, q.val = p → k q = .next t → Returns i s t) : Returns i s t := by
  refine .whenInitialized hu h fun hi h => ?_
  rcases withPipe_cases h with ⟨hp, h⟩ | ⟨-, h⟩
  · exact hk hi _ rfl h
  · exact .reject hc h

/-- Everything an operation can do when it answers a next state. -/
theorem exec_cases {i : Instr} {s t : State} (h : exec i s = .next t) : Returns i s t ∨ FirstStep i s t := by
  cases i with
  | rbInit p capacity =>
    refine .inl (.withPipe (by simp [possibleCodes]) (by simp [possibleCodes]) h fun hi q _ h => ?_)
    split at h
    · exact .complete (.reset q hi) (by simp [possibleCodes]) h
    · exact .reject (by simp [possibleCodes]) h
  | rbInsert p b =>
    refine .inl (.withPipe (by simp [possibleCodes]) (by simp [possibleCodes]) h fun hi q _ h => ?_)
    split at h
    · exact .reject (by simp [possibleCodes]) h
    · next hf =>
      obtain ⟨u, hu, h⟩ := andThen_cases h
      exact .complete (.insert q b u hi (by simpa [isFull] using hf) hu) (by simp [possibleCodes]) h
  | rbRemove p =>
    refine .inl (.withPipe (by simp [possibleCodes]) (by simp [possibleCodes]) h fun hi q _ h => ?_)
    split at h
    · exact .reject (by simp [possibleCodes]) h
    · next hf =>
      obtain ⟨⟨b, u⟩, hu, h⟩ := andThen_cases h
      exact .complete (.remove q b u hi (by simpa [isEmpty] using hf) hu) (by simp [possibleCodes]) h
  | rbStartPeek p =>
    exact .inl (.withPipe (by simp [possibleCodes]) (by simp [possibleCodes]) h fun hi q _ h => .complete (.startPeek q hi) (by simp [possibleCodes]) h)
  | rbPeek p =>
    refine .inl (.withPipe (by simp [possibleCodes]) (by simp [possibleCodes]) h fun hi q _ h => ?_)
    split at h
    · exact .reject (by simp [possibleCodes]) h
    · next hf =>
      obtain ⟨⟨b, u⟩, hu, h⟩ := andThen_cases h
      exact .complete (.peek q b u hi (by simpa [isEmpty] using hf) hu) (by simp [possibleCodes]) h
  | rbCount p => exact .inl (.withPipe (by simp [possibleCodes]) (by simp [possibleCodes]) h fun _ q _ h => .complete .nothing (by simp [possibleCodes]) h)
  | rbIsEmpty p => exact .inl (.withPipe (by simp [possibleCodes]) (by simp [possibleCodes]) h fun _ q _ h => .complete .nothing (by simp [possibleCodes]) h)
  | rbIsFull p => exact .inl (.withPipe (by simp [possibleCodes]) (by simp [possibleCodes]) h fun _ q _ h => .complete .nothing (by simp [possibleCodes]) h)
  | ckCompute len =>
    rcases withinPayload_cases h with ⟨-, h⟩ | ⟨-, h⟩
    · exact .inl (.complete .nothing (by simp [possibleCodes]) h)
    · exact .inl (.reject (by simp [possibleCodes]) h)
  | ckVerify len =>
    rcases withinPayload_cases h with ⟨-, h⟩ | ⟨-, h⟩
    · exact .inl (.complete .nothing (by simp [possibleCodes]) h)
    · exact .inl (.reject (by simp [possibleCodes]) h)
  | frBuild len =>
    rcases withinPayload_cases h with ⟨-, h⟩ | ⟨-, h⟩
    · exact .inl (.complete .nothing (by simp [possibleCodes]) h)
    · exact .inl (.reject (by simp [possibleCodes]) h)
  | frParse =>
    simp only [exec, execFrParse] at h
    split at h <;> exact .inl (.complete .nothing (by simp [possibleCodes]) h)
  | frSplit len => exact .inl (.complete .nothing (by simp [possibleCodes]) h)
  | maEnterTx => cases h; exact .inr (.enterTx s)
  | maToRx => cases h; exact .inr (.toRx s)
  | maPoll => exact .inl (.whenInitialized (by simp [possibleCodes]) h fun hi h => .complete (.polled hi) (by simp [possibleCodes]) h)
  | maTimeout => cases h; exact .inr (.timeout s)
  | irqDispatch =>
    simp only [exec, execIrqDispatch] at h
    split at h
    · next hi =>
      obtain ⟨u, hu, h⟩ := andThen_cases h
      cases h
      exact .inr (.dispatch s u hi hu)
    · next hi =>
      cases h
      exact .inr (.discarded s (by simpa using hi))
  | init => exact .inl (.complete .init (by simp [possibleCodes]) h)
  | write len =>
    rcases whenInitialized_cases h with ⟨hi, h⟩ | ⟨-, h⟩
    · split at h
      · exact .inl (.complete .nothing (by simp [possibleCodes]) h)
      · next hl => cases h; exact .inr (.write s len hi hl)
    · exact .inl (.reject (by simp [possibleCodes]) h)
  | writeFrame len =>
    rcases whenInitialized_cases h with ⟨hi, h⟩ | ⟨-, h⟩
    · rcases withinPayload_cases h with ⟨hl, h⟩ | ⟨-, h⟩
      · cases h; exact .inr (.writeFrame s len hi hl)
      · exact .inl (.reject (by simp [possibleCodes]) h)
    · exact .inl (.reject (by simp [possibleCodes]) h)
  | available p => exact .inl (.withPipe (by simp [possibleCodes]) (by simp [possibleCodes]) h fun _ q _ h => .complete .nothing (by simp [possibleCodes]) h)
  | drain p count =>
    rcases whenInitialized_cases h with ⟨hi, h⟩ | ⟨-, h⟩
    · rcases withPipe_cases h with ⟨hp, h⟩ | ⟨-, h⟩
      · split at h
        · exact .inl (.reject (by simp [possibleCodes]) h)
        · next hc => cases h; exact .inr (.drain s ⟨p, hp⟩ count hi (by omega))
      · exact .inl (.reject (by simp [possibleCodes]) h)
    · exact .inl (.reject (by simp [possibleCodes]) h)
  | ckerrCount => exact .inl (.whenInitialized (by simp [possibleCodes]) h fun _ h => .complete .nothing (by simp [possibleCodes]) h)
  | setRxPipeAddress p =>
    exact .inl (.withPipe (by simp [possibleCodes]) (by simp [possibleCodes]) h fun hi q _ h => .complete (.configured _ hi rfl) (by simp [possibleCodes]) h)
  | setTxAddress => exact .inl (.whenInitialized (by simp [possibleCodes]) h fun hi h => .complete (.configured _ hi rfl) (by simp [possibleCodes]) h)
  | setChannel ch =>
    refine .inl (.whenInitialized (by simp [possibleCodes]) h fun hi h => ?_)
    split at h
    · exact .reject (by simp [possibleCodes]) h
    · exact .complete (.configured _ hi rfl) (by simp [possibleCodes]) h
  | enablePipes mask =>
    refine .inl (.whenInitialized (by simp [possibleCodes]) h fun hi h => ?_)
    split at h
    · exact .complete (.configured _ hi rfl) (by simp [possibleCodes]) h
    · exact .reject (by simp [possibleCodes]) h
  | disablePipes mask =>
    refine .inl (.whenInitialized (by simp [possibleCodes]) h fun hi h => ?_)
    split at h
    · exact .complete (.configured _ hi rfl) (by simp [possibleCodes]) h
    · exact .reject (by simp [possibleCodes]) h
  | regWrite addr b =>
    refine .inl (.whenInitialized (by simp [possibleCodes]) h fun hi h => ?_)
    split at h
    · exact .complete (.configured _ hi rfl) (by simp [possibleCodes]) h
    · exact .reject (by simp [possibleCodes]) h
  | regWriteN addr count =>
    refine .inl (.whenInitialized (by simp [possibleCodes]) h fun hi h => ?_)
    split at h
    · exact .complete (.configured _ hi rfl) (by simp [possibleCodes]) h
    · exact .reject (by simp [possibleCodes]) h
  | regRead addr count =>
    refine .inl (.whenInitialized (by simp [possibleCodes]) h fun hi h => ?_)
    split at h
    · exact .complete (.regRead addr count hi) (by simp [possibleCodes]) h
    · cases h
      exact ⟨_, _, .drawn count hi, rfl, by simp [possibleCodes], fun _ => .inr ⟨count, rfl⟩⟩

end Sys2Proof.Machine
end

