-- ==== Sys2Proof/Laws/PerInstr.lean ====
section
/-! SUPPORT. The family of lemmas made per operation: the encoder follows the operation map (R83, R85). -/
namespace Sys2Proof.Laws

/-- A word whose three fields agree with a row under the row's mask is accepted by it. -/
theorem accepts_of_fields (m : String) (pattern mask : CommandWord 16) (op a : BitVec 8) (n : BitVec 16)
    (ho : op &&& opField 16 mask = opField 16 pattern) (ha : a &&& aField 16 mask = aField 16 pattern)
    (hn : n &&& nField 16 mask = nField 16 pattern) : OpcodeRow.accepts ⟨m, pattern, mask⟩ (assemble 16 op a n) = true := by
  rw [← assemble_fields mask, ← assemble_fields pattern, accepts_assemble_iff]
  simpa using ⟨ho, ha, hn⟩

/-- A byte operand leaves `n[15:8]` zero (R72). -/
theorem byte_and_high (b : Byte) : b.setWidth 16 &&& 0xFF00#16 = 0 := by
  revert b
  decide

/-- The word of an operation (with `LEN_WIDTH = 16`, R71) is accepted by the row of the operation map that has its
mnemonic (R83, R85). -/
def EncodeMatchesRow.Statement (i : Instr) : Prop :=
  ∃ r ∈ opcodeRows, r.mnemonic = i.mnemonic ∧ r.accepts (encode 16 i) = true

theorem EncodeMatchesRow.rbInit (p capacity : Nat) : EncodeMatchesRow.Statement (.rbInit p capacity) :=
  ⟨⟨"RB.INIT", 0x00000000, 0xFF000000⟩, by decide, rfl,
    accepts_of_fields _ _ _ _ _ _ rfl (by simp [aField]) (by simp [nField])⟩

theorem EncodeMatchesRow.rbInsert (p : Nat) (b : Byte) : EncodeMatchesRow.Statement (.rbInsert p b) :=
  ⟨⟨"RB.INSERT", 0x01000000, 0xFF00FF00⟩, by decide, rfl,
    accepts_of_fields _ _ _ _ _ _ rfl (by simp [aField]) (byte_and_high b)⟩

theorem EncodeMatchesRow.rbRemove (p : Nat) : EncodeMatchesRow.Statement (.rbRemove p) :=
  ⟨⟨"RB.REMOVE", 0x02000000, 0xFF00FFFF⟩, by decide, rfl,
    accepts_of_fields _ _ _ _ _ _ rfl (by simp [aField]) (by simp [nField])⟩

theorem EncodeMatchesRow.rbStartPeek (p : Nat) : EncodeMatchesRow.Statement (.rbStartPeek p) :=
  ⟨⟨"RB.STARTPEEK", 0x03000000, 0xFF00FFFF⟩, by decide, rfl,
    accepts_of_fields _ _ _ _ _ _ rfl (by simp [aField]) (by simp [nField])⟩

theorem EncodeMatchesRow.rbPeek (p : Nat) : EncodeMatchesRow.Statement (.rbPeek p) :=
  ⟨⟨"RB.PEEK", 0x04000000, 0xFF00FFFF⟩, by decide, rfl,
    accepts_of_fields _ _ _ _ _ _ rfl (by simp [aField]) (by simp [nField])⟩

theorem EncodeMatchesRow.rbCount (p : Nat) : EncodeMatchesRow.Statement (.rbCount p) :=
  ⟨⟨"RB.COUNT", 0x05000000, 0xFF00FFFF⟩, by decide, rfl,
    accepts_of_fields _ _ _ _ _ _ rfl (by simp [aField]) (by simp [nField])⟩

theorem EncodeMatchesRow.rbIsEmpty (p : Nat) : EncodeMatchesRow.Statement (.rbIsEmpty p) :=
  ⟨⟨"RB.ISEMPTY", 0x06000000, 0xFF00FFFF⟩, by decide, rfl,
    accepts_of_fields _ _ _ _ _ _ rfl (by simp [aField]) (by simp [nField])⟩

theorem EncodeMatchesRow.rbIsFull (p : Nat) : EncodeMatchesRow.Statement (.rbIsFull p) :=
  ⟨⟨"RB.ISFULL", 0x07000000, 0xFF00FFFF⟩, by decide, rfl,
    accepts_of_fields _ _ _ _ _ _ rfl (by simp [aField]) (by simp [nField])⟩

theorem EncodeMatchesRow.ckCompute (len : Nat) : EncodeMatchesRow.Statement (.ckCompute len) :=
  ⟨⟨"CK.COMPUTE", 0x10000000, 0xFFFF0000⟩, by decide, rfl,
    accepts_of_fields _ _ _ _ _ _ rfl (by simp [aField]) (by simp [nField])⟩

theorem EncodeMatchesRow.ckVerify (len : Nat) : EncodeMatchesRow.Statement (.ckVerify len) :=
  ⟨⟨"CK.VERIFY", 0x11000000, 0xFFFF0000⟩, by decide, rfl,
    accepts_of_fields _ _ _ _ _ _ rfl (by simp [aField]) (by simp [nField])⟩

theorem EncodeMatchesRow.frBuild (len : Nat) : EncodeMatchesRow.Statement (.frBuild len) :=
  ⟨⟨"FR.BUILD", 0x20000000, 0xFFFF0000⟩, by decide, rfl,
    accepts_of_fields _ _ _ _ _ _ rfl (by simp [aField]) (by simp [nField])⟩

theorem EncodeMatchesRow.frParse : EncodeMatchesRow.Statement (.frParse) :=
  ⟨⟨"FR.PARSE", 0x21000000, 0xFFFFFFFF⟩, by decide, rfl,
    accepts_of_fields _ _ _ _ _ _ rfl (by simp [aField]) (by simp [nField])⟩

theorem EncodeMatchesRow.frSplit (len : Nat) : EncodeMatchesRow.Statement (.frSplit len) :=
  ⟨⟨"FR.SPLIT", 0x22000000, 0xFFFF0000⟩, by decide, rfl,
    accepts_of_fields _ _ _ _ _ _ rfl (by simp [aField]) (by simp [nField])⟩

theorem EncodeMatchesRow.maEnterTx : EncodeMatchesRow.Statement (.maEnterTx) :=
  ⟨⟨"MA.ENTER_TX", 0x30000000, 0xFF000000⟩, by decide, rfl,
    accepts_of_fields _ _ _ _ _ _ rfl (by simp [aField]) (by simp [nField])⟩

theorem EncodeMatchesRow.maToRx : EncodeMatchesRow.Statement (.maToRx) :=
  ⟨⟨"MA.TO_RX", 0x31000000, 0xFF000000⟩, by decide, rfl,
    accepts_of_fields _ _ _ _ _ _ rfl (by simp [aField]) (by simp [nField])⟩

theorem EncodeMatchesRow.maPoll : EncodeMatchesRow.Statement (.maPoll) :=
  ⟨⟨"MA.POLL", 0x32000000, 0xFFFFFFFF⟩, by decide, rfl,
    accepts_of_fields _ _ _ _ _ _ rfl (by simp [aField]) (by simp [nField])⟩

theorem EncodeMatchesRow.maTimeout : EncodeMatchesRow.Statement (.maTimeout) :=
  ⟨⟨"MA.TIMEOUT", 0x33000000, 0xFF000000⟩, by decide, rfl,
    accepts_of_fields _ _ _ _ _ _ rfl (by simp [aField]) (by simp [nField])⟩

theorem EncodeMatchesRow.irqDispatch : EncodeMatchesRow.Statement (.irqDispatch) :=
  ⟨⟨"IRQ.DISPATCH", 0x40000000, 0xFF000000⟩, by decide, rfl,
    accepts_of_fields _ _ _ _ _ _ rfl (by simp [aField]) (by simp [nField])⟩

theorem EncodeMatchesRow.init : EncodeMatchesRow.Statement (.init) :=
  ⟨⟨"INIT", 0x50000000, 0xFFFFFFFF⟩, by decide, rfl,
    accepts_of_fields _ _ _ _ _ _ rfl (by simp [aField]) (by simp [nField])⟩

theorem EncodeMatchesRow.write (len : Nat) : EncodeMatchesRow.Statement (.write len) :=
  ⟨⟨"WRITE", 0x51000000, 0xFFFF0000⟩, by decide, rfl,
    accepts_of_fields _ _ _ _ _ _ rfl (by simp [aField]) (by simp [nField])⟩

theorem EncodeMatchesRow.writeFrame (len : Nat) : EncodeMatchesRow.Statement (.writeFrame len) :=
  ⟨⟨"WRITE_FRAME", 0x52000000, 0xFFFF0000⟩, by decide, rfl,
    accepts_of_fields _ _ _ _ _ _ rfl (by simp [aField]) (by simp [nField])⟩

theorem EncodeMatchesRow.available (p : Nat) : EncodeMatchesRow.Statement (.available p) :=
  ⟨⟨"AVAILABLE", 0x53000000, 0xFF00FFFF⟩, by decide, rfl,
    accepts_of_fields _ _ _ _ _ _ rfl (by simp [aField]) (by simp [nField])⟩

theorem EncodeMatchesRow.drain (p count : Nat) : EncodeMatchesRow.Statement (.drain p count) :=
  ⟨⟨"DRAIN", 0x54000000, 0xFF000000⟩, by decide, rfl,
    accepts_of_fields _ _ _ _ _ _ rfl (by simp [aField]) (by simp [nField])⟩

theorem EncodeMatchesRow.ckerrCount : EncodeMatchesRow.Statement (.ckerrCount) :=
  ⟨⟨"CKERR_COUNT", 0x55000000, 0xFFFFFFFF⟩, by decide, rfl,
    accepts_of_fields _ _ _ _ _ _ rfl (by simp [aField]) (by simp [nField])⟩

theorem EncodeMatchesRow.setRxPipeAddress (p : Nat) : EncodeMatchesRow.Statement (.setRxPipeAddress p) :=
  ⟨⟨"SET_RX_PIPE_ADDRESS", 0x56000000, 0xFF00FFFF⟩, by decide, rfl,
    accepts_of_fields _ _ _ _ _ _ rfl (by simp [aField]) (by simp [nField])⟩

theorem EncodeMatchesRow.setTxAddress : EncodeMatchesRow.Statement (.setTxAddress) :=
  ⟨⟨"SET_TX_ADDRESS", 0x57000000, 0xFFFFFFFF⟩, by decide, rfl,
    accepts_of_fields _ _ _ _ _ _ rfl (by simp [aField]) (by simp [nField])⟩

theorem EncodeMatchesRow.setChannel (ch : Nat) : EncodeMatchesRow.Statement (.setChannel ch) :=
  ⟨⟨"SET_CHANNEL", 0x58000000, 0xFF00FFFF⟩, by decide, rfl,
    accepts_of_fields _ _ _ _ _ _ rfl (by simp [aField]) (by simp [nField])⟩

theorem EncodeMatchesRow.enablePipes (mask : Byte) : EncodeMatchesRow.Statement (.enablePipes mask) :=
  ⟨⟨"ENABLE_PIPES", 0x59000000, 0xFF00FFFF⟩, by decide, rfl,
    accepts_of_fields _ _ _ _ _ _ rfl (by simp [aField]) (by simp [nField])⟩

theorem EncodeMatchesRow.disablePipes (mask : Byte) : EncodeMatchesRow.Statement (.disablePipes mask) :=
  ⟨⟨"DISABLE_PIPES", 0x5A000000, 0xFF00FFFF⟩, by decide, rfl,
    accepts_of_fields _ _ _ _ _ _ rfl (by simp [aField]) (by simp [nField])⟩

theorem EncodeMatchesRow.regWrite (addr b : Byte) : EncodeMatchesRow.Statement (.regWrite addr b) :=
  ⟨⟨"REG.WRITE", 0x60000000, 0xFF00FF00⟩, by decide, rfl,
    accepts_of_fields _ _ _ _ _ _ rfl (by simp [aField]) (byte_and_high b)⟩

theorem EncodeMatchesRow.regWriteN (addr : Byte) (count : Nat) : EncodeMatchesRow.Statement (.regWriteN addr count) :=
  ⟨⟨"REG.WRITEN", 0x61000000, 0xFF000000⟩, by decide, rfl,
    accepts_of_fields _ _ _ _ _ _ rfl (by simp [aField]) (by simp [nField])⟩

theorem EncodeMatchesRow.regRead (addr : Byte) (count : Nat) : EncodeMatchesRow.Statement (.regRead addr count) :=
  ⟨⟨"REG.READ", 0x62000000, 0xFF000000⟩, by decide, rfl,
    accepts_of_fields _ _ _ _ _ _ rfl (by simp [aField]) (by simp [nField])⟩

end Sys2Proof.Laws
end

