-- ==== Sys2Proof/Laws/Quiet.lean ====
section
/-! SUPPORT. What every part of a step has in common, but for the push of a frame: it returns nothing, pushes nothing,
leaves the radio enabled and never enters Transmitting. -/
namespace Sys2Proof.Machine

/-- The level a history leaves is that of its later part, if that part sets it (R233). -/
theorem radioEnable_append (xs ys : List ChipEvent) : radioEnable (xs ++ ys) = (radioEnable ys).or (radioEnable xs) := by
  induction xs with
  | nil => simp [radioEnable]
  | cons e es ih =>
    cases e <;> simp only [List.cons_append, radioEnable, ih] <;>
      cases radioEnable ys <;> cases radioEnable es <;> rfl

/-- A part of a step that returns no result, pushes no frame, does not enter Transmitting, and leaves the radio enabled if
it touches the line at all. -/
structure Quiet (s t : State) : Prop where
  params : t.params = s.params
  results : t.results = s.results
  task : t.task = s.task
  inStream : t.inStream = s.inStream
  txStage : t.txStage = s.txStage
  rxStage : s.rxStage = [] → t.rxStage = []
  initialized : s.initialized = true → t.initialized = true
  mode : t.mode = s.mode ∨ t.mode = .receiving
  commands : t.env.commands = s.env.commands
  port : ∃ es, t.port = s.port ++ es ∧ (∀ f, ChipEvent.writeTxFrame f ∉ es) ∧ radioEnable es ≠ some false

theorem Quiet.refl (s : State) : Quiet s s :=
  ⟨rfl, rfl, rfl, rfl, rfl, id, id, .inl rfl, rfl, [], by simp, by simp, by simp [radioEnable]⟩

theorem Quiet.trans {s t u : State} (h : Quiet s t) (g : Quiet t u) : Quiet s u := by
  obtain ⟨es, h1, h2, h3⟩ := h.port
  obtain ⟨fs, g1, g2, g3⟩ := g.port
  refine ⟨g.params.trans h.params, g.results.trans h.results, g.task.trans h.task, g.inStream.trans h.inStream,
    g.txStage.trans h.txStage, g.rxStage ∘ h.rxStage, g.initialized ∘ h.initialized, ?_,
    g.commands.trans h.commands, es ++ fs, ?_, ?_, ?_⟩
  · rcases g.mode with e | e
    · rw [e]; exact h.mode
    · exact .inr e
  · rw [g1, h1, List.append_assoc]
  · intro f hf
    rcases List.mem_append.1 hf with hf | hf
    · exact h2 f hf
    · exact g2 f hf
  · rw [radioEnable_append]
    cases e : radioEnable fs with
    | none => simpa using h3
    | some l => simpa [e] using g3

/-- Quiet events, one after the other. -/
theorem Quiet.emit (s : State) (es : List ChipEvent) (h : ∀ e ∈ es, e.quiet = true) : Quiet s (Machine.emit s es) := by
  refine ⟨rfl, rfl, rfl, rfl, rfl, id, id, .inl rfl, rfl, es, rfl, fun f hf => by simpa [ChipEvent.quiet] using h _ hf, ?_⟩
  induction es with
  | nil => simp [radioEnable]
  | cons e es ih =>
    have he := h e (by simp)
    have hes := ih fun e he => h e (by simp [he])
    cases e <;> simp [ChipEvent.quiet] at he <;> simp only [radioEnable] <;>
      cases hr : radioEnable es <;> simp_all

/-- An update of the fields that quietness does not look at. -/
theorem Quiet.of_eq {s t : State} (params : t.params = s.params) (results : t.results = s.results) (task : t.task = s.task)
    (inStream : t.inStream = s.inStream) (txStage : t.txStage = s.txStage) (rxStage : s.rxStage = [] → t.rxStage = [])
    (initialized : s.initialized = true → t.initialized = true) (mode : t.mode = s.mode ∨ t.mode = .receiving)
    (commands : t.env.commands = s.env.commands) (port : t.port = s.port) : Quiet s t :=
  ⟨params, results, task, inStream, txStage, rxStage, initialized, mode, commands, [], by simp [port], by simp,
    by simp [radioEnable]⟩

theorem Quiet.setRing (s : State) (p : Pipe) (r : RingBuffer) : Quiet s (s.setRing p r) :=
  .of_eq rfl rfl rfl rfl rfl id id (.inl rfl) rfl rfl

theorem Quiet.drawBytes (s : State) (n : Nat) : Quiet s (Machine.drawBytes n s).2 :=
  .of_eq rfl rfl rfl rfl rfl id id (.inl rfl) rfl rfl

theorem Quiet.readNow (s : State) : Quiet s (Machine.readNow s).2 :=
  .of_eq rfl rfl rfl rfl rfl id id (.inl rfl) rfl rfl

theorem Quiet.drawCell (s : State) (cell : Option Byte) : Quiet s (Machine.drawCell cell s).2 := by
  cases cell
  · exact .of_eq rfl rfl rfl rfl rfl id id (.inl rfl) rfl rfl
  · exact .refl s

theorem Quiet.chipStatus (s : State) : Quiet s (Machine.chipStatus s).2 :=
  (Quiet.emit s [.status] (by simp [ChipEvent.quiet])).trans
    (.of_eq rfl rfl rfl rfl rfl id id (.inl rfl) rfl rfl)

theorem Quiet.chipRegRead (s : State) (addr : Byte) (n : Nat) : Quiet s (Machine.chipRegRead s addr n).2 :=
  (Quiet.emit s [.regRead addr n] (by simp [ChipEvent.quiet])).trans
    (.of_eq rfl rfl rfl rfl rfl id id (.inl rfl) rfl rfl)

theorem Quiet.toRx (s : State) : Quiet s (Machine.toRx s) :=
  ⟨rfl, rfl, rfl, rfl, rfl, id, id, .inr rfl, rfl, toRxEvents, rfl, by simp [toRxEvents], by
    simp [toRxEvents, radioEnable]⟩

theorem Quiet.poll (s : State) : Quiet s (Machine.poll s).2 := by
  have hc := Quiet.chipStatus s
  rcases poll_cases s with ⟨-, h⟩ | ⟨-, -, -, h⟩ | ⟨-, -, -, h⟩ | ⟨-, -, -, h⟩ <;> rw [h]
  · exact .refl s
  · exact hc.trans (.toRx _)
  · exact (hc.trans (.readNow _)).trans (.toRx _)
  · exact hc.trans (.readNow _)

theorem Quiet.frameRead (s : State) : Quiet s (Machine.frameRead s) :=
  (Quiet.emit s [.readRxFrame, .flushRx, .clearRxReady] (by simp [ChipEvent.quiet])).trans
    (.of_eq rfl rfl rfl rfl rfl (fun _ => rfl) id (.inl rfl) rfl (by simp [Machine.frameRead, Machine.chipReadRxFrame]))

theorem Quiet.countError (s : State) : Quiet s (Machine.countError s) :=
  .of_eq rfl rfl rfl rfl rfl id id (.inl rfl) rfl rfl

theorem Quiet.of_ring_mem {s t : State} (h : t = { s with rb := t.rb, mem := t.mem }) : Quiet s t := by
  rw [h]
  exact .of_eq rfl rfl rfl rfl rfl id id (.inl rfl) rfl rfl

theorem Quiet.dispatchCase {c : Status} {s t : State} (h : Machine.dispatchCase c s = .next t) : Quiet s t := by
  rcases dispatchCase_cases h with rfl | rfl | ⟨q, payload, h⟩ | rfl | rfl
  · exact .toRx s
  · exact .emit s _ (by simp [ChipEvent.quiet])
  · exact (Quiet.frameRead s).trans (.of_ring_mem (admitBytes_frame q payload h))
  · exact (Quiet.frameRead s).trans (.countError _)
  · exact .refl _

theorem Quiet.dispatchTimeout (s : State) : Quiet s (Machine.dispatchTimeout s) := by
  rcases dispatchTimeout_cases s with ⟨e, -⟩ | ⟨-, -, -, e⟩ | ⟨-, -, -, e⟩ <;> rw [e]
  · exact .refl s
  · exact (Quiet.readNow s).trans (.toRx _)
  · exact .readNow s

theorem Quiet.removeByte {s u : State} {q : Pipe} {b : Byte} (h : Machine.removeByte s q = .next (b, u)) : Quiet s u := by
  obtain ⟨r, hr, h⟩ := andThen_cases h
  obtain ⟨-, rfl⟩ := memRead_cases hr
  cases h
  exact (Quiet.drawCell s _).trans (.setRing _ _ _)

theorem Quiet.peekByte {s u : State} {q : Pipe} {b : Byte} (h : Machine.peekByte s q = .next (b, u)) : Quiet s u := by
  obtain ⟨r, hr, h⟩ := andThen_cases h
  obtain ⟨-, rfl⟩ := memRead_cases hr
  cases hw : inWindow s q <;> simp only [hw] at h <;> cases h
  · exact (Quiet.drawCell s none).trans (.setRing _ _ _)
  · exact (Quiet.drawCell s _).trans (.setRing _ _ _)

/-- What an operation that returns at once does before it returns is quiet. -/
theorem OpEffect.quiet {s u : State} (e : OpEffect s u) : Quiet s u := by
  cases e with
  | nothing => exact .refl s
  | drawn n hi => exact .drawBytes s n
  | reset q hi => exact .setRing s q _
  | startPeek q hi => exact .setRing s q _
  | insert q b u hi hc hu => exact .of_ring_mem (insertByte_frame hu)
  | remove q b u hi hc hu => exact .removeByte hu
  | peek q b u hi hc hu => exact .peekByte hu
  | configured e hi he => exact .emit s [e] (by simpa using he)
  | regRead addr n hi => exact .chipRegRead s addr n
  | polled hi => exact .poll s
  | init =>
    refine ⟨rfl, rfl, rfl, rfl, rfl, id, fun _ => rfl, .inr rfl, rfl,
      [.transportInit, .configure] ++ toRxEvents, ?_, by simp [toRxEvents], by simp [toRxEvents, radioEnable]⟩
    simp [initialised]

/-- A whole dispatch is quiet. -/
theorem Quiet.irqDispatch {s t : State} (h : exec .irqDispatch s = .next t) : Quiet s t := by
  rcases exec_cases h with h | h
  · obtain ⟨u, r, -, -, hr, -⟩ := h
    simp [possibleCodes] at hr
  · cases h with
    | discarded => exact .of_eq rfl rfl rfl rfl rfl id id (.inl rfl) rfl rfl
    | dispatch _ u _ hd =>
      have h1 : Quiet s (clearPending s) := .of_eq rfl rfl rfl rfl rfl id id (.inl rfl) rfl rfl
      exact ((h1.trans (.chipStatus _)).trans (.dispatchCase hd)).trans (.dispatchTimeout u)

end Sys2Proof.Machine
end

