-- ==== Sys2Proof/Laws/Step.lean ====
section
/-! SUPPORT. Everything a step can do, said once: which agent moves, and what the task agent does (R60 to R62). -/
namespace Sys2Proof.Machine

/-- Two states that differ at most in the inputs and in the number of draws. -/
structure SameMachine (s t : State) : Prop where
  frame : t = { s with env := t.env, freeIdx := t.freeIdx }
  now : t.env.now = s.env.now
  commands : t.env.commands = s.env.commands

theorem drawEdge_same (s : State) : SameMachine s (drawEdge s).2 := ⟨rfl, rfl, rfl⟩

theorem drawChoice_same (s : State) : SameMachine s (drawChoice s).2 := ⟨rfl, rfl, rfl⟩

theorem SameMachine.trans {s t u : State} (h : SameMachine s t) (g : SameMachine t u) : SameMachine s u := by
  refine ⟨?_, g.now.trans h.now, g.commands.trans h.commands⟩
  rw [g.frame, h.frame]

theorem SameMachine.sound {s t : State} (h : SameMachine s t) (hs : Sound s) : Sound t := by
  have f := h.frame
  refine hs.congr (by rw [f]) (by rw [f]) (by rw [f]) ?_ ?_ (by rw [h.now]; exact hs.now_lt)
  · rw [f]; exact hs.cksum_lt
  · rw [f]; exact hs.start_lt

/-- A step is one dispatch or one step of the task agent, and then an edge that arrived is latched (R60, R61, R222). -/
theorem step_cases {s t : State} (h : step s = .next t) :
    ∃ s0 u, SameMachine s s0 ∧ t = latchEdge (drawEdge s).1 u ∧
      ((s.irqPending = true ∧ exec .irqDispatch s0 = .next u) ∨ taskStep s0 = .next u) := by
  obtain ⟨u, hu, ht⟩ := andThen_cases h
  cases ht
  unfold agentStep at hu
  have h1 := drawEdge_same s
  split at hu
  · next hp =>
    have hp : s.irqPending = true := hp
    have h2 := h1.trans (drawChoice_same (drawEdge s).2)
    simp only at hu
    split at hu
    · exact ⟨_, u, h2, rfl, .inl ⟨hp, hu⟩⟩
    · exact ⟨_, u, h2, rfl, .inr hu⟩
  · exact ⟨_, u, h1, rfl, .inr hu⟩

/-- Without a pending edge a step is a step of the task agent (R62). -/
theorem step_of_not_pending {s : State} (h : s.irqPending = false) :
    step s = andThen (taskStep (drawEdge s).2) fun t => .next (latchEdge (drawEdge s).1 t) := by
  simp [step, steppedWithEdge, agentStep, h]

/-- With a pending edge a step is a dispatch or a step of the task agent, by the choice drawn (R222). -/
theorem step_of_pending {s : State} (h : s.irqPending = true) :
    step s = andThen
      (if (drawChoice (drawEdge s).2).1 then exec .irqDispatch (drawChoice (drawEdge s).2).2
       else taskStep (drawChoice (drawEdge s).2).2) fun t => .next (latchEdge (drawEdge s).1 t) := by
  have hp : (drawEdge s).2.irqPending = true := h
  simp only [step, steppedWithEdge, agentStep, hp, if_true]

/-- A run of one more step, of any machine. -/
theorem core_run_succ (M : Host.Core) {n : Nat} {s t : M.State} (h : M.step s = .next t) :
    M.run (n + 1) s = M.run n t := by
  simp only [Host.Core.run, h]

/-- A run of one more step. -/
theorem run_succ {n : Nat} {s t : State} (h : step s = .next t) : Sys2Proof.core.run (n + 1) s = Sys2Proof.core.run n t :=
  core_run_succ Sys2Proof.core h

/-- The state in which an accepted command runs: its input stream is open (R70, R73). -/
def accepted (s : State) (c : Command) (rest : List Command) (i : Instr) : State :=
  openStream i c.stream { s with env := { s.env with commands := rest } }

/-- The task agent accepts the command in front (R62, R70). -/
theorem taskStep_command {s : State} {c : Command} {rest : List Command} {i : Instr} (ht : s.task = .idle)
    (hc : s.env.commands = c :: rest) (hd : c.operation s.params = .ok i) (hi : i.issuer = .cmd) :
    taskStep s = exec i (accepted s c rest i) := by
  have h : taskStep s = issue c { s with env := { s.env with commands := rest } } := by
    simp only [taskStep, ht, acceptCommand, hc]
  rw [h, issue]
  show (match c.operation s.params with
    | .ok i => if i.issuer = Issuer.cmd then exec i (accepted s c rest i) else _
    | .error _ => _) = _
  rw [hd]
  exact if_pos hi

/-- Everything a step of the task agent can do (R62). -/
inductive TaskStep (s : State) : State → Prop where
  /-- No command waits. -/
  | idle (ht : s.task = .idle) (hc : s.env.commands = []) : TaskStep s s
  /-- A word the command port does not accept (R84, R85). -/
  | illegal (c : Command) (rest : List Command) (ht : s.task = .idle) (hc : s.env.commands = c :: rest)
      (hd : ∀ i, c.operation s.params = .ok i → i.issuer ≠ .cmd) :
      TaskStep s (finish { s with env := { s.env with commands := rest } } ⟨.rejIllegal, 0, []⟩)
  /-- A command begins. -/
  | command (c : Command) (rest : List Command) (i : Instr) (t : State) (ht : s.task = .idle)
      (hc : s.env.commands = c :: rest) (hd : c.operation s.params = .ok i) (hi : i.issuer = .cmd)
      (h : exec i (accepted s c rest i) = .next t) : TaskStep s t
  /-- DRAIN removes one more byte (R189). -/
  | drain (q : Pipe) (count : Nat) (out : List Byte) (t : State) (ht : s.task = .drain q count out)
      (hlt : out.length < count) (h : stepDrain q count out s = .next t) : TaskStep s t
  /-- DRAIN returns its bytes (R189). -/
  | drained (q : Pipe) (count : Nat) (out : List Byte) (ht : s.task = .drain q count out)
      (hle : count ≤ out.length) : TaskStep s (finish s ⟨.ok, 0, out⟩)
  /-- A busy-wait polls once more (R140). -/
  | pollFrame (len : Nat) (ht : s.task = .writeFrame len .waiting) :
      TaskStep s ((poll s).2.setTask (.writeFrame len (phaseAfter (poll s).1)))
  | pollWrite (len k : Nat) (ht : s.task = .write len k .waiting) (hk : k < len) :
      TaskStep s ((poll s).2.setTask (.write len k (phaseAfter (poll s).1)))
  /-- WRITE_FRAME pushes its frame and returns (R140). -/
  | pushFrame (len : Nat) (ht : s.task = .writeFrame len .sending) :
      TaskStep s (finish (Machine.pushFrame s (s.inStream.take len)) ⟨.ok, 0, []⟩)
  /-- WRITE pushes a fragment (R142). -/
  | pushFragment (len k : Nat) (ht : s.task = .write len k .sending) :
      TaskStep s ((Machine.pushFrame s ((s.inStream.drop k).take (fragmentAt s.params len k))).setTask
        (.write len (k + fragmentAt s.params len k) .waiting))
  /-- WRITE, all its fragments pushed, returns (R142). -/
  | written (len k : Nat) (ht : s.task = .write len k .waiting) (hk : len ≤ k) :
      TaskStep s (finish s ⟨.ok, 0, []⟩)

theorem taskStep_cases {s t : State} (h : taskStep s = .next t) : TaskStep s t := by
  unfold taskStep at h
  split at h
  · next ht =>
    unfold acceptCommand at h
    split at h
    · next hc => cases h; exact .idle ht hc
    · next c rest hc =>
      unfold issue at h
      split at h
      · next i hd =>
        split at h
        · next hi => exact .command c rest i t ht hc hd hi h
        · next hi => cases h; exact .illegal c rest ht hc fun j hj => by rw [hd] at hj; cases hj; exact hi
      · next e hd => cases h; exact .illegal c rest ht hc fun j hj => by rw [hd] at hj; cases hj
  · next q count out ht =>
    by_cases hlt : out.length < count
    · exact .drain q count out t ht hlt h
    · rw [stepDrain, if_neg hlt] at h
      cases h
      exact .drained q count out ht (by omega)
  · next len phase ht =>
    cases phase with
    | waiting => cases h; exact .pollFrame len ht
    | sending => cases h; exact .pushFrame len ht
  · next len k phase ht =>
    cases phase with
    | waiting =>
      simp only [stepWrite] at h
      split at h
      · next hk => cases h; exact .pollWrite len k ht hk
      · next hk => cases h; exact .written len k ht (by omega)
    | sending => cases h; exact .pushFragment len k ht

/-- What an operation that returns at once does before it returns keeps a sound state sound. -/
theorem Sound.opEffect {s u : State} (h : Sound s) (e : OpEffect s u) : Sound u := by
  cases e with
  | nothing => exact h
  | drawn n hi => exact h.congr rfl rfl rfl h.cksum_lt h.start_lt h.now_lt
  | reset q hi =>
    refine h.setRing q _ (.zero h.capacity_pos) fun b hb => ?_
    simp [contents, RingBuffer.zero] at hb
  | startPeek q hi =>
    refine h.setRing q _ ((h.rings q).withPk _ (h.rings q).rd_lt) fun b hb => ?_
    rw [contents_setRing_pk] at hb
    exact h.written q b hb
  | insert q b u hi hc hu =>
    rw [insertByte_eq s q b (h.rings q).wr_lt] at hu
    cases hu
    exact h.inserted q b (by have := (h.rings q).count_le; omega)
  | remove q b u hi hc hu =>
    obtain ⟨b', hb, -, hs⟩ := h.removeByte q hc
    rw [hb] at hu
    cases hu
    exact hs
  | peek q b u hi hc hu =>
    obtain ⟨v, k, hk⟩ := peekByte_eq s q (h.rings q).pk_lt
    rw [hk] at hu
    cases hu
    refine Sound.congr (h.setRing q _ ((h.rings q).withPk _ (Nat.mod_lt _ h.capacity_pos)) fun b hb => ?_) rfl rfl rfl
      h.cksum_lt h.start_lt h.now_lt
    rw [contents_setRing_pk] at hb
    exact h.written q b hb
  | configured e hi he => exact h.congr rfl rfl rfl h.cksum_lt h.start_lt h.now_lt
  | regRead addr n hi => exact h.congr rfl rfl rfl h.cksum_lt h.start_lt h.now_lt
  | polled hi => exact h.poll
  | init =>
    have hz : ∀ p, (initialised s).ring p = RingBuffer.zero := fun p => by
      simp [initialised, State.ring, resetRings]
    refine ⟨h.params, fun p => ?_, h.mem_wf, h.mem_in, fun p b hb => ?_, by positivity, h.start_lt, h.now_lt⟩
    · rw [hz p]; exact .zero h.capacity_pos
    · simp [contents, hz p, RingBuffer.zero] at hb

/-- One step of a DRAIN that may still rely on its bytes: the oldest one comes out (R189). -/
theorem Sound.stepDrain {s : State} (h : Sound s) {p : Pipe} {count : Nat} {out : List Byte} (hlt : out.length < count)
    (hc : count - out.length ≤ (s.ring p).count) :
    ∃ b, contents s p = some b :: contents (removed s p) p ∧ Sound (removed s p) ∧
      Machine.stepDrain p count out s = .next ((removed s p).setTask (.drain p count (out ++ [b]))) := by
  have hne : (s.ring p).count ≠ 0 := by omega
  obtain ⟨b, hb, hcont, hs⟩ := h.removeByte p hne
  refine ⟨b, hcont, hs, ?_⟩
  simp only [Machine.stepDrain, hlt, if_true, isEmpty, beq_iff_eq, hne, if_false, hb, andThen_next]

/-- The frames a history has pushed, part by part (R139). -/
theorem pushedFrames_append (xs ys : List ChipEvent) : pushedFrames (xs ++ ys) = pushedFrames xs ++ pushedFrames ys := by
  induction xs with
  | nil => rfl
  | cons e es ih => cases e <;> simp [pushedFrames, ih]

/-- The bytes a history has pushed, part by part (R139). -/
theorem pushedBytes_append (c : Params) (xs ys : List ChipEvent) :
    pushedBytes c (xs ++ ys) = pushedBytes c xs ++ pushedBytes c ys := by
  simp [pushedBytes, pushedFrames_append]

/-- Events that hand over no frame push none. -/
theorem pushedFrames_eq_nil (es : List ChipEvent) (h : ∀ f, ChipEvent.writeTxFrame f ∉ es) : pushedFrames es = [] := by
  induction es with
  | nil => rfl
  | cons e es ih =>
    have hes := ih fun f hf => h f (by simp [hf])
    cases e with
    | writeTxFrame f => exact absurd (by simp) (h f)
    | _ => simpa [pushedFrames] using hes

end Sys2Proof.Machine
end

