-- ==== Sys2Proof/Tests/Slice0.lean ====
section
/-! SUPPORT. The model's own tests. Expected values are the worked examples of 95_test_vectors.md (S, V and P numbers)
or are written out by hand from the encoding of 30_encoding.md R71, R83. -/
namespace Sys2Proof.Tests
set_option Elab.async false
open Sys2Proof.Machine

/-! ## Decoding: words written out from R71 and R83 -/

theorem test_decode_ring :
    decode 16 0x00020010 = .ok (.rbInit 2 16) ∧ decode 16 0x01020041 = .ok (.rbInsert 2 0x41) ∧
    decode 16 0x02020000 = .ok (.rbRemove 2) ∧ decode 16 0x03020000 = .ok (.rbStartPeek 2) ∧
    decode 16 0x04020000 = .ok (.rbPeek 2) ∧ decode 16 0x05070000 = .ok (.rbCount 7) ∧
    decode 16 0x06020000 = .ok (.rbIsEmpty 2) ∧ decode 16 0x07020000 = .ok (.rbIsFull 2) := by decide

/-- The word of `RB.INSERT 2, 0x41` bit by bit: op 00000001, a 00000010, n 0000000001000001. -/
theorem test_decode_insert_bits :
    decode 16 0b00000001_00000010_00000000_01000001#32 = .ok (.rbInsert 2 0x41) := by decide

theorem test_decode_checksum_and_framing :
    decode 16 0x10000005 = .ok (.ckCompute 5) ∧ decode 16 0x11000005 = .ok (.ckVerify 5) ∧
    decode 16 0x20000005 = .ok (.frBuild 5) ∧ decode 16 0x21000000 = .ok .frParse ∧
    decode 16 0x2200FFFF = .ok (.frSplit 65535) := by decide

theorem test_decode_mode_and_interrupt :
    decode 16 0x30000000 = .ok .maEnterTx ∧ decode 16 0x31000000 = .ok .maToRx ∧ decode 16 0x32000000 = .ok .maPoll ∧
    decode 16 0x33000000 = .ok .maTimeout ∧ decode 16 0x40000000 = .ok .irqDispatch := by decide

theorem test_decode_application :
    decode 16 0x50000000 = .ok .init ∧ decode 16 0x51000046 = .ok (.write 70) ∧ decode 16 0x52000003 = .ok (.writeFrame 3) ∧
    decode 16 0x53020000 = .ok (.available 2) ∧ decode 16 0x5402000A = .ok (.drain 2 10) ∧
    decode 16 0x55000000 = .ok .ckerrCount := by decide

theorem test_decode_configuration :
    decode 16 0x56010000 = .ok (.setRxPipeAddress 1) ∧ decode 16 0x57000000 = .ok .setTxAddress ∧
    decode 16 0x584C0000 = .ok (.setChannel 76) ∧ decode 16 0x59070000 = .ok (.enablePipes 0x07) ∧
    decode 16 0x5A040000 = .ok (.disablePipes 0x04) := by decide

theorem test_decode_registers :
    decode 16 0x6005004C = .ok (.regWrite 0x05 0x4C) ∧ decode 16 0x610A0005 = .ok (.regWriteN 0x0A 5) ∧
    decode 16 0x62400002 = .ok (.regRead 0x40 2) := by decide

/-- A write length above 65535, where `LEN_WIDTH = 20` (R7, R137): op, a, then the 20 bits of 70000 = 0x11170. -/
theorem test_decode_wider_length : decode 20 0x510011170 = .ok (.write 70000) := by decide

/-- V7, V1 rows 7 and 21, V2: unassigned codes and non-zero reserved fields. -/
theorem test_decode_rejects :
    decode 16 0x70000000 = .error .unassignedOp ∧ decode 16 0x08000000 = .error .unassignedOp ∧
    decode 16 0x01020141 = .error .reservedField ∧ decode 16 0x05020001 = .error .reservedField ∧
    decode 16 0x10010003 = .error .reservedField := by decide

/-- The rows of the operation map exclude one another. -/
theorem test_rows_disjoint : opcodeRows.Pairwise fun r q => r.mask &&& q.mask &&& (r.pattern ^^^ q.pattern) ≠ 0 := by
  decide

/-! ## Well-formedness: one ill-formed term for each check -/

theorem test_wf_refuses_wide_pipe : Instr.wf 16 (.rbCount 256) = false := by decide
theorem test_wf_refuses_wide_channel : Instr.wf 16 (.setChannel 256) = false := by decide
theorem test_wf_refuses_wide_capacity : Instr.wf 16 (.rbInit 0 65536) = false := by decide
theorem test_wf_refuses_wide_length : Instr.wf 16 (.write 65536) = false := by decide
theorem test_wf_refuses_wide_count : Instr.wf 16 (.regRead 0x00 65536) = false := by decide
theorem test_wf_refuses_wide_byte : Instr.wf 4 (.rbInsert 0 0x41) = false ∧ Instr.wf 4 (.regWrite 0 0x10) = false := by
  decide
theorem test_wf_accepts_bounds : Instr.wf 16 (.drain 255 65535) = true := by decide

/-! ## States to run on -/

/-- What the tests read from an outcome. -/
def after {α : Type} (x : Outcome State) (f : State → α) : Option α :=
  match x with
  | .next t => some (f t)
  | .fault _ => none
  | .refused _ => none

/-- The last result returned. -/
def lastResult (s : State) : Option Result := s.results.getLast?

/-- An initialised block, Receiving, all ring buffers empty, default parameters. -/
def ready : State := { State.reset with initialized := true }

/-- `ready` with the registers of pipe `p` at `(wr, rd, pk, count)`. -/
def withRing (p : Pipe) (wr rd pk count : Nat) : State := ready.setRing p ⟨wr, rd, pk, count⟩

/-- A state with an input stream. -/
def fed (s : State) (bytes : List Byte) : State := { s with inStream := bytes }

/-- A state whose time input is `t` and stays there for the next read. -/
def atTime (s : State) (t : Nat) : State := { s with env := { s.env with now := t, advances := [0] } }

/-- Transmitting since `start`. -/
def sendingSince (start : Nat) : State := { ready with mode := .transmitting, txStart := start }

/-- The chip's next answers: a snapshot and a frame. -/
def answering (s : State) (x : Snapshot) (f : List Byte) : State :=
  { s with env := { s.env with snapshots := [x], frames := [f] } }

/-- A state with one command waiting, and no edge during the next step. -/
def commanded (s : State) (w : Nat) (bytes : List Byte) : State :=
  { s with env := { s.env with commands := [⟨w, bytes⟩], edges := [false] } }

def txDone : Snapshot := ⟨true, false, false, 0⟩
def rxOn (q : Nat) : Snapshot := ⟨false, false, true, q⟩
def nothing : Snapshot := ⟨false, false, false, 0⟩

/-! ## Ring buffer (V1) -/

theorem test_rb_init : after (exec (.rbInit 2 16) (withRing 2 5 2 4 3)) (fun t => t.ring 2) = some ⟨0, 0, 0, 0⟩ := by
  decide
theorem test_rb_init_other_capacity :
    after (exec (.rbInit 2 8) (withRing 2 5 2 4 3)) (fun t => (t.ring 2, lastResult t)) =
      some (⟨5, 2, 4, 3⟩, some ⟨.rejRange, 0, []⟩) := by decide
theorem test_rb_insert_wraps :
    after (exec (.rbInsert 2 0x41) (withRing 2 15 3 3 12)) (fun t => (t.ring 2, t.cell 47)) =
      some (⟨0, 3, 3, 13⟩, some 0x41) := by decide
theorem test_rb_insert_full :
    after (exec (.rbInsert 2 0x41) (withRing 2 3 3 3 16)) (fun t => (t.ring 2, t.mem, lastResult t)) =
      some (⟨3, 3, 3, 16⟩, [], some ⟨.rejFull, 0, []⟩) := by decide
theorem test_rb_remove_wraps :
    after (exec (.rbRemove 2) { withRing 2 0 15 3 1 with mem := [(47, 0x7E)] }) (fun t => (t.ring 2, lastResult t)) =
      some (⟨0, 0, 3, 0⟩, some ⟨.ok, 0x7E, []⟩) := by decide
theorem test_rb_remove_empty :
    after (exec (.rbRemove 2) (withRing 2 4 4 0 0)) (fun t => (t.ring 2, lastResult t)) =
      some (⟨4, 4, 0, 0⟩, some ⟨.rejEmpty, 0, []⟩) := by decide
theorem test_rb_startpeek :
    after (exec (.rbStartPeek 2) (withRing 2 9 4 7 5)) (fun t => t.ring 2) = some ⟨9, 4, 4, 5⟩ := by decide
theorem test_rb_peek_wraps :
    after (exec (.rbPeek 2) { withRing 2 0 14 15 2 with mem := [(47, 0x22)] }) (fun t => (t.ring 2, lastResult t)) =
      some (⟨0, 14, 0, 2⟩, some ⟨.ok, 0x22, []⟩) := by decide
theorem test_rb_peek_outside_window :
    after (exec (.rbPeek 2) (withRing 2 9 4 9 5)) (fun t => (t.ring 2, (lastResult t).map Result.code)) =
      some (⟨9, 4, 10, 5⟩, some .ok) := by decide
theorem test_rb_count : after (exec (.rbCount 2) (withRing 2 9 4 7 5)) lastResult = some (some ⟨.ok, 5, []⟩) := by decide
theorem test_rb_count_range : after (exec (.rbCount 7) ready) lastResult = some (some ⟨.rejRange, 0, []⟩) := by decide
theorem test_rb_isempty : after (exec (.rbIsEmpty 2) (withRing 2 4 4 1 0)) lastResult = some (some ⟨.ok, 1, []⟩) := by
  decide
theorem test_rb_isfull : after (exec (.rbIsFull 2) (withRing 2 3 3 0 16)) lastResult = some (some ⟨.ok, 1, []⟩) := by
  decide

/-! ## Checksum and framing (V2, V3) -/

theorem test_ck_hello :
    after (exec (.ckCompute 5) (fed State.reset [0x48, 0x45, 0x4C, 0x4C, 0x4F])) lastResult =
      some (some ⟨.ok, 0x86, []⟩) := by decide
theorem test_ck_too_long : after (exec (.ckCompute 31) State.reset) lastResult = some (some ⟨.rejLength, 0, []⟩) := by
  decide
theorem test_ck_verify_good :
    after (exec (.ckVerify 3) (fed State.reset [0x01, 0x02, 0x03, 0xF6])) lastResult = some (some ⟨.ok, 1, []⟩) := by
  decide
theorem test_ck_verify_bad :
    after (exec (.ckVerify 3) (fed State.reset [0x01, 0x02, 0x03, 0xF7])) lastResult = some (some ⟨.ok, 0, []⟩) := by
  decide
theorem test_fr_build_hello :
    after (exec (.frBuild 5) (fed State.reset [0x48, 0x45, 0x4C, 0x4C, 0x4F])) lastResult =
      some (some ⟨.ok, 0, [0x05, 0x48, 0x45, 0x4C, 0x4C, 0x4F, 0x86] ++ List.replicate 25 0x00⟩) := by decide
theorem test_fr_build_empty :
    after (exec (.frBuild 0) State.reset) lastResult =
      some (some ⟨.ok, 0, [0x00, 0xFF] ++ List.replicate 30 0x00⟩) := by decide
theorem test_fr_parse_ignores_filler :
    after (exec .frParse (fed State.reset ([0x05, 0x48, 0x45, 0x4C, 0x4C, 0x4F, 0x86] ++ List.replicate 25 0xFF)))
      lastResult = some (some ⟨.ok, 5, [0x48, 0x45, 0x4C, 0x4C, 0x4F]⟩) := by decide
theorem test_fr_parse_all_zero :
    after (exec .frParse (fed State.reset (List.replicate 32 0x00))) lastResult =
      some (some ⟨.ok, 0xFFFFFFFF, []⟩) := by decide
theorem test_fr_split_70 :
    after (exec (.frSplit 70) State.reset) lastResult = some (some ⟨.ok, 3, [0x1E, 0x1E, 0x0A]⟩) := by decide
theorem test_fr_split_60 : after (exec (.frSplit 60) State.reset) lastResult = some (some ⟨.ok, 2, [0x1E, 0x1E]⟩) := by
  decide

/-! ## Mode arbiter and write path (S7, V4, V5, P3) -/

theorem test_ma_enter_tx :
    after (exec .maEnterTx { atTime ready 1000 with txStage := [0x01, 0x41] }) (fun t => (t.mode, t.txStart, t.port)) =
      some (.transmitting, 1000, [.ce false, .powerTx, .flushTx, .writeTxFrame [0x01, 0x41], .ce true]) := by decide
theorem test_ma_to_rx :
    after (exec .maToRx (sendingSince 5)) (fun t => (t.mode, t.txStart, t.port)) =
      some (.receiving, 5, [.ce false, .powerRx, .clearTxFlags, .ce true]) := by decide
theorem test_ma_poll_at_bound :
    after (exec .maPoll (answering (atTime (sendingSince 1000) 1100) nothing []))
      (fun t => (t.mode, lastResult t, t.port)) = some (.transmitting, some ⟨.ok, 0, []⟩, [.status]) := by decide
theorem test_ma_poll_clock_wraps :
    after (exec .maPoll (answering (atTime (sendingSince 0xFFFFFFF0) 0x55) nothing []))
      (fun t => (t.mode, lastResult t, t.port)) =
      some (.receiving, some ⟨.ok, 1, []⟩, [.status, .ce false, .powerRx, .clearTxFlags, .ce true]) := by decide
theorem test_ma_timeout :
    after (exec .maTimeout (sendingSince 5)) (fun t => (t.mode, t.port)) =
      some (.receiving, [.ce false, .powerRx, .clearTxFlags, .ce true]) := by decide
theorem test_write_frame_too_long :
    after (exec (.writeFrame 31) (sendingSince 0)) (fun t => (t.mode, t.port, lastResult t)) =
      some (.transmitting, [], some ⟨.rejLength, 0, []⟩) := by decide
theorem test_write_frame_push :
    after (taskStep { atTime (fed ready [0x01, 0x02, 0x03]) 1000 with task := .writeFrame 3 .sending })
      (fun t => (t.mode, t.txStart, t.task, t.port[3]?)) =
      some (.transmitting, 1000, .idle,
        some (.writeTxFrame ([0x03, 0x01, 0x02, 0x03, 0xF6] ++ List.replicate 27 0x00))) := by decide
theorem test_write_zero :
    after (exec (.write 0) ready) (fun t => (t.mode, t.port, lastResult t)) =
      some (.receiving, [], some ⟨.ok, 0, []⟩) := by decide
theorem test_write_next_fragment :
    after (taskStep { atTime (fed ready (List.replicate 31 0x00)) 7 with task := .write 31 0 .sending })
      (fun t => (t.mode, t.txStart, t.task, t.results)) = some (.transmitting, 7, .write 31 30 .waiting, []) := by decide

/-- After the last WRITE_FRAME of a WRITE its completion may be dispatched, so that WRITE returns in Receiving (R62, R142). -/
theorem test_write_completion_before_return :
    after (step { answering (sendingSince 5) txDone [] with
        irqPending := true, task := .write 3 3 .waiting, env := { Env.silent with choices := [true], snapshots := [txDone] } })
      (fun t => (t.mode, t.task, t.results)) = some (.receiving, .write 3 3 .waiting, []) := by decide
theorem test_write_returns :
    after (taskStep { ready with task := .write 3 3 .waiting }) (fun t => (t.mode, t.task, t.port, lastResult t)) =
      some (.receiving, .idle, [], some ⟨.ok, 0, []⟩) := by decide

/-! ## Receive dispatch (V6) -/

theorem test_dispatch_overflow_drops :
    after (exec .irqDispatch (answering { withRing 5 3 3 0 16 with irqPending := true } (rxOn 5)
      ([0x01, 0x41, 0xBD] ++ List.replicate 29 0x00)))
      (fun t => (t.ring 5, t.cksumErr, t.irqPending, t.port)) =
      some (⟨3, 3, 0, 16⟩, 0, false, [.status, .readRxFrame, .flushRx, .clearRxReady]) := by decide
theorem test_dispatch_error_counter_wraps :
    after (exec .irqDispatch (answering { ready with cksumErr := 0xFFFFFFFF } (rxOn 2)
      ([0x03, 0x01, 0x02, 0x03, 0xF7] ++ List.replicate 27 0x00)))
      (fun t => (t.ring 2, t.cksumErr)) = some (⟨0, 0, 0, 0⟩, 0) := by decide

/-! ## Application, configuration, registers (V7) -/

theorem test_init :
    after (exec .init State.reset) (fun t => (t.initialized, t.mode, t.port)) =
      some (true, .receiving,
        [.transportInit, .configure, .ce false, .powerRx, .clearTxFlags, .ce true]) := by decide
theorem test_available : after (exec (.available 2) (withRing 2 10 0 0 10)) lastResult = some (some ⟨.ok, 10, []⟩) := by
  decide
theorem test_available_range : after (exec (.available 6) ready) lastResult = some (some ⟨.rejRange, 0, []⟩) := by
  decide
theorem test_drain_zero :
    after (taskStep { ready with task := .drain 2 0 [] }) (fun t => (t.task, lastResult t)) =
      some (.idle, some ⟨.ok, 0, []⟩) := by decide
theorem test_drain_underrun :
    after (exec (.drain 0 17) (withRing 0 4 4 0 16)) (fun t => (t.ring 0, lastResult t)) =
      some (⟨4, 4, 0, 16⟩, some ⟨.rejUnderrun, 0, []⟩) := by decide
theorem test_drain_last_byte :
    after (taskStep { withRing 2 2 1 0 1 with task := .drain 2 2 [0x30], mem := [(32, 0x30), (33, 0x31)] })
      (fun t => (t.ring 2, t.task, t.results)) = some (⟨2, 2, 0, 0⟩, .drain 2 2 [0x30, 0x31], []) := by decide
theorem test_ckerr_count :
    after (exec .ckerrCount { ready with cksumErr := 1 }) lastResult = some (some ⟨.ok, 1, []⟩) := by decide
theorem test_set_rx_pipe_address :
    after (exec (.setRxPipeAddress 1) (fed ready [0xC2, 0xC2, 0xC2, 0xC2, 0xC2])) State.port =
      some [.setRxAddress 1 [0xC2, 0xC2, 0xC2, 0xC2, 0xC2]] := by decide
theorem test_set_tx_address :
    after (exec .setTxAddress (fed ready [0xE7, 0xE7, 0xE7, 0xE7, 0xE7])) State.port =
      some [.setTxAddress [0xE7, 0xE7, 0xE7, 0xE7, 0xE7]] := by decide
theorem test_set_channel : after (exec (.setChannel 125) ready) State.port = some [.setChannel 125] := by decide
theorem test_set_channel_range :
    after (exec (.setChannel 126) ready) (fun t => (t.port, lastResult t)) = some ([], some ⟨.rejRange, 0, []⟩) := by
  decide
theorem test_enable_pipes : after (exec (.enablePipes 0x07) ready) State.port = some [.enablePipes 0x07] := by decide
theorem test_enable_pipes_range :
    after (exec (.enablePipes 0x40) ready) (fun t => (t.port, lastResult t)) = some ([], some ⟨.rejRange, 0, []⟩) := by
  decide
theorem test_disable_pipes : after (exec (.disablePipes 0x04) ready) State.port = some [.disablePipes 0x04] := by decide
theorem test_reg_write : after (exec (.regWrite 0x05 0x4C) ready) State.port = some [.regWrite 0x05 [0x4C]] := by decide
theorem test_reg_write_range :
    after (exec (.regWrite 0x18 0x00) ready) (fun t => (t.port, lastResult t)) = some ([], some ⟨.rejRange, 0, []⟩) := by
  decide
theorem test_reg_writen :
    after (exec (.regWriteN 0x0A 5) (fed ready [0xE7, 0xE7, 0xE7, 0xE7, 0xE7])) State.port =
      some [.regWrite 0x0A [0xE7, 0xE7, 0xE7, 0xE7, 0xE7]] := by decide
theorem test_reg_read :
    after (exec (.regRead 0x07 1) { ready with env := { Env.silent with regAnswers := [[0x0E]] } })
      (fun t => (t.port, lastResult t)) = some ([.regRead 0x07 1], some ⟨.ok, 0, [0x0E]⟩) := by decide
theorem test_reg_read_range :
    after (exec (.regRead 0x40 2) ready) (fun t => (t.port, (lastResult t).map fun r => (r.code, r.out.length))) =
      some ([], some (.rejRange, 2)) := by decide

/-! ## Steps (P2, P5) -/

theorem test_step_before_init :
    after (step (commanded State.reset 0x05000000 [])) lastResult = some (some ⟨.rejUninit, 0, []⟩) := by decide
theorem test_step_internal_code :
    after (step (commanded State.reset 0x30000000 [])) lastResult = some (some ⟨.rejIllegal, 0, []⟩) := by decide
theorem test_step_pure_before_init :
    after (step (commanded State.reset 0x10000001 [0x41])) lastResult = some (some ⟨.ok, 0xBD, []⟩) := by decide
theorem test_fetch_word_runs_init :
    after (step (State.reset.withFetchWord 32 0x50000000)) State.initialized = some true := by decide
theorem test_fetch_word_runs_dispatch :
    after (step ((answering ready nothing []).withFetchWord 32 0x40000000)) (fun s => s.port.head?) =
      some (some .status) := by decide

/-! ## Witnesses: for every statement with hypotheses, a state and operands that meet all of them together -/

/-- The default parameters are legal (R7). -/
theorem params_default_wf : Params.default.WF := by constructor <;> decide

/-- What is left to check for a state with the default parameters to meet the invariant, apart from its task. -/
abbrev Checks (s : State) : Prop :=
  (∀ p : Pipe, (s.ring p).wr < 16 ∧ (s.ring p).rd < 16 ∧ (s.ring p).pk < 16 ∧ (s.ring p).count ≤ 16 ∧
    (s.ring p).wr = ((s.ring p).rd + (s.ring p).count) % 16) ∧
  Memory.wf s.mem ∧ (∀ x ∈ s.mem, x.1 < 96) ∧ (∀ p : Pipe, ∀ b ∈ contents s p, b ≠ none) ∧
  s.cksumErr < 2 ^ 32 ∧ s.txStart < 2 ^ 32 ∧ s.env.now < 2 ^ 32 ∧ s.txStage = [] ∧ s.rxStage = []

theorem inv_of_checks (s : State) (hp : s.params = Params.default) (h : Checks s) (ht : s.task.Good s) : Inv s where
  params := hp ▸ params_default_wf
  rings p := by
    obtain ⟨h1, h2, h3, h4, h5⟩ := h.1 p
    rw [hp]
    exact ⟨h1, h2, h3, h4, h5⟩
  mem_wf := h.2.1
  mem_in := by rw [hp]; exact h.2.2.1
  written := h.2.2.2.1
  cksum_lt := by rw [hp]; exact h.2.2.2.2.1
  start_lt := by rw [hp]; exact h.2.2.2.2.2.1
  now_lt := by rw [hp]; exact h.2.2.2.2.2.2.1
  tx_empty := h.2.2.2.2.2.2.2.1
  rx_empty := h.2.2.2.2.2.2.2.2
  task_good := ht

/-- Pipe 2 holds two bytes across the end of its array, pipe 5 is full. -/
def holding : State :=
  { (ready.setRing 2 ⟨1, 15, 15, 2⟩).setRing 5 ⟨3, 3, 4, 16⟩ with
    mem := [(32, 0x22), (47, 0x11)] ++ (List.range 16).map fun i => (80 + i, 0x55) }

/-- A state during whose coming steps no edge arrives and the clock stands still. -/
def undisturbed (s : State) : State :=
  { s with env := { s.env with edges := [false, false, false], advances := [0, 0, 0] } }

/-- A DRAIN of both bytes of pipe 2 is running. -/
def draining : State := undisturbed { holding with task := .drain 2 2 [] }

/-- A WRITE of 31 bytes, none of them sent yet, about to push its first fragment. -/
def writing : State := undisturbed { fed ready (List.replicate 31 0x41) with task := .write 31 0 .sending }

/-- An operation waits at the command port of an idle block, with 30 bytes. -/
def opWaits (i : Instr) : State :=
  undisturbed { ready with
    env := { Env.silent with commands := [⟨(encode 16 i).toNat, List.replicate 30 0x41⟩] } }

/-- A WRITE of one full fragment waits, and a WRITE_FRAME of one. -/
def writeWaits : State := opWaits (.write 30)
def writeFrameWaits : State := opWaits (.writeFrame 30)

/-- Pipe 2 of `holding` is about to receive a good frame of three bytes. -/
def receiving3 : State := answering holding (rxOn 2) ([0x03, 0x01, 0x02, 0x03, 0xF6] ++ List.replicate 27 0x00)

/-- Pipe 2 has room for two bytes and is about to receive a good frame of three. -/
def receivingTooMuch : State :=
  answering { ready.setRing 2 ⟨14, 0, 0, 14⟩ with mem := (List.range 14).map fun i => (32 + i, 0x55) } (rxOn 2)
    ([0x03, 0x01, 0x02, 0x03, 0xF6] ++ List.replicate 27 0x00)

/-- A WRITE_FRAME of 3 bytes, waiting while a frame is in flight since time 1000; it is now 1100. -/
def waiting : State :=
  { fed (sendingSince 1000) [0x01, 0x02, 0x03] with
    task := .writeFrame 3 .waiting
    env := { Env.silent with now := 1100, edges := List.replicate 101 false, advances := List.replicate 101 1 } }

theorem inv_ready : Inv ready := inv_of_checks _ rfl (by decide +kernel) rfl
theorem inv_holding : Inv holding := inv_of_checks _ rfl (by decide +kernel) rfl
theorem inv_draining : Inv draining := inv_of_checks _ rfl (by decide +kernel) ⟨rfl, by decide, by decide⟩
theorem inv_writing : Inv writing :=
  inv_of_checks _ rfl (by decide +kernel) ⟨rfl, by decide, by decide, fun _ => ⟨by decide, rfl⟩⟩
theorem inv_waiting : Inv waiting := inv_of_checks _ rfl (by decide +kernel) ⟨rfl, by decide, rfl, nofun⟩

/-- `DecodeOfEncodeIsTheOperation`: operands at the ends of their fields. -/
theorem witness_well_formed :
    Instr.wf 16 (.drain 0 0) = true ∧ Instr.wf 16 (.drain 255 65535) = true ∧ Instr.wf 16 (.rbInsert 255 0xFF) = true := by decide

/-- `DecoderFollowsTheOperationMap`: a word of a row, of the command port and of the interrupt agent. -/
theorem witness_decoded_words :
    decode 16 0x5402FFFF = .ok (.drain 2 65535) ∧ Instr.issuer (.drain 2 65535) = .cmd ∧
    (∃ r ∈ opcodeRows, r.accepts 0x40FFFFFF = true) := by decide

/-- `StepRunsTheDecodedOperation`, `IllegalWordIsRejected`: a command waiting at an idle block, legal or not. -/
theorem witness_command_waits :
    (commanded ready 0x05020000 []).task = .idle ∧ (commanded ready 0x05020000 []).irqPending = false ∧
    (commanded ready 0x05020000 []).env.commands = [⟨0x05020000, []⟩] ∧
    decode ready.params.lenWidth (BitVec.ofNat _ 0x05020000) = .ok (.rbCount 2) ∧
    Instr.issuer (.rbCount 2) = .cmd := by decide
theorem witness_command_beside_edge :
    (commanded { ready with irqPending := true } 0x05020000 []).irqPending = true ∧
    (drawChoice (drawEdge
      { ready with irqPending := true, env := { Env.silent with edges := [true], choices := [false] } }).2).1 = false := by
  decide

theorem witness_illegal_words :
    (∀ i, decode 16 0x70000000 = .ok i → i.issuer ≠ .cmd) ∧ (∀ i, decode 16 0x30000000 = .ok i → i.issuer ≠ .cmd) ∧
    (∀ i, decode 16 0x05020001 = .ok i → i.issuer ≠ .cmd) := by
  refine ⟨fun i h => ?_, fun i h => ?_, fun i h => ?_⟩ <;> cases h
  decide

/-- `PendingEdgeLeavesTheChoiceOpen`, with either choice scripted, and `IdleBlockWaits`. -/
theorem witness_pending_edge (choice : Bool) :
    let s : State :=
      { ready with irqPending := true, env := { Env.silent with edges := [true], choices := [choice] } }
    s.irqPending = true ∧ s.env.edges = true :: [] ∧ s.env.choices = choice :: [] := ⟨rfl, rfl, rfl⟩
theorem witness_idle : ready.task = .idle ∧ ready.irqPending = false ∧ ready.env.commands = [] := by decide

/-- The statements about every step: a step from a good state, of an operation and of a running DRAIN. -/
theorem witness_good_step : Inv writeWaits ∧ ∃ t, step writeWaits = .next t :=
  ⟨inv_of_checks _ rfl (by decide +kernel) rfl, _, rfl⟩
theorem witness_good_step_of_drain : Inv draining ∧ ∃ t, step draining = .next t := ⟨inv_draining, _, rfl⟩

/-- `RadioIsEnabledBetweenSteps`: a block initialised by its last operation. -/
theorem witness_radio_enabled :
    radioEnable [.transportInit, .configure, .ce false, .powerRx, .clearTxFlags, .ce true] = some true ∧
    (State.reset.initialized = true → radioEnable State.reset.port = some true) := by decide

/-- `UnspecifiedRegistersAreNeverObserved`: before INIT in every register, after it in `tx_start`. -/
theorem witness_unspecified_before :
    SameButUnspecified State.reset
      { State.reset with
        rb := Vector.replicate 6 ⟨1, 2, 3, 4⟩, mode := .transmitting, cksumErr := 7, txStart := 9 } :=
  ⟨rfl, fun _ => rfl, nofun, nofun, nofun, nofun⟩
theorem witness_unspecified_after : SameButUnspecified ready { ready with txStart := 9 } :=
  ⟨rfl, nofun, fun _ => rfl, fun _ => rfl, fun _ => rfl, nofun⟩

/-- `UninitialisedBlockRejects`. -/
theorem witness_uninitialised :
    State.reset.initialized = false ∧ Instr.issuer (.regRead 0x40 2) = .cmd ∧ Instr.regRead 0x40 2 ≠ .init ∧
    Instr.isPure (.regRead 0x40 2) = false := by decide

/-- `RejectedOperationChangesNothing`, `OperationsReturnOnlyTheirCodes`. -/
theorem witness_rejected :
    ∃ t, exec (.rbRemove 2) ready = .next t ∧ t.results = ready.results ++ [⟨.rejEmpty, 0, []⟩] ∧
      (⟨.rejEmpty, 0, []⟩ : Result).code ≠ .ok := ⟨_, rfl, rfl, by decide⟩

/-- `OutOfRangePipeIsRejected`: the first index out of range, and the last. -/
theorem witness_pipe_out_of_range : ready.initialized = true ∧ 6 ≤ 6 ∧ 6 ≤ 255 := by decide

/-- `BadOperandIsRejected`: each clause at its boundary. -/
theorem witness_bad_operands :
    ready.initialized = true ∧ 15 ≠ ready.params.capacity ∧ 17 ≠ ready.params.capacity ∧
    ready.params.channelMax < 126 ∧ 64 ≤ (0x40 : Byte).toNat ∧ validReg ready.params 0x18 = false ∧
    validReg ready.params 0x1B = false ∧ validReg ready.params 0x1E = false ∧ ready.params.maxPayload < 31 := by decide

/-- The ring-buffer statements: an insert before the wrap and with one place left, a remove of the last byte, a peek
inside and outside the window, a full and an empty buffer. -/
theorem witness_insert :
    (withRing 2 15 0 0 15).initialized = true ∧
    ((withRing 2 15 0 0 15).ring 2).count ≠ (withRing 2 15 0 0 15).params.capacity ∧
    ((withRing 2 15 0 0 15).ring 2).wr < (withRing 2 15 0 0 15).params.capacity := by decide
theorem witness_remove_and_peek :
    holding.initialized = true ∧ (holding.ring 2).count ≠ 0 ∧ (holding.ring 2).rd < holding.params.capacity ∧
    holding.cell ((2 : Pipe).val * holding.params.capacity + (holding.ring 2).rd) = some 0x11 ∧
    (holding.ring 2).pk < holding.params.capacity ∧ inWindow holding 2 = true ∧
    holding.cell ((2 : Pipe).val * holding.params.capacity + (holding.ring 2).pk) = some 0x11 := by decide
theorem witness_peek_outside :
    (withRing 2 2 0 2 2).initialized = true ∧ ((withRing 2 2 0 2 2).ring 2).count ≠ 0 ∧
    ((withRing 2 2 0 2 2).ring 2).pk < (withRing 2 2 0 2 2).params.capacity ∧
    inWindow (withRing 2 2 0 2 2) 2 = false := by decide
theorem witness_full_and_empty :
    holding.initialized = true ∧ (holding.ring 5).count = holding.params.capacity ∧ (holding.ring 0).count = 0 := by
  decide
theorem witness_other_pipe :
    Inv holding ∧ ringOperand (.rbRemove 2) = some (2 : Pipe).val ∧ (5 : Pipe) ≠ 2 ∧
    ∃ t, exec (.rbRemove 2) holding = .next t := ⟨inv_holding, rfl, by decide, _, rfl⟩
theorem witness_fifo :
    Inv ready ∧ ready.initialized = true ∧ ready.ring 2 = ⟨0, 0, 0, 0⟩ ∧
    ∃ t, execAll ([RingOp.insert 0x41, .remove].map (RingOp.instr (2 : Pipe).val)) ready = .next t ∧
      t.results = ready.results ++ [⟨.ok, 0, []⟩, ⟨.ok, 0x41, []⟩] := ⟨inv_ready, rfl, rfl, _, rfl, rfl⟩
theorem witness_overflow :
    Inv ready ∧ ready.initialized = true ∧ (ready.ring 2).count = 0 ∧
    ready.params.capacity ≤ (List.replicate 16 (0x41 : Byte)).length ∧
    ready.params.capacity ≤ (List.replicate 20 (0x41 : Byte)).length := ⟨inv_ready, by decide⟩

/-- The checksum and framing statements: the empty payload, a full one, and a frame of `F` bytes. -/
theorem witness_checksum :
    ([] : List Byte).length ≤ State.reset.params.maxPayload ∧
    (List.replicate 30 (0xFF : Byte)).length ≤ State.reset.params.maxPayload ∧
    (fed State.reset [0x41, 0xBD]).inStream = [0x41] ++ [0xBD] := by decide
theorem witness_bit_flip : 0 < [(0x41 : Byte)].length ∧ 0 < 8 ∧ 7 < 8 := by decide
theorem witness_frame :
    State.reset.params.WF ∧ (fed State.reset (0x1E :: List.replicate 31 0x00)).inStream = 0x1E :: List.replicate 31 0x00 ∧
    (List.replicate 31 (0x00 : Byte)).length + 1 = State.reset.params.frameSize := ⟨params_default_wf, by decide⟩
theorem witness_pure :
    Instr.isPure (.frSplit 70) = true ∧ State.reset.params = ready.params ∧ State.reset.inStream = ready.inStream := by
  decide

/-- `PollReportsReadiness`: Receiving; Transmitting and one millisecond over the bound; a completion that the poll may
act on; Transmitting exactly at the bound. -/
theorem witness_poll_receiving : ready.initialized = true ∧ ready.mode = .receiving := by decide
theorem witness_poll_over :
    (answering (atTime (sendingSince 1000) 1101) nothing []).mode = .transmitting ∧
    (answering (atTime (sendingSince 1000) 1101) nothing []).params.txTimeout <
      elapsed Params.default (readNow (chipStatus (answering (atTime (sendingSince 1000) 1101) nothing [])).2).1 1000 := by
  decide
theorem witness_poll_completes :
    isTransmit (chipStatus (answering
      { sendingSince 1000 with params := { Params.default with pollCompletesTx := true } } txDone [])).1 = true := by decide
theorem witness_poll_at_bound :
    (answering (atTime (sendingSince 1000) 1100) nothing []).mode = .transmitting ∧
    ¬ ((sendingSince 1000).params.pollCompletesTx = true ∧
      isTransmit (chipStatus (answering (atTime (sendingSince 1000) 1100) nothing [])).1 = true) ∧
    elapsed Params.default (readNow (chipStatus (answering (atTime (sendingSince 1000) 1100) nothing [])).2).1 1000 ≤
      Params.default.txTimeout := by decide

/-- The write path: a first step, a whole write, a running write, a bounded wait. -/
theorem witness_write_begins :
    ready.initialized = true ∧ 0 ≤ ready.params.maxPayload ∧ 30 ≤ ready.params.maxPayload ∧ (65535 : Nat) ≠ 0 := by decide
theorem witness_write_completes (i : Instr) (h : i = .write 30 ∨ i = .writeFrame 30) :
    Inv (opWaits i) ∧ (opWaits i).initialized = true ∧ (opWaits i).task = .idle ∧ (opWaits i).mode = .receiving ∧
    (opWaits i).irqPending = false ∧ (opWaits i).env.edges.take 3 = [false, false, false] ∧
    (List.replicate 30 (0x41 : Byte)).length ≤ (opWaits i).params.maxPayload ∧ List.replicate 30 (0x41 : Byte) ≠ [] ∧
    (List.replicate 30 (0x41 : Byte)).length < 2 ^ (opWaits i).params.lenWidth ∧
    (opWaits i).env.commands = [⟨(encode (opWaits i).params.lenWidth i).toNat, List.replicate 30 0x41⟩] := by
  rcases h with rfl | rfl <;> exact ⟨inv_of_checks _ rfl (by decide +kernel) rfl, by decide⟩
theorem witness_write_runs :
    Inv writing ∧ writing.task = .write 31 0 .sending ∧
    pushedBytes writing.params writing.port = [] ++ writing.inStream.take 0 ∧ ∃ t, step writing = .next t :=
  ⟨inv_writing, rfl, rfl, _, rfl⟩
theorem witness_bounded_wait :
    Inv waiting ∧ waiting.task = .writeFrame 3 .waiting ∧ waiting.irqPending = false ∧ waiting.mode = .transmitting ∧
    elapsed waiting.params waiting.env.now waiting.txStart ≤ waiting.params.txTimeout ∧
    waiting.env.edges = List.replicate (waiting.params.txTimeout + 1) false ∧
    waiting.env.advances.length = waiting.params.txTimeout + 1 ∧
    (∀ d ∈ waiting.env.advances, 1 ≤ d ∧ d ≤ 2 ^ (waiting.params.timeWidth - 1)) := ⟨inv_waiting, by decide⟩
theorem witness_write_returns :
    let s : State := { fed (sendingSince 5) [0x01, 0x02, 0x03] with
      task := .write 3 3 .waiting, port := enterTxEvents (buildFrame Params.default 3 [0x01, 0x02, 0x03]) }
    Inv s ∧ pushedBytes s.params s.port = [] ++ s.inStream.take 3 :=
  ⟨inv_of_checks _ rfl (by decide +kernel) ⟨rfl, by decide, by decide, nofun⟩, by decide⟩
theorem witness_bounded_wait_of_write :
    Inv { waiting with task := .write 3 0 .waiting } ∧ 0 < 3 :=
  ⟨inv_of_checks _ rfl (by decide +kernel) ⟨rfl, by decide, by decide, nofun⟩, by decide⟩
theorem witness_write_path :
    writing.task.isWrite = true ∧ (∃ t, taskStep writing = .next t) ∧
    ∃ t, exec (.write 31) ready = .next t := ⟨rfl, ⟨_, rfl⟩, _, rfl⟩

/-- The dispatch statements: before INIT, each class, an accepted frame that fills its pipe, a bad checksum, a length
byte above `M`, and the timeout checked in the dispatch. -/
theorem witness_dispatch_classes :
    State.reset.initialized = false ∧ isTransmit (chipStatus (answering ready txDone [])).1 = true ∧
    (ready.params.timeoutCheckInIrq = false ∨ ready.mode = .receiving) ∧
    (chipStatus (answering ready (rxOn 6) [])).1 = .rxReady 6 ∧ (chipStatus (answering ready (rxOn 7) [])).1 = .rxReady 7 ∧
    (chipStatus (answering ready nothing [])).1 = .none := by decide
theorem witness_accepted_frame :
    Inv receiving3 ∧ receiving3.initialized = true ∧
    (receiving3.params.timeoutCheckInIrq = false ∨ receiving3.mode = .receiving) ∧
    (chipStatus receiving3).1 = .rxReady (2 : Pipe).val ∧
    (chipReadRxFrame (chipStatus receiving3).2).rxStage =
      0x03 :: ([0x01, 0x02, 0x03, 0xF6] ++ List.replicate 27 0x00) ∧
    (0x03 : Byte).toNat ≤ receiving3.params.maxPayload ∧
    ([0x01, 0x02, 0x03, 0xF6] ++ List.replicate 27 (0x00 : Byte))[3]? =
      some (checksum 3 (([0x01, 0x02, 0x03, 0xF6] ++ List.replicate 27 (0x00 : Byte)).take 3)) :=
  ⟨inv_of_checks _ rfl (by decide +kernel) rfl, by decide⟩
theorem witness_dropped_bytes :
    Inv receivingTooMuch ∧ (chipStatus receivingTooMuch).1 = .rxReady (2 : Pipe).val ∧
    receivingTooMuch.params.capacity - (receivingTooMuch.ring 2).count = 2 ∧
    (chipReadRxFrame (chipStatus receivingTooMuch).2).rxStage =
      0x03 :: ([0x01, 0x02, 0x03, 0xF6] ++ List.replicate 27 0x00) :=
  ⟨inv_of_checks _ rfl (by decide +kernel) rfl, by decide⟩
theorem witness_snapshot_classes :
    (answering ready ⟨false, true, true, 2⟩ []).env.snapshots = [⟨false, true, true, 2⟩] ∧
    (answering ready ⟨true, false, true, 2⟩ []).env.snapshots = [⟨true, false, true, 2⟩] ∧
    (answering ready (rxOn 7) []).env.snapshots = [rxOn 7] := by decide
theorem witness_bad_frames :
    (answering ready (rxOn 2) (0x1F :: List.replicate 31 0x00)).initialized = true ∧
    (chipStatus (answering ready (rxOn 2) (0x1F :: List.replicate 31 0x00))).1 = .rxReady (2 : Pipe).val ∧
    (chipReadRxFrame (chipStatus (answering ready (rxOn 2) (0x1F :: List.replicate 31 0x00))).2).rxStage =
      0x1F :: List.replicate 31 0x00 ∧ ready.params.maxPayload < (0x1F : Byte).toNat ∧
    (chipReadRxFrame (chipStatus (answering ready (rxOn 2) (List.replicate 32 0x00))).2).rxStage =
      0x00 :: List.replicate 31 0x00 ∧
    (List.replicate 31 (0x00 : Byte))[0]? ≠ some (checksum 0 ((List.replicate 31 (0x00 : Byte)).take 0)) := by decide
theorem witness_dispatch_timeout :
    let s := { answering (atTime (sendingSince 1000) 1101) nothing [] with
      params := { Params.default with timeoutCheckInIrq := true } }
    s.initialized = true ∧ s.params.timeoutCheckInIrq = true ∧
    ∃ t, exec .irqDispatch { s with params := { s.params with timeoutCheckInIrq := false } } = .next t ∧
      t.mode = .transmitting ∧ s.params.txTimeout < elapsed s.params (readNow t).1 s.txStart :=
  ⟨rfl, rfl, _, rfl, by decide, by decide⟩
theorem witness_dispatch : Inv receiving3 ∧ ∃ t, exec .irqDispatch receiving3 = .next t :=
  ⟨inv_of_checks _ rfl (by decide +kernel) rfl, _, rfl⟩

/-- The DRAIN statements: one byte too many, none, all of them; a DRAIN that runs, with what it promises. -/
theorem witness_drain_checks :
    holding.initialized = true ∧ (holding.ring 2).count < 3 ∧ 0 ≤ (holding.ring 2).count ∧ 2 ≤ (holding.ring 2).count := by
  decide
theorem witness_drain_runs :
    Inv draining ∧ draining.task = .drain 2 2 [] ∧
    ([] : List Byte).map some ++ (contents draining 2).take (2 - ([] : List Byte).length) = [0x11, 0x22].map some ∧
    draining.irqPending = false ∧
    draining.env.edges = List.replicate (2 - ([] : List Byte).length + 1) false ∧ ∃ t, step draining = .next t :=
  ⟨inv_draining, rfl, by decide, rfl, rfl, _, rfl⟩

/-- The configuration and register-access statements: operands at the ends of their ranges. -/
theorem witness_configuration :
    ready.initialized = true ∧ (fed ready [0xE7, 0xE7, 0xE7, 0xE7, 0xE7]).inStream.length = ready.params.addrLen ∧
    0 ≤ ready.params.channelMax ∧ 125 ≤ ready.params.channelMax ∧ (0x3F : Byte).toNat < 64 ∧
    validReg ready.params 0x00 = true ∧ validReg ready.params 0x17 = true ∧ validReg ready.params 0x1C = true ∧
    validReg ready.params 0x1D = true := by decide

/-- `MemoryHoldsWhatIsWritten`: the last address that exists, and the first that does not. -/
theorem witness_addresses : 95 < 6 * ready.params.capacity ∧ 6 * ready.params.capacity ≤ 96 := by decide

end Sys2Proof.Tests
end

section
/-! The decoder and the operation map, both read through the fields of the word that an operation uses. -/
namespace Sys2Proof

/-- The fields of the command word an operation's row of R83 leaves in use beside `op`. -/
inductive OperandFields where
  /-- Neither: both fields are zero. -/
  | neither
  /-- Field `a`; `n` is zero. -/
  | aOnly
  /-- Field `n`; `a` is zero. -/
  | nOnly
  /-- Field `a` and the byte `n[7:0]`; the rest of `n` is zero. -/
  | aAndByte
  /-- Both fields, or, for the `int` and `irq` codes, fields that are not examined (log 15). -/
  | both

/-- The fields each operation uses (R83). -/
def Instr.operandFields : Instr → OperandFields
  | .frParse | .maPoll | .init | .ckerrCount | .setTxAddress => .neither
  | .rbRemove _ | .rbStartPeek _ | .rbPeek _ | .rbCount _ | .rbIsEmpty _ | .rbIsFull _ | .available _
  | .setRxPipeAddress _ | .setChannel _ | .enablePipes _ | .disablePipes _ => .aOnly
  | .ckCompute _ | .ckVerify _ | .frBuild _ | .frSplit _ | .write _ | .writeFrame _ => .nOnly
  | .rbInsert _ _ | .regWrite _ _ => .aAndByte
  | .rbInit _ _ | .drain _ _ | .regWriteN _ _ | .regRead _ _ | .maEnterTx | .maToRx | .maTimeout | .irqDispatch => .both

/-- The bits that the row marks zero are zero in `w` (R85). -/
def OperandFields.reservedZero {lw : Nat} (w : CommandWord lw) : OperandFields → Bool
  | .neither => aField lw w == 0 && nField lw w == 0
  | .aOnly => nField lw w == 0
  | .nOnly => aField lw w == 0
  | .aAndByte => nIsByte lw w
  | .both => true

/-- The same operation with its operands read from the fields of `w` (R72). -/
def Instr.readFrom {lw : Nat} (w : CommandWord lw) : Instr → Instr
  | .rbInit _ _ => .rbInit (aField lw w).toNat (nField lw w).toNat
  | .rbInsert _ _ => .rbInsert (aField lw w).toNat (nLow lw w)
  | .rbRemove _ => .rbRemove (aField lw w).toNat
  | .rbStartPeek _ => .rbStartPeek (aField lw w).toNat
  | .rbPeek _ => .rbPeek (aField lw w).toNat
  | .rbCount _ => .rbCount (aField lw w).toNat
  | .rbIsEmpty _ => .rbIsEmpty (aField lw w).toNat
  | .rbIsFull _ => .rbIsFull (aField lw w).toNat
  | .ckCompute _ => .ckCompute (nField lw w).toNat
  | .ckVerify _ => .ckVerify (nField lw w).toNat
  | .frBuild _ => .frBuild (nField lw w).toNat
  | .frParse => .frParse
  | .frSplit _ => .frSplit (nField lw w).toNat
  | .maEnterTx => .maEnterTx
  | .maToRx => .maToRx
  | .maPoll => .maPoll
  | .maTimeout => .maTimeout
  | .irqDispatch => .irqDispatch
  | .init => .init
  | .write _ => .write (nField lw w).toNat
  | .writeFrame _ => .writeFrame (nField lw w).toNat
  | .available _ => .available (aField lw w).toNat
  | .drain _ _ => .drain (aField lw w).toNat (nField lw w).toNat
  | .ckerrCount => .ckerrCount
  | .setRxPipeAddress _ => .setRxPipeAddress (aField lw w).toNat
  | .setTxAddress => .setTxAddress
  | .setChannel _ => .setChannel (aField lw w).toNat
  | .enablePipes _ => .enablePipes (aField lw w)
  | .disablePipes _ => .disablePipes (aField lw w)
  | .regWrite _ _ => .regWrite (aField lw w) (nLow lw w)
  | .regWriteN _ _ => .regWriteN (aField lw w) (nField lw w).toNat
  | .regRead _ _ => .regRead (aField lw w) (nField lw w).toNat

variable {lw : Nat}

/-! What the decoder answers -/

/-- What the decoder does with the op code of an operation: it checks the reserved bits, then reads the operands (R72,
R85). -/
theorem decode_eq_whenZero (w : CommandWord lw) (i : Instr) (hop : opField lw w = opField lw (encode lw i)) :
    decode lw w = whenZero (i.operandFields.reservedZero w) (i.readFrom w) := by
  cases i
  all_goals
    rw [encode] at hop
    simp only [decode, hop, assembleA, assembleN, assembleAN, opField_assemble]
    rfl

/-- A word decodes only to an operation with its own op code (R83). -/
theorem opField_of_decode {w : CommandWord lw} {i : Instr} (h : decode lw w = .ok i) :
    opField lw w = opField lw (encode lw i) := by
  apply BitVec.eq_of_toNat_eq
  revert h
  rw [decode]
  split
  case h_33 => simp
  all_goals
    next known =>
      simp only [known, whenZero_eq_ok, Except.ok.injEq, and_imp]
      intros
      subst_vars
      simp [encode, assembleA, assembleN, assembleAN]

/-- A word decodes to an operation exactly if it has the op code, its reserved bits are zero, and the operands are what
its fields hold. -/
theorem decode_eq_ok_iff (w : CommandWord lw) (i : Instr) :
    decode lw w = .ok i ↔
      opField lw w = opField lw (encode lw i) ∧ i.operandFields.reservedZero w = true ∧ i.readFrom w = i := by
  refine ⟨fun h => ?_, fun ⟨hop, h⟩ => by rwa [decode_eq_whenZero w i hop, whenZero_eq_ok]⟩
  have hop := opField_of_decode h
  rw [decode_eq_whenZero w i hop, whenZero_eq_ok] at h
  exact ⟨hop, h⟩

/-! The word of an operation -/

/-- The word of an operation leaves its reserved bits zero (R85). -/
theorem reservedZero_encode (i : Instr) : i.operandFields.reservedZero (encode lw i) = true := by
  cases i <;>
    simp [Instr.operandFields, OperandFields.reservedZero, encode, assembleA, assembleN, nIsByte_assemble_byte]

/-- A number that fits the field `a` is read back from it. -/
theorem toNat_ofNat_of_fitsA {x : Nat} (h : fitsA x = true) : (BitVec.ofNat 8 x).toNat = x := by
  rw [BitVec.toNat_ofNat, Nat.mod_eq_of_lt ((fitsA_iff x).1 h)]

/-- A number that fits the field `n` is read back from it. -/
theorem toNat_ofNat_of_fitsN {x : Nat} (h : fitsN lw x = true) : (BitVec.ofNat lw x).toNat = x := by
  rw [BitVec.toNat_ofNat, Nat.mod_eq_of_lt ((fitsN_iff lw x).1 h)]

/-- A byte that fits the field `n` is read back from it. -/
theorem nLow_assemble_of_fitsN (op a b : BitVec 8) (h : fitsN lw b.toNat = true) :
    nLow lw (assemble lw op a (b.setWidth lw)) = b :=
  nLow_assemble_byte op a b ((fitsN_iff lw _).1 h)

/-- The operands of a well-formed operation are read back from its word (R72). -/
theorem readFrom_encode (i : Instr) (h : i.wf lw = true) : i.readFrom (encode lw i) = i := by
  cases i
  all_goals
    simp only [Instr.wf, Bool.and_eq_true] at h
    simp only [Instr.readFrom, encode, assembleA, assembleN, assembleAN, aField_assemble, nField_assemble,
      toNat_ofNat_of_fitsA, toNat_ofNat_of_fitsN, nLow_assemble_of_fitsN, h]

/-- Settles O1: the word of an operation has its op code, its reserved bits zero, and its operands in its fields. -/
theorem decodeOfEncodeIsTheOperation : Obligations.DecodeOfEncodeIsTheOperation := fun _ i h =>
  (decode_eq_ok_iff _ i).2 ⟨rfl, reservedZero_encode i, readFrom_encode i h⟩

/-! The fields of a word -/

/-- The byte operand fits the field `n` it is read from. -/
theorem nLow_toNat_lt (w : CommandWord lw) : (nLow lw w).toNat < 2 ^ lw :=
  lt_of_le_of_lt (by simpa [nLow] using Nat.mod_le _ _) (nField lw w).isLt

/-- What the fields of a word hold fits them (R71). -/
theorem wf_readFrom (w : CommandWord lw) (i : Instr) : (i.readFrom w).wf lw = true := by
  have ha : fitsA (aField lw w).toNat = true := (fitsA_iff _).2 (aField lw w).isLt
  have hn : fitsN lw (nField lw w).toNat = true := (fitsN_iff _ _).2 (nField lw w).isLt
  have hb : fitsN lw (nLow lw w).toNat = true := (fitsN_iff _ _).2 (nLow_toNat_lt w)
  cases i <;> simp only [Instr.readFrom, Instr.wf, ha, hn, hb, Bool.and_self]

/-- Other operands do not make it another operation. -/
theorem mnemonic_readFrom (w : CommandWord lw) (i : Instr) : (i.readFrom w).mnemonic = i.mnemonic := by
  cases i <;> rfl

/-- A word with the op code of a command-port operation and its reserved bits zero is the word of that operation with
the operands read from it (R85, R86). -/
theorem encode_readFrom (w : CommandWord lw) (i : Instr) (hop : opField lw w = opField lw (encode lw i))
    (hz : i.operandFields.reservedZero w = true) (hi : i.issuer = .cmd) : encode lw (i.readFrom w) = w := by
  conv_rhs => rw [← assemble_fields w, hop]
  cases i <;> simp [Instr.operandFields, OperandFields.reservedZero, Instr.issuer] at hz hi
  all_goals simp [encode, assembleA, assembleN, assembleAN, Instr.readFrom, hz, ← nField_of_nIsByte]

/-! The rows of the operation map -/

/-- The mask of an operation that uses these fields: `op` and the reserved bits (R83). -/
def OperandFields.mask : OperandFields → CommandWord 16
  | .neither => assemble 16 0xFF 0xFF 0xFFFF
  | .aOnly => assemble 16 0xFF 0 0xFFFF
  | .nOnly => assemble 16 0xFF 0xFF 0
  | .aAndByte => assemble 16 0xFF 0 0xFF00
  | .both => assemble 16 0xFF 0 0

/-- The row of the operation map for an operation. -/
def Instr.row (i : Instr) : OpcodeRow :=
  ⟨i.mnemonic, assemble 16 (opField 16 (encode 16 i)) 0 0, i.operandFields.mask⟩

/-- The operation map has a row for every operation. -/
theorem row_mem_opcodeRows (i : Instr) : i.row ∈ opcodeRows := by
  cases i
  all_goals
    simp only [Instr.row, Instr.mnemonic, Instr.operandFields, encode, assembleA, assembleN, assembleAN,
      opField_assemble]
    decide

/-- Each row of the operation map is the row of an operation, the one its pattern decodes to. -/
theorem exists_row_eq {r : OpcodeRow} (h : r ∈ opcodeRows) : ∃ i : Instr, i.row = r := by
  have hr : ∀ r ∈ opcodeRows, (decode 16 r.pattern).toOption.map Instr.row = some r := by decide
  obtain ⟨i, -, hi⟩ := Option.map_eq_some_iff.1 (hr r h)
  exact ⟨i, hi⟩

/-- The bits `n[15:8]` are zero exactly if `n` is a byte (R72). -/
theorem and_highByte_eq_zero_iff (n : BitVec 16) : n &&& 0xFF00#16 = 0#16 ↔ n.toNat < 2 ^ 8 := by
  constructor <;> intro h
  · have split : n = n &&& 0xFF00#16 ||| n &&& 0xFF#16 := by
      rw [← BitVec.and_or_distrib_left]
      exact (BitVec.and_allOnes (x := n)).symm
    rw [split, h, BitVec.zero_or, BitVec.toNat_and]
    exact Nat.lt_succ_of_le Nat.and_le_right
  · have hn : n = (n.setWidth 8).setWidth 16 := by bv_omega
    rw [hn]
    exact Laws.byte_and_high _

/-- The row of an operation accepts the words with its op code and its reserved bits zero (R83, R85). -/
theorem row_accepts_iff (i : Instr) (w : CommandWord 16) :
    i.row.accepts w = true ↔
      opField 16 w = opField 16 (encode 16 i) ∧ i.operandFields.reservedZero w = true := by
  have byte_mask (x : BitVec 8) : x &&& 0xFF#8 = x := BitVec.and_allOnes
  have word_mask (x : BitVec 16) : x &&& 0xFFFF#16 = x := BitVec.and_allOnes
  rw [Instr.row]
  cases i.operandFields <;>
    simp [OperandFields.mask, OperandFields.reservedZero, accepts_assemble_iff, byte_mask, word_mask, nIsByte,
      and_highByte_eq_zero_iff]

/-- Settles O2: the decoder and the rows of the operation map ask the same of a word, its op code and its reserved
bits; and what a word's fields hold gives the word back. -/
theorem decoderFollowsTheOperationMap : Obligations.DecoderFollowsTheOperationMap := by
  refine ⟨fun w => ⟨fun i h => ?_, fun r hr h => ?_⟩, fun lw w i h => ?_⟩
  · obtain ⟨hop, hz, -⟩ := (decode_eq_ok_iff w i).1 h
    exact ⟨i.row, row_mem_opcodeRows i, (row_accepts_iff i w).2 ⟨hop, hz⟩, rfl⟩
  · obtain ⟨i, rfl⟩ := exists_row_eq hr
    obtain ⟨hop, hz⟩ := (row_accepts_iff i w).1 h
    exact ⟨i.readFrom w, by rw [decode_eq_whenZero w i hop, hz]; rfl, mnemonic_readFrom w i⟩
  · obtain ⟨hop, hz, hi⟩ := (decode_eq_ok_iff w i).1 h
    rw [← hi]
    exact ⟨wf_readFrom w i, fun hc => encode_readFrom w i hop hz (by rwa [hi] at hc)⟩

end Sys2Proof
end

section
/-! What every step keeps: the parameters, what was put out so far, and `initialized`. -/
namespace Sys2Proof.Machine

/-- From `s` to `t` the parameters are the same (R10), nothing put out is taken back (R16) and the block stays
initialised (R31). -/
structure Grows (s t : State) : Prop where
  params : t.params = s.params
  results : s.results <+: t.results
  port : s.port <+: t.port
  initialized : s.initialized = true → t.initialized = true

theorem Grows.trans {s t u : State} (h : Grows s t) (g : Grows t u) : Grows s u :=
  ⟨g.params.trans h.params, h.results.trans g.results, h.port.trans g.port, g.initialized ∘ h.initialized⟩

/-- A quiet part of a step only appends to the port history. -/
theorem Quiet.grows {s t : State} (h : Quiet s t) : Grows s t := by
  obtain ⟨es, hes, -, -⟩ := h.port
  exact ⟨h.params, h.results ▸ List.prefix_rfl, hes ▸ List.prefix_append _ _, h.initialized⟩

/-- Inputs and draws are no outputs. -/
theorem SameMachine.grows {s t : State} (h : SameMachine s t) : Grows s t := by
  rw [h.frame]
  exact ⟨rfl, List.prefix_rfl, List.prefix_rfl, id⟩

theorem Grows.accepted (s : State) (c : Command) (rest : List Command) (i : Instr) :
    Grows s (Machine.accepted s c rest i) :=
  ⟨rfl, List.prefix_rfl, List.prefix_rfl, id⟩

theorem Grows.latchEdge (edge : Bool) (s : State) : Grows s (Machine.latchEdge edge s) :=
  ⟨rfl, List.prefix_rfl, List.prefix_rfl, id⟩

theorem Grows.setTask (s : State) (task : Task) : Grows s (s.setTask task) :=
  ⟨rfl, List.prefix_rfl, List.prefix_rfl, id⟩

theorem Grows.finish (s : State) (r : Result) : Grows s (Machine.finish s r) :=
  ⟨rfl, List.prefix_append _ _, List.prefix_rfl, id⟩

theorem Grows.enterTx (s : State) : Grows s (Machine.enterTx s) :=
  ⟨rfl, List.prefix_rfl, List.prefix_append _ _, id⟩

theorem Grows.pushFrame (s : State) (payload : List Byte) : Grows s (Machine.pushFrame s payload) :=
  ⟨rfl, List.prefix_rfl, List.prefix_append _ _, id⟩

/-- Every operation only appends: one that returns does something quiet and then returns its result; the first step of
any other is quiet, or enters Transmitting, and may set the task. -/
theorem Grows.exec {i : Instr} {s t : State} (h : Machine.exec i s = .next t) : Grows s t := by
  rcases exec_cases h with ⟨u, r, he, rfl, -, -⟩ | hf
  · exact he.quiet.grows.trans (.finish u r)
  · cases hf with
    | enterTx => exact .enterTx s
    | toRx => exact (Quiet.toRx s).grows
    | timeout => exact (Quiet.toRx s).grows
    | discarded => exact (Quiet.irqDispatch h).grows
    | dispatch => exact (Quiet.irqDispatch h).grows
    | drain => exact .setTask s _
    | writeFrame => exact (Quiet.poll s).grows.trans (.setTask _ _)
    | write => exact (Quiet.poll s).grows.trans (.setTask _ _)

/-- A step of a running DRAIN removes a byte or returns (R189). -/
theorem Grows.stepDrain {q : Pipe} {count : Nat} {out : List Byte} {s t : State}
    (h : Machine.stepDrain q count out s = .next t) : Grows s t := by
  rw [Machine.stepDrain] at h
  split at h
  · split at h
    · cases h
      exact .setTask s _
    · obtain ⟨⟨b, u⟩, hu, h⟩ := andThen_cases h
      cases h
      exact (Quiet.removeByte hu).grows.trans (.setTask u _)
  · cases h
    exact .finish s _

/-- Every step of the task agent only appends. -/
theorem Grows.taskStep {s t : State} (h : Machine.taskStep s = .next t) : Grows s t := by
  cases taskStep_cases h with
  | idle => exact (Quiet.refl s).grows
  | illegal => exact ⟨rfl, List.prefix_append _ _, List.prefix_rfl, id⟩
  | command c rest i _ _ _ _ _ h => exact (Grows.accepted s c rest i).trans (.exec h)
  | drain _ _ _ _ _ _ h => exact .stepDrain h
  | drained => exact .finish s _
  | pollFrame => exact (Quiet.poll s).grows.trans (.setTask _ _)
  | pollWrite => exact (Quiet.poll s).grows.trans (.setTask _ _)
  | pushFrame => exact (Grows.pushFrame s _).trans (.finish _ _)
  | pushFragment => exact (Grows.pushFrame s _).trans (.setTask _ _)
  | written => exact .finish s _

/-- Every step, of either agent, only appends. -/
theorem Grows.step {s t : State} (h : Machine.step s = .next t) : Grows s t := by
  obtain ⟨s₀, u, hs, rfl, ⟨-, h⟩ | h⟩ := step_cases h
  · exact (hs.grows.trans (.exec h)).trans (.latchEdge _ u)
  · exact (hs.grows.trans (.taskStep h)).trans (.latchEdge _ u)

/-- Settles O11: every step keeps the parameters (`Grows.step`). -/
theorem parametersNeverChange : Obligations.ParametersNeverChange := fun _ _ h => (Grows.step h).params

/-- Settles O12: every step appends to the outputs and keeps `initialized` (`Grows.step`). -/
theorem outputsOnlyGrow : Obligations.OutputsOnlyGrow := fun _ _ h =>
  have g := Grows.step h
  ⟨g.results, g.port, g.initialized⟩

end Sys2Proof.Machine
end

section
/-! Space RB: the addresses that do not exist, and the law of reading after writing. -/
namespace Sys2Proof.Machine

/-- A write to an address that does not exist faults (R52; log 11). -/
theorem memWrite_of_le (s : State) (a : Nat) (b : Byte) (h : numPipes * s.params.capacity ≤ a) :
    memWrite s a b = .fault (.noSuchAddress a) := by
  simp [memWrite, addrExists, h]

/-- A read of an address that does not exist faults (R52; log 11). -/
theorem memRead_of_le (s : State) (a : Nat) (h : numPipes * s.params.capacity ≤ a) :
    memRead s a = .fault (.noSuchAddress a) := by
  simp [memRead, addrExists, h]

/-- Settles O60: a store is read back at its own address only, and other addresses do not exist. -/
theorem memoryHoldsWhatIsWritten : Obligations.MemoryHoldsWhatIsWritten := fun s a b =>
  ⟨fun h => ⟨_, memWrite_of_lt s a b h, lookup_store_self s.mem a b, fun a' => lookup_store_of_ne s.mem a a' b,
      store_wf s.mem a b, rfl⟩,
    fun h => ⟨memWrite_of_le s a b h, memRead_of_le s a h⟩⟩

end Sys2Proof.Machine
end

section
/-! The invariant: the power-on state meets it, and every step keeps it. -/
namespace Sys2Proof.Machine

/-- Settles O8: at power-on every register is zero, no cell is written and nothing runs. -/
theorem resetMeetsTheInvariant : Obligations.ResetMeetsTheInvariant := by
  have hz (p : Pipe) : State.reset.ring p = RingBuffer.zero := by simp [State.ring, State.reset]
  exact {
    params := by constructor <;> decide
    rings := fun p => by rw [hz p]; exact .zero (by decide)
    mem_wf := .nil
    mem_in := by simp [State.reset]
    written := fun p => by simp [contents, hz p, RingBuffer.zero]
    cksum_lt := by decide
    start_lt := by decide
    now_lt := by decide
    tx_empty := rfl
    rx_empty := rfl
    task_good := rfl }

/-! What a running operation relies on -/

/-- What a running operation relies on still holds after a quiet part of a step that takes no byte away. -/
theorem Task.Good.of_quiet {s t : State} {task : Task} (h : task.Good s) (q : Quiet s t)
    (hc : ∀ p, (s.ring p).count ≤ (t.ring p).count) : task.Good t := by
  have hm : s.mode = .receiving → t.mode = .receiving := fun hs => by rcases q.mode with e | e <;> simp [e, hs]
  cases task with
  | idle => exact q.inStream.trans h
  | drain p count out =>
    obtain ⟨hi, hl, hr⟩ := h
    exact ⟨q.initialized hi, hl, hr.trans (hc p)⟩
  | writeFrame len phase =>
    obtain ⟨hi, hl, hs, hp⟩ := h
    exact ⟨q.initialized hi, q.params ▸ hl, q.inStream ▸ hs, hm ∘ hp⟩
  | write len k phase =>
    obtain ⟨hi, hl, hs, hp⟩ := h
    exact ⟨q.initialized hi, hl, q.inStream ▸ hs, fun e => ⟨(hp e).1, hm (hp e).2⟩⟩

/-- After a poll the write path goes on to push only in Receiving (R153). -/
theorem mode_of_phaseAfter_poll {s : State} (h : phaseAfter (poll s).1 = .sending) : (poll s).2.mode = .receiving := by
  rw [phaseAfter_poll] at h
  by_contra hm
  simp [hm] at h

/-! The parts of a step -/

/-- A task agent that returned a result relies on nothing. -/
theorem Sound.inv_finish {s : State} (h : Sound s) (tx : s.txStage = []) (rx : s.rxStage = []) (r : Result) :
    Inv (Machine.finish s r) :=
  (h.finish r).inv tx rx rfl

/-- What an operation that returns at once leaves is good. -/
theorem Sound.inv_returns {i : Instr} {s t : State} (h : Sound s) (tx : s.txStage = []) (rx : s.rxStage = [])
    (hr : Returns i s t) : Inv t := by
  obtain ⟨u, r, he, rfl, -, -⟩ := hr
  exact (h.opEffect he).inv_finish (he.quiet.txStage.trans tx) (he.quiet.rxStage rx) r

/-- A poll keeps the good state good, whatever operation it is part of. -/
theorem Sound.inv_poll {s : State} (h : Sound s) (tx : s.txStage = []) (rx : s.rxStage = []) (task : Task)
    (hg : task.Good (Machine.poll s).2) : Inv ((Machine.poll s).2.setTask task) :=
  have f := poll_frame s
  (h.poll.setTask task).inv (f.txStage.trans tx) (f.rxStage.trans rx) (by cases task <;> exact hg)

/-- A command-port operation that begins in a sound state leaves a good one: its input stream has the length that its
rule says (R73). -/
theorem Sound.inv_exec {i : Instr} {s t : State} (h : Sound s) (tx : s.txStage = []) (rx : s.rxStage = [])
    (hlen : s.inStream.length = inBytes s.params i) (hi : i.issuer = .cmd) (he : exec i s = .next t) : Inv t := by
  have f := poll_frame s
  rcases exec_cases he with hr | hf
  · exact h.inv_returns tx rx hr
  · cases hf with
    | enterTx | toRx | timeout | discarded | dispatch => cases hi
    | drain _ q count hi hc => exact (h.setTask _).inv tx rx ⟨hi, Nat.zero_le _, hc⟩
    | writeFrame _ len hi hl =>
      exact h.inv_poll tx rx _ ⟨f.initialized.trans hi, f.params ▸ hl, f.inStream ▸ hlen, mode_of_phaseAfter_poll⟩
    | write _ len hi hl =>
      exact h.inv_poll tx rx _ ⟨f.initialized.trans hi, Nat.zero_le _, f.inStream ▸ hlen,
        fun e => ⟨Nat.pos_of_ne_zero hl, mode_of_phaseAfter_poll e⟩⟩

/-- The push of a frame keeps a sound state sound (R140, R152). -/
theorem Sound.pushFrame {s : State} (h : Sound s) (payload : List Byte) : Sound (Machine.pushFrame s payload) :=
  Sound.enterTx (h.congr rfl rfl rfl h.cksum_lt h.start_lt h.now_lt)

/-- Inputs and draws do not matter to the invariant. -/
theorem SameMachine.inv {s t : State} (h : SameMachine s t) (hs : Inv s) : Inv t := by
  have f := h.frame
  refine (h.sound hs.sound).inv (f ▸ hs.tx_empty) (f ▸ hs.rx_empty) ?_
  have hg := hs.task_good
  rw [f]
  revert hg
  cases s.task <;> exact id

/-- An edge that is latched does not matter to the invariant. -/
theorem Inv.latchEdge {s : State} (h : Inv s) (edge : Bool) : Inv (Machine.latchEdge edge s) :=
  (h.sound.latchEdge edge).inv h.tx_empty h.rx_empty
    (h.task_good.of_quiet (.of_eq rfl rfl rfl rfl rfl id id (.inl rfl) rfl rfl) fun _ => Nat.le_refl _)

/-! A dispatch -/

/-- A dispatch past its Status read takes no byte away from a sound state: it admits bytes, or leaves every ring buffer
as it is (R175). -/
theorem Sound.count_le_dispatchCase {c : Status} {s t : State} (h : Sound s) (hd : Machine.dispatchCase c s = .next t)
    (p : Pipe) : (s.ring p).count ≤ (t.ring p).count := by
  rcases dispatchCase_cases hd with rfl | rfl | ⟨q, payload, ha⟩ | rfl | rfl
  case inr.inr.inl =>
    obtain ⟨u, hu, a⟩ := h.frameRead.admitBytes q payload
    rw [ha] at hu
    cases hu
    by_cases hp : p = q
    · subst hp
      rw [a.count]
      exact Nat.le_add_right _ _
    · rw [a.ring p hp]
      exact Nat.le_refl _
  all_goals exact Nat.le_refl _

/-- A dispatch keeps the invariant: it is quiet, and takes no byte away. -/
theorem Inv.irqDispatch {s t : State} (h : Inv s) (he : exec .irqDispatch s = .next t) : Inv t := by
  have q := Quiet.irqDispatch he
  suffices hs : Sound t ∧ ∀ p, (s.ring p).count ≤ (t.ring p).count from
    hs.1.inv (q.txStage.trans h.tx_empty) (q.rxStage h.rx_empty) (q.task ▸ h.task_good.of_quiet q hs.2)
  rcases exec_cases he with ⟨u, r, -, -, hr, -⟩ | hf
  · simp [possibleCodes] at hr
  · cases hf with
    | discarded => exact ⟨h.sound.clearPending, fun _ => Nat.le_refl _⟩
    | dispatch _ u _ hd =>
      have hs := h.sound.clearPending.chipStatus
      obtain ⟨v, hv, hsv⟩ := hs.dispatchCase (chipStatus (clearPending s)).1
      rw [hd] at hv
      cases hv
      refine ⟨hsv.dispatchTimeout, fun p => ?_⟩
      obtain ⟨-, hrb, -⟩ := dispatchTimeout_frame u
      rw [State.ring, State.ring, hrb]
      exact hs.count_le_dispatchCase hd p

/-! A step of the task agent -/

/-- One more byte of a DRAIN keeps the invariant (R189). -/
theorem Inv.stepDrain {s t : State} {q : Pipe} {count : Nat} {out : List Byte} (h : Inv s)
    (ht : s.task = .drain q count out) (hlt : out.length < count) (he : Machine.stepDrain q count out s = .next t) :
    Inv t := by
  have hg := h.task_good
  rw [ht] at hg
  obtain ⟨hi, hl, hr⟩ := hg
  obtain ⟨b, -, hs, hb⟩ := h.sound.stepDrain hlt hr
  rw [hb] at he
  cases he
  refine (hs.setTask _).inv h.tx_empty h.rx_empty ⟨hi, ?_, ?_⟩
  · simpa using hlt
  · simp [removed]
    omega

/-- A step of the task agent keeps the invariant. -/
theorem Inv.taskStep {s t : State} (h : Inv s) (he : Machine.taskStep s = .next t) : Inv t := by
  have tx := h.tx_empty
  have rx := h.rx_empty
  have hg := h.task_good
  have f := poll_frame s
  cases taskStep_cases he with
  | idle => exact h
  | illegal c rest =>
    have hs : Sound { s with env := { s.env with commands := rest } } :=
      h.sound.congr rfl rfl rfl h.cksum_lt h.start_lt h.now_lt
    exact hs.inv_finish tx rx _
  | command c rest i _ _ _ _ hi he =>
    have hs : Sound (accepted s c rest i) := h.sound.congr rfl rfl rfl h.cksum_lt h.start_lt h.now_lt
    exact hs.inv_exec tx rx (length_fit _ _ _) hi he
  | drain q count out _ ht hlt he => exact h.stepDrain ht hlt he
  | drained | written => exact h.sound.inv_finish tx rx _
  | pollFrame len ht =>
    rw [ht] at hg
    obtain ⟨hi, hl, hs, -⟩ := hg
    exact h.sound.inv_poll tx rx _ ⟨f.initialized.trans hi, f.params ▸ hl, f.inStream ▸ hs, mode_of_phaseAfter_poll⟩
  | pollWrite len k ht hk =>
    rw [ht] at hg
    obtain ⟨hi, hl, hs, -⟩ := hg
    exact h.sound.inv_poll tx rx _ ⟨f.initialized.trans hi, hl, f.inStream ▸ hs, fun e => ⟨hk, mode_of_phaseAfter_poll e⟩⟩
  | pushFrame len ht => exact (h.sound.pushFrame _).inv_finish rfl rx _
  | pushFragment len k ht =>
    rw [ht] at hg
    obtain ⟨hi, hl, hs, hp⟩ := hg
    refine ((h.sound.pushFrame _).setTask _).inv rfl rx ⟨hi, ?_, hs, nofun⟩
    simp only [fragmentAt]
    omega

/-- Settles O9: a step is a dispatch or a step of the task agent, and each keeps the invariant. -/
theorem stepKeepsTheInvariant : Obligations.StepKeepsTheInvariant := fun _ _ h hs => by
  obtain ⟨s₀, u, hs₀, rfl, ⟨-, hu⟩ | hu⟩ := step_cases hs
  · exact ((hs₀.inv h).irqDispatch hu).latchEdge _
  · exact ((hs₀.inv h).taskStep hu).latchEdge _

end Sys2Proof.Machine
end

section
/-! The registers without a power-on value are never observed. Two machines that differ only there take the same steps:
an initialised block differs at most in `tx_start`, and in Receiving nothing reads it; a block that is not initialised
only rejects, runs the pure operations, or is initialised. -/
namespace Sys2Proof.Machine

/-! Parts of a step that answer alike -/

/-- Where `x` answers, `y` answers too, and the answers are related. -/
def Simulated {α : Type} (R : α → α → Prop) (x y : Outcome α) : Prop :=
  ∀ a, x = .next a → ∃ b, y = .next b ∧ R a b

section
variable {α β : Type} {R : α → α → Prop} {Q : β → β → Prop} {x y u v : Outcome α}

theorem Simulated.next {a b : α} (h : R a b) : Simulated R (.next a) (.next b) := fun c hc => by
  cases hc
  exact ⟨b, rfl, h⟩

theorem Simulated.fault (r : Fault) (y : Outcome α) : Simulated R (.fault r) y := nofun

theorem Simulated.mono {R' : α → α → Prop} (h : Simulated R x y) (hr : ∀ a b, R a b → R' a b) : Simulated R' x y :=
  fun a ha => (h a ha).imp fun b hb => ⟨hb.1, hr a b hb.2⟩

theorem Simulated.andThen {f g : α → Outcome β} (h : Simulated R x y) (hf : ∀ a b, R a b → Simulated Q (f a) (g b)) :
    Simulated Q (Machine.andThen x f) (Machine.andThen y g) := fun c hc => by
  obtain ⟨a, hx, hc⟩ := andThen_cases hc
  obtain ⟨b, rfl, hab⟩ := h a hx
  exact hf a b hab c hc

theorem Simulated.ite {c : Prop} [Decidable c] (h : Simulated R x y) (g : Simulated R u v) :
    Simulated R (if c then x else u) (if c then y else v) := by
  split
  · exact h
  · exact g

end

/-! An initialised block: `tx_start` while Receiving -/

/-- The same machine with another value in `tx_start`. -/
def State.withStart (s : State) (n : Nat) : State := { s with txStart := n }

/-- Two initialised machines that differ at most in `tx_start`, and in that only while Receiving (R34). -/
inductive SameButStart (s : State) : State → Prop where
  | withStart (n : Nat) (hi : s.initialized = true) (hs : s.mode = .transmitting → n = s.txStart) :
    SameButStart s (s.withStart n)

/-- The same byte, and two such machines. -/
inductive SameByte : Byte × State → Byte × State → Prop where
  | intro (b : Byte) {s t : State} (h : SameButStart s t) : SameByte (b, s) (b, t)

theorem SameButStart.refl {s : State} (hi : s.initialized = true) : SameButStart s s :=
  .withStart s.txStart hi fun _ => rfl

theorem SameButStart.initialized {s t : State} (h : SameButStart s t) : s.initialized = true := by
  obtain ⟨n, hi, -⟩ := h
  exact hi

/-- The machines differ in Receiving only. -/
theorem SameButStart.receiving_or_eq {s t : State} (h : SameButStart s t) : s.mode = .receiving ∨ t = s := by
  obtain ⟨n, -, hs⟩ := h
  cases hm : s.mode with
  | receiving => exact .inl rfl
  | transmitting => exact .inr (by rw [hs hm]; rfl)

section
variable {s t : State}

theorem SameButStart.finish (h : SameButStart s t) (r : Result) : SameButStart (Machine.finish s r) (Machine.finish t r) := by
  obtain ⟨n, hi, hs⟩ := h
  exact .withStart n hi hs

theorem SameButStart.setTask (h : SameButStart s t) (task : Task) : SameButStart (s.setTask task) (t.setTask task) := by
  obtain ⟨n, hi, hs⟩ := h
  exact .withStart n hi hs

theorem SameButStart.complete (h : SameButStart s t) (v : Nat) (out : List Byte) :
    Simulated SameButStart (Machine.complete s v out) (Machine.complete t v out) := .next (h.finish _)

theorem SameButStart.reject (h : SameButStart s t) (code : Code) :
    Simulated SameButStart (Machine.reject s code) (Machine.reject t code) := .next (h.finish _)

/-- Check (2) of R92 passes. -/
theorem SameButStart.whenInitialized (h : SameButStart s t) {k k' : Outcome State} (hk : Simulated SameButStart k k') :
    Simulated SameButStart (Machine.whenInitialized s k) (Machine.whenInitialized t k') := by
  obtain ⟨n, hi, -⟩ := h
  have hi' : (s.withStart n).initialized = true := hi
  simpa only [Machine.whenInitialized, hi, hi', if_true] using hk

/-- An operation of one pipe: its checks see the same. -/
theorem SameButStart.withPipe (h : SameButStart s t) {p : Nat} {k k' : Pipe → Outcome State}
    (hk : ∀ q, Simulated SameButStart (k q) (k' q)) :
    Simulated SameButStart (Machine.whenInitialized s (Machine.withPipe s p k))
      (Machine.whenInitialized t (Machine.withPipe t p k')) := by
  refine h.whenInitialized ?_
  unfold Machine.withPipe
  cases pipeOf p with
  | none => exact h.reject _
  | some q => exact hk q

theorem SameButStart.memWrite (h : SameButStart s t) (a : Nat) (b : Byte) :
    Simulated SameButStart (Machine.memWrite s a b) (Machine.memWrite t a b) := by
  obtain ⟨n, hi, hs⟩ := h
  exact .ite (.next (.withStart n hi hs)) (.fault _ _)

theorem SameButStart.drawCell (h : SameButStart s t) (cell : Option Byte) :
    SameByte (Machine.drawCell cell s) (Machine.drawCell cell t) := by
  obtain ⟨n, hi, hs⟩ := h
  cases cell with
  | none => exact .intro _ (.withStart n hi hs)
  | some b => exact .intro b (.withStart n hi hs)

theorem SameButStart.memRead (h : SameButStart s t) (a : Nat) :
    Simulated SameByte (Machine.memRead s a) (Machine.memRead t a) := by
  have hd := h.drawCell (s.cell a)
  obtain ⟨n, -, -⟩ := h
  exact .ite (.next hd) (.fault _ _)

theorem SameButStart.insertByte (h : SameButStart s t) (q : Pipe) (b : Byte) :
    Simulated SameButStart (Machine.insertByte s q b) (Machine.insertByte t q b) := by
  have hw := h.memWrite (flatAddr s.params q (s.ring q).wr) b
  obtain ⟨n, -, -⟩ := h
  refine hw.andThen ?_
  rintro u _ ⟨m, hi, hs⟩
  exact .next (.withStart m hi hs)

theorem SameButStart.removeByte (h : SameButStart s t) (q : Pipe) :
    Simulated SameByte (Machine.removeByte s q) (Machine.removeByte t q) := by
  have hr := h.memRead (flatAddr s.params q (s.ring q).rd)
  obtain ⟨n, -, -⟩ := h
  refine hr.andThen ?_
  rintro _ _ ⟨b, ⟨m, hi, hs⟩⟩
  exact .next (.intro b (.withStart m hi hs))

theorem SameByte.ite {a b c d : Byte × State} (h : SameByte a b) (p : Prop) [Decidable p] (g : SameByte c d) :
    SameByte (if p then a else c) (if p then b else d) := by
  split
  · exact h
  · exact g

theorem SameByte.advancePeek {a b : Byte × State} (h : SameByte a b) (q : Pipe) :
    SameByte (a.1, a.2.setRing q { a.2.ring q with pk := advance a.2.params.capacity (a.2.ring q).pk })
      (b.1, b.2.setRing q { b.2.ring q with pk := advance b.2.params.capacity (b.2.ring q).pk }) := by
  obtain ⟨b, ⟨n, hi, hs⟩⟩ := h
  exact .intro b (.withStart n hi hs)

theorem SameButStart.peekByte (h : SameButStart s t) (q : Pipe) :
    Simulated SameByte (Machine.peekByte s q) (Machine.peekByte t q) := by
  have hr := h.memRead (flatAddr s.params q (s.ring q).pk)
  have hd := h.drawCell none
  obtain ⟨n, -, -⟩ := h
  exact hr.andThen fun _ _ hab => .next ((hab.ite (inWindow s q = true) hd).advancePeek q)

/-- In Receiving a poll does nothing (R159). -/
theorem poll_of_receiving {s : State} (h : s.mode = .receiving) : poll s = (true, s) := by simp [poll, h]

/-- A poll answers the same: in Receiving it reads nothing, and in Transmitting the machines are equal (R159). -/
theorem SameButStart.poll (h : SameButStart s t) :
    (Machine.poll t).1 = (Machine.poll s).1 ∧ SameButStart (Machine.poll s).2 (Machine.poll t).2 := by
  rcases h.receiving_or_eq with hm | rfl
  · have hm' : t.mode = .receiving := by
      cases h
      exact hm
    rw [poll_of_receiving hm, poll_of_receiving hm']
    exact ⟨rfl, h⟩
  · exact ⟨rfl, .refl ((poll_frame t).initialized.trans h.initialized)⟩

theorem SameButStart.pollThen (h : SameButStart s t) (resume : SendPhase → Task) :
    Simulated SameButStart (Machine.pollThen s resume) (Machine.pollThen t resume) := by
  obtain ⟨hp, hs⟩ := h.poll
  rw [Machine.pollThen, Machine.pollThen, hp]
  exact .next (hs.setTask _)

/-! A dispatch -/

theorem SameButStart.admitBytes (h : SameButStart s t) (q : Pipe) (bytes : List Byte) :
    Simulated SameButStart (Machine.admitBytes q bytes s) (Machine.admitBytes q bytes t) := by
  induction bytes generalizing s t with
  | nil => exact .next h
  | cons b bs ih =>
    have hb := h.insertByte q b
    have hr := ih h
    obtain ⟨n, -, -⟩ := h
    exact .ite (hb.andThen fun _ _ => ih) hr

theorem SameButStart.receiveFrame (h : SameButStart s t) (q : Pipe) :
    Simulated SameButStart (Machine.receiveFrame q s) (Machine.receiveFrame q t) := by
  obtain ⟨n, hi, hs⟩ := h
  have hf : SameButStart (frameRead s) (frameRead (s.withStart n)) := .withStart n hi hs
  rw [receiveFrame_eq, receiveFrame_eq, show parseFrame (s.withStart n).params (chipReadRxFrame (s.withStart n)).rxStage =
    parseFrame s.params (chipReadRxFrame s).rxStage from rfl]
  cases parseFrame s.params (chipReadRxFrame s).rxStage with
  | some payload => exact hf.admitBytes q payload
  | none => exact .next (.withStart n hi hs)

theorem SameButStart.dispatchCase (h : SameButStart s t) (c : Status) :
    Simulated SameButStart (Machine.dispatchCase c s) (Machine.dispatchCase c t) := by
  have hr := h.receiveFrame
  obtain ⟨n, hi, hs⟩ := h
  cases c with
  | txComplete | maxRetransmits => exact .next (.withStart n hi nofun)
  | none => exact .next (.withStart n hi hs)
  | rxReady p =>
    simp only [Machine.dispatchCase]
    cases pipeOf p with
    | none => exact .next (.withStart n hi hs)
    | some q => exact hr q

/-- The timeout check does nothing in Receiving, and in Transmitting the machines are equal (R180). -/
theorem SameButStart.dispatchTimeout (h : SameButStart s t) :
    SameButStart (Machine.dispatchTimeout s) (Machine.dispatchTimeout t) := by
  rcases h.receiving_or_eq with hm | rfl
  · rw [dispatchTimeout_of_not_due s (.inr hm), dispatchTimeout_of_not_due t (.inr (by cases h; exact hm))]
    exact h
  · obtain ⟨-, -, -, -, -, hi, -⟩ := dispatchTimeout_frame t
    exact .refl (hi.trans h.initialized)

theorem SameButStart.irqDispatch (h : SameButStart s t) :
    Simulated SameButStart (Machine.exec .irqDispatch s) (Machine.exec .irqDispatch t) := by
  have hi := h.initialized
  obtain ⟨n, -, hs⟩ := h
  have hc : SameButStart (clearPending (chipStatus s).2) (clearPending (chipStatus (s.withStart n)).2) :=
    .withStart n hi hs
  rw [irqDispatch_eq s hi, irqDispatch_eq (s.withStart n) hi]
  exact (hc.dispatchCase _).andThen fun _ _ hu => .next hu.dispatchTimeout

/-! An operation -/

theorem SameButStart.emit (h : SameButStart s t) (es : List ChipEvent) :
    SameButStart (Machine.emit s es) (Machine.emit t es) := by
  obtain ⟨n, hi, hs⟩ := h
  exact .withStart n hi hs

theorem SameButStart.setRing (h : SameButStart s t) (q : Pipe) (r : RingBuffer) :
    SameButStart (s.setRing q r) (t.setRing q r) := by
  obtain ⟨n, hi, hs⟩ := h
  exact .withStart n hi hs

theorem SameButStart.drawBytes (h : SameButStart s t) (n : Nat) :
    SameButStart (Machine.drawBytes n s).2 (Machine.drawBytes n t).2 := by
  obtain ⟨n, hi, hs⟩ := h
  exact .withStart n hi hs

theorem SameButStart.chipRegRead (h : SameButStart s t) (addr : Byte) (n : Nat) :
    SameButStart (Machine.chipRegRead s addr n).2 (Machine.chipRegRead t addr n).2 := by
  obtain ⟨n, hi, hs⟩ := h
  exact .withStart n hi hs

theorem SameButStart.initialised (h : SameButStart s t) : SameButStart (Machine.initialised s) (Machine.initialised t) := by
  obtain ⟨n, -, -⟩ := h
  exact .withStart n rfl nofun

/-- An operation that ends with the byte it took. -/
theorem SameByte.complete {a b : Byte × State} (h : SameByte a b) :
    Simulated SameButStart (Machine.complete a.2 a.1.toNat []) (Machine.complete b.2 b.1.toNat []) := by
  obtain ⟨b, h⟩ := h
  exact h.complete _ _

/-- MA.POLL past its check. -/
theorem SameButStart.completePoll (h : SameButStart s t) :
    Simulated SameButStart (Machine.complete (Machine.poll s).2 (Machine.poll s).1.toNat [])
      (Machine.complete (Machine.poll t).2 (Machine.poll t).1.toNat []) := by
  obtain ⟨hp, hs⟩ := h.poll
  rw [hp]
  exact hs.complete _ _

/-- The answer of a pure operation after its length check depends on the parameters only. -/
theorem withinPayload_complete (hc : t.params = s.params) (len v : Nat) (out : List Byte) :
    ∃ r, withinPayload s len (complete s v out) = .next (finish s r) ∧
      withinPayload t len (complete t v out) = .next (finish t r) := by
  rw [withinPayload, withinPayload, hc]
  split
  · exact ⟨_, rfl, rfl⟩
  · exact ⟨_, rfl, rfl⟩

/-- The answer of a pure operation depends on the parameters and on its input stream only (R92, R130). -/
theorem exec_of_isPure {i : Instr} (hp : i.isPure = true) (hc : t.params = s.params) (hx : t.inStream = s.inStream) :
    ∃ r, exec i s = .next (finish s r) ∧ exec i t = .next (finish t r) := by
  cases i with
  | ckCompute len =>
    rw [exec, exec, execCkCompute, execCkCompute, hx]
    exact withinPayload_complete hc _ _ _
  | ckVerify len =>
    rw [exec, exec, execCkVerify, execCkVerify, hx]
    exact withinPayload_complete hc _ _ _
  | frBuild len =>
    rw [exec, exec, execFrBuild, execFrBuild, hx, hc]
    exact withinPayload_complete hc _ _ _
  | frParse =>
    rw [exec, exec, execFrParse, execFrParse, hx, hc]
    cases parseFrame s.params (s.inStream.take s.params.frameSize) with
    | some payload => exact ⟨_, rfl, rfl⟩
    | none => exact ⟨_, rfl, rfl⟩
  | frSplit len =>
    rw [exec, exec, execFrSplit, execFrSplit, hc]
    exact ⟨_, rfl, rfl⟩
  | _ => cases hp

theorem SameButStart.pure (h : SameButStart s t) {i : Instr} (hp : i.isPure = true) :
    Simulated SameButStart (Machine.exec i s) (Machine.exec i t) := by
  obtain ⟨n, -, -⟩ := id h
  obtain ⟨r, hs, ht⟩ := exec_of_isPure (s := s) (t := s.withStart n) hp rfl rfl
  rw [hs, ht]
  exact .next (h.finish r)

/-- What an operation of the command port or a dispatch does, does not depend on the value of `tx_start` in Receiving. -/
theorem SameButStart.exec (h : SameButStart s t) {i : Instr} (hi : i.issuer ≠ .internal) :
    Simulated SameButStart (Machine.exec i s) (Machine.exec i t) := by
  obtain ⟨n, -, -⟩ := id h
  cases i with
  | maEnterTx | maToRx | maTimeout => exact absurd rfl hi
  | irqDispatch => exact h.irqDispatch
  | ckCompute | ckVerify | frBuild | frParse | frSplit => exact h.pure rfl
  | init => exact h.initialised.complete _ _
  | rbInit p capacity => exact h.withPipe fun q => .ite ((h.setRing q .zero).complete _ _) (h.reject _)
  | rbInsert p b => exact h.withPipe fun q => .ite (h.reject _) ((h.insertByte q b).andThen fun _ _ hu => hu.complete _ _)
  | rbRemove p => exact h.withPipe fun q => .ite (h.reject _) ((h.removeByte q).andThen fun _ _ hu => hu.complete)
  | rbPeek p => exact h.withPipe fun q => .ite (h.reject _) ((h.peekByte q).andThen fun _ _ hu => hu.complete)
  | rbStartPeek p => exact h.withPipe fun q => (h.setRing q { s.ring q with pk := (s.ring q).rd }).complete _ _
  | rbCount p | rbIsEmpty p | rbIsFull p | available p => exact h.withPipe fun q => h.complete _ _
  | maPoll => exact h.whenInitialized h.completePoll
  | write len => exact h.whenInitialized (.ite (h.complete _ _) (h.pollThen _))
  | writeFrame len => exact h.whenInitialized (.ite (h.reject _) (h.pollThen _))
  | drain p count => exact h.withPipe fun q => .ite (h.reject _) (.next (h.setTask _))
  | ckerrCount => exact h.whenInitialized (h.complete _ _)
  | setRxPipeAddress p => exact h.withPipe fun q => (h.emit _).complete _ _
  | setTxAddress => exact h.whenInitialized ((h.emit _).complete _ _)
  | setChannel ch => exact h.whenInitialized (.ite (h.reject _) ((h.emit _).complete _ _))
  | enablePipes | disablePipes | regWrite | regWriteN =>
    exact h.whenInitialized (.ite ((h.emit _).complete _ _) (h.reject _))
  | regRead addr count =>
    exact h.whenInitialized (.ite ((h.chipRegRead addr count).complete _ _) (.next ((h.drawBytes count).finish _)))

/-! A running operation -/

theorem SameButStart.stepDrain (h : SameButStart s t) (q : Pipe) (count : Nat) (out : List Byte) :
    Simulated SameButStart (Machine.stepDrain q count out s) (Machine.stepDrain q count out t) := by
  obtain ⟨n, -, -⟩ := id h
  refine .ite (.ite (.next (h.setTask _)) ((h.removeByte q).andThen ?_)) (h.complete _ _)
  rintro _ _ ⟨b, hu⟩
  exact .next (hu.setTask _)

/-- A push writes `tx_start`, whatever it held (R152). -/
theorem SameButStart.pushFrame (h : SameButStart s t) (payload : List Byte) :
    SameButStart (Machine.pushFrame s payload) (Machine.pushFrame t payload) := by
  obtain ⟨n, hi, -⟩ := h
  exact .refl hi

/-- The next step of a running operation. -/
theorem SameButStart.taskStep (h : SameButStart s t) (ht : s.task ≠ .idle) :
    Simulated SameButStart (Machine.taskStep s) (Machine.taskStep t) := by
  obtain ⟨n, -, -⟩ := id h
  rw [Machine.taskStep, Machine.taskStep, show (s.withStart n).task = s.task from rfl]
  cases hk : s.task with
  | idle => exact absurd hk ht
  | drain q count out => exact h.stepDrain q count out
  | writeFrame len phase =>
    cases phase with
    | waiting => exact h.pollThen _
    | sending => exact (h.pushFrame _).complete _ _
  | write len k phase =>
    cases phase with
    | waiting => exact .ite (h.pollThen _) (h.complete _ _)
    | sending => exact .next ((h.pushFrame _).setTask _)

/-! Before and after INIT -/

theorem SameButStart.unspecified (h : SameButStart s t) : SameButUnspecified s t := by
  obtain ⟨n, hi, hs⟩ := h
  exact ⟨rfl, fun h => absurd hi (by simp [h]), fun _ => rfl, fun _ => rfl, fun _ => rfl, fun _ => hs⟩

theorem SameButUnspecified.sameButStart (h : SameButUnspecified s t) (hi : s.initialized = true) : SameButStart s t := by
  have e : t = s.withStart t.txStart := by
    conv_lhs => rw [h.rest, h.rb hi, h.mode hi, h.cksum hi]
    rfl
  rw [e]
  exact .withStart _ hi (h.start hi)

theorem SameButUnspecified.finish (h : SameButUnspecified s t) (r : Result) :
    SameButUnspecified (Machine.finish s r) (Machine.finish t r) :=
  ⟨by rw [h.rest]; rfl, fun _ => rfl, h.rb, h.mode, h.cksum, h.start⟩

theorem SameButUnspecified.clearPending (h : SameButUnspecified s t) :
    SameButUnspecified (Machine.clearPending s) (Machine.clearPending t) :=
  ⟨by rw [h.rest]; rfl, h.before, h.rb, h.mode, h.cksum, h.start⟩

theorem SameButUnspecified.latchEdge (h : SameButUnspecified s t) (edge : Bool) :
    SameButUnspecified (Machine.latchEdge edge s) (Machine.latchEdge edge t) :=
  ⟨by rw [h.rest]; rfl, h.before, h.rb, h.mode, h.cksum, h.start⟩

theorem SameButUnspecified.openStream (h : SameButUnspecified s t) (i : Instr) (xs : List Byte) :
    SameButUnspecified (Machine.openStream i xs s) (Machine.openStream i xs t) :=
  ⟨by rw [h.rest]; rfl, h.before, h.rb, h.mode, h.cksum, h.start⟩

theorem SameButUnspecified.drawEdge (h : SameButUnspecified s t) :
    SameButUnspecified (Machine.drawEdge s).2 (Machine.drawEdge t).2 :=
  ⟨by rw [h.rest]; rfl, h.before, h.rb, h.mode, h.cksum, h.start⟩

theorem SameButUnspecified.drawChoice (h : SameButUnspecified s t) :
    SameButUnspecified (Machine.drawChoice s).2 (Machine.drawChoice t).2 :=
  ⟨by rw [h.rest]; rfl, h.before, h.rb, h.mode, h.cksum, h.start⟩

theorem SameButUnspecified.withCommands (h : SameButUnspecified s t) (rest : List Command) :
    SameButUnspecified { s with env := { s.env with commands := rest } } { t with env := { t.env with commands := rest } } :=
  ⟨by rw [h.rest], h.before, h.rb, h.mode, h.cksum, h.start⟩

/-- INIT sets every register that power-on leaves unspecified but `tx_start` (R44). -/
theorem SameButUnspecified.initialised (h : SameButUnspecified s t) :
    SameButUnspecified (Machine.initialised s) (Machine.initialised t) := by
  have e : Machine.initialised t = (Machine.initialised s).withStart t.txStart := by
    conv_lhs => rw [h.rest]
    rfl
  rw [e]
  exact (SameButStart.withStart (s := Machine.initialised s) _ rfl nofun).unspecified

/-- Before INIT every command-port operation but INIT and the pure ones is rejected (R186). -/
theorem exec_of_uninitialised {i : Instr} (hs : s.initialized = false) (hc : i.issuer = .cmd) (hi : i ≠ .init)
    (hp : i.isPure = false) : exec i s = reject s .rejUninit := by
  have rejected (k : Outcome State) : whenInitialized s k = reject s .rejUninit := by simp [whenInitialized, hs]
  cases i with
  | init => exact absurd rfl hi
  | maEnterTx | maToRx | maTimeout | irqDispatch => cases hc
  | ckCompute | ckVerify | frBuild | frParse | frSplit => cases hp
  | _ => exact rejected _

/-- An operation of the command port or a dispatch, initialised or not. -/
theorem SameButUnspecified.exec (h : SameButUnspecified s t) {i : Instr} (hi : i.issuer ≠ .internal) :
    Simulated SameButUnspecified (Machine.exec i s) (Machine.exec i t) := by
  cases hs : s.initialized with
  | true => exact ((h.sameButStart hs).exec hi).mono fun _ _ => SameButStart.unspecified
  | false =>
    have ht : t.initialized = false := by rw [h.rest]; exact hs
    by_cases h0 : i = .init
    · subst h0
      exact .next (h.initialised.finish _)
    by_cases hd : i = .irqDispatch
    · subst hd
      rw [irqDispatch_uninitialised s hs, irqDispatch_uninitialised t ht]
      exact .next h.clearPending
    cases hp : i.isPure with
    | true =>
      obtain ⟨r, es, et⟩ := exec_of_isPure (s := s) (t := t) hp (by rw [h.rest]) (by rw [h.rest])
      rw [es, et]
      exact .next (h.finish r)
    | false =>
      have hc : i.issuer = .cmd := by
        cases i with
        | maEnterTx | maToRx | maTimeout => exact absurd rfl hi
        | irqDispatch => exact absurd rfl hd
        | _ => rfl
      rw [exec_of_uninitialised hs hc h0 hp, exec_of_uninitialised ht hc h0 hp]
      exact .next (h.finish _)

/-! A step -/

theorem SameButUnspecified.issue (h : SameButUnspecified s t) (c : Command) :
    Simulated SameButUnspecified (Machine.issue c s) (Machine.issue c t) := by
  have hp : t.params = s.params := by rw [h.rest]
  rw [Machine.issue, Machine.issue, hp]
  cases c.operation s.params with
  | error => exact .next (h.finish _)
  | ok i =>
    by_cases hi : i.issuer = .cmd
    · simp only [hi, if_true]
      exact (h.openStream i c.stream).exec (by simp [hi])
    · simp only [hi, if_false]
      exact .next (h.finish _)

theorem SameButUnspecified.acceptCommand (h : SameButUnspecified s t) :
    Simulated SameButUnspecified (Machine.acceptCommand s) (Machine.acceptCommand t) := by
  have he : t.env.commands = s.env.commands := by rw [h.rest]
  rw [Machine.acceptCommand, Machine.acceptCommand, he]
  cases s.env.commands with
  | nil => exact .next h
  | cons c rest => exact (h.withCommands rest).issue c

theorem SameButUnspecified.taskStep (h : SameButUnspecified s t) :
    Simulated SameButUnspecified (Machine.taskStep s) (Machine.taskStep t) := by
  by_cases hk : s.task = .idle
  · have hk' : t.task = .idle := by rw [h.rest]; exact hk
    simp only [Machine.taskStep, hk, hk']
    exact h.acceptCommand
  · have hi : s.initialized = true := by
      by_contra hi
      exact hk (h.before (by simpa using hi))
    exact ((h.sameButStart hi).taskStep hk).mono fun _ _ => SameButStart.unspecified

theorem SameButUnspecified.agentStep (h : SameButUnspecified s t) :
    Simulated SameButUnspecified (Machine.agentStep s) (Machine.agentStep t) := by
  have hp : t.irqPending = s.irqPending := by rw [h.rest]
  have hd : (Machine.drawChoice t).1 = (Machine.drawChoice s).1 := by rw [h.rest]; rfl
  simp only [Machine.agentStep, hp, hd]
  exact .ite (.ite (h.drawChoice.exec (by simp [Instr.issuer])) h.drawChoice.taskStep) h.taskStep

end

/-- Settles O14: the two machines draw the same edge and the same choice, and the agent that moves sees the same. -/
theorem unspecifiedRegistersAreNeverObserved : Obligations.UnspecifiedRegistersAreNeverObserved := by
  intro s t s' h hs
  have hd : (drawEdge t).1 = (drawEdge s).1 := by rw [h.rest]; rfl
  have hstep : Simulated SameButUnspecified (steppedWithEdge s) (steppedWithEdge t) := by
    rw [steppedWithEdge, steppedWithEdge, hd]
    exact h.drawEdge.agentStep.andThen fun _ _ hu => .next (hu.latchEdge _)
  exact hstep s' hs

end Sys2Proof.Machine
end

section
/-! Power-on, and INIT from any state. -/
namespace Sys2Proof.Machine

/-- Settles O15: the fields of the power-on state. -/
theorem powerOnState : Obligations.PowerOnState := ⟨rfl, rfl, fun _ => rfl, rfl, rfl, rfl⟩

/-- INIT has no check: it answers `OK` from every state (R185). -/
theorem exec_init (s : State) : exec .init s = .next (finish (initialised s) ⟨.ok, 0, []⟩) := rfl

/-- The port events of INIT, in order (R185). -/
theorem initialised_port (s : State) :
    (initialised s).port = s.port ++ ([.transportInit, .configure] ++ toRxEvents) := by
  simp [initialised]

/-- Settles O16: INIT leaves the state `initialised s` and returns. -/
theorem initResetsTheBlock : Obligations.InitResetsTheBlock := fun s =>
  ⟨_, exec_init s, ⟨rfl, rfl, rfl, rfl⟩, rfl, fun edge => Bool.false_or edge, initialised_port s⟩

end Sys2Proof.Machine
end

section
/-! An operation on one pipe changes nothing of another. -/
namespace Sys2Proof.Machine

/-- From `s` to `t` every register and every cell of the pipes other than `p` stays as it was (R24). -/
structure OtherPipesKept (p : Pipe) (s t : State) : Prop where
  ring : ∀ q, q ≠ p → t.ring q = s.ring q
  cell : ∀ q, q ≠ p → ∀ j, j < s.params.capacity → t.cell (flatAddr s.params q j) = s.cell (flatAddr s.params q j)

section
variable {p : Pipe} {s t u : State}

theorem OtherPipesKept.refl (p : Pipe) (s : State) : OtherPipesKept p s s := ⟨fun _ _ => rfl, fun _ _ _ _ => rfl⟩

/-- Writing the registers of `p` keeps the other pipes. -/
theorem OtherPipesKept.setRing (h : OtherPipesKept p s u) (r : RingBuffer) : OtherPipesKept p s (u.setRing p r) :=
  ⟨fun q hq => (ring_setRing_of_ne u p q r hq).trans (h.ring q hq), h.cell⟩

/-- Returning a result keeps all pipes. -/
theorem OtherPipesKept.finish (h : OtherPipesKept p s u) (r : Result) : OtherPipesKept p s (Machine.finish u r) :=
  ⟨h.ring, h.cell⟩

theorem OtherPipesKept.complete (h : OtherPipesKept p s u) {v : Nat} {out : List Byte}
    (ht : Machine.complete u v out = .next t) : OtherPipesKept p s t := by
  cases ht
  exact h.finish _

theorem OtherPipesKept.reject {code : Code} (ht : Machine.reject s code = .next t) : OtherPipesKept p s t := by
  cases ht
  exact (OtherPipesKept.refl p s).finish _

/-- An operation that its own check rejects keeps all pipes. -/
theorem OtherPipesKept.unlessRejected {c : Prop} [Decidable c] {code : Code} {k : Outcome State}
    (h : (if c then Machine.reject s code else k) = .next t) (hk : k = .next t → OtherPipesKept p s t) :
    OtherPipesKept p s t := by
  split at h
  · exact .reject h
  · exact hk h

theorem OtherPipesKept.drawCell (p : Pipe) (cell : Option Byte) (s : State) :
    OtherPipesKept p s (Machine.drawCell cell s).2 := by
  cases cell
  · exact ⟨fun _ _ => rfl, fun _ _ _ _ => rfl⟩
  · exact .refl p s

/-- An insert writes a cell of its own pipe (R52). -/
theorem OtherPipesKept.insertByte {b : Byte} (hw : (s.ring p).wr < s.params.capacity)
    (h : Machine.insertByte s p b = .next u) : OtherPipesKept p s u := by
  rw [insertByte_eq s p b hw] at h
  cases h
  refine ⟨fun q hq => inserted_ring_of_ne s p q b hq, fun q hq j hj => inserted_cell_of_ne s p b _ fun e => hq ?_⟩
  exact (flatAddr_inj s.params q p j _ hj hw e).1

theorem OtherPipesKept.removeByte {b : Byte} (h : Machine.removeByte s p = .next (b, u)) : OtherPipesKept p s u := by
  obtain ⟨r, hr, h⟩ := andThen_cases h
  obtain ⟨-, rfl⟩ := memRead_cases hr
  cases h
  exact (OtherPipesKept.drawCell p _ s).setRing _

theorem OtherPipesKept.peekByte {b : Byte} (h : Machine.peekByte s p = .next (b, u)) : OtherPipesKept p s u := by
  obtain ⟨r, hr, h⟩ := andThen_cases h
  obtain ⟨-, rfl⟩ := memRead_cases hr
  cases hw : inWindow s p <;> simp only [hw] at h <;> cases h
  · exact (OtherPipesKept.drawCell p none s).setRing _
  · exact (OtherPipesKept.drawCell p _ s).setRing _

/-- The checks of an operation of one pipe let it run on that pipe, or reject it. -/
theorem OtherPipesKept.withPipe {k : Pipe → Outcome State} (h : whenInitialized s (Machine.withPipe s p.val k) = .next t)
    (hk : k p = .next t → OtherPipesKept p s t) : OtherPipesKept p s t := by
  rcases whenInitialized_cases h with ⟨-, h⟩ | ⟨-, h⟩
  · rcases withPipe_cases h with ⟨_, h⟩ | ⟨-, h⟩
    · exact hk h
    · exact .reject h
  · exact .reject h

/-- An operation of one pipe keeps the others (R24). -/
theorem OtherPipesKept.exec {i : Instr} (hw : (s.ring p).wr < s.params.capacity) (hi : ringOperand i = some p.val)
    (h : Machine.exec i s = .next t) : OtherPipesKept p s t := by
  cases i <;> cases hi
  case rbInit.refl capacity =>
    refine .withPipe h fun h => ?_
    split at h
    · exact ((OtherPipesKept.refl p s).setRing _).complete h
    · exact .reject h
  case rbInsert.refl b =>
    refine .withPipe h fun h => .unlessRejected h fun h => ?_
    obtain ⟨u, hu, h⟩ := andThen_cases h
    exact (OtherPipesKept.insertByte hw hu).complete h
  case rbRemove.refl =>
    refine .withPipe h fun h => .unlessRejected h fun h => ?_
    obtain ⟨⟨b, u⟩, hu, h⟩ := andThen_cases h
    exact (OtherPipesKept.removeByte hu).complete h
  case rbPeek.refl =>
    refine .withPipe h fun h => .unlessRejected h fun h => ?_
    obtain ⟨⟨b, u⟩, hu, h⟩ := andThen_cases h
    exact (OtherPipesKept.peekByte hu).complete h
  case rbStartPeek.refl => exact .withPipe h ((OtherPipesKept.refl p s).setRing _).complete
  case rbCount.refl | rbIsEmpty.refl | rbIsFull.refl => exact .withPipe h (OtherPipesKept.refl p s).complete

end

/-- Settles O29: each ring-buffer operation writes registers and a cell of its own pipe only. -/
theorem pipesAreIndependent : Obligations.PipesAreIndependent := fun _ _ _ p q hinv hi h hq =>
  have kept := OtherPipesKept.exec (hinv.rings p).wr_lt hi h
  ⟨kept.ring q hq, kept.cell q hq⟩

end Sys2Proof.Machine
end

section
/-! A running operation, step by step: which part of a step goes on with it, and what any other part leaves alone. -/
namespace Sys2Proof.Machine

/-- The inputs and the number of draws are all that two such states differ in. -/
theorem SameMachine.exists_inputs {s t : State} (h : SameMachine s t) :
    ∃ env freeIdx, t = { s with env := env, freeIdx := freeIdx } := ⟨_, _, h.frame⟩

/-- Inputs and draws are quiet. -/
theorem SameMachine.quiet {s t : State} (h : SameMachine s t) : Quiet s t := by
  rw [h.frame]
  exact .of_eq rfl rfl rfl rfl rfl id id (.inl rfl) h.commands rfl

/-- An edge that is latched is quiet. -/
theorem Quiet.latchEdge (edge : Bool) (s : State) : Quiet s (Machine.latchEdge edge s) :=
  .of_eq rfl rfl rfl rfl rfl id id (.inl rfl) rfl rfl

/-- A quiet part of a step hands no frame to the chip. -/
theorem Quiet.pushes_nothing {s t : State} (h : Quiet s t) : ∃ es, t.port = s.port ++ es ∧ pushedFrames es = [] := by
  obtain ⟨es, hp, hf, -⟩ := h.port
  exact ⟨es, hp, pushedFrames_eq_nil es hf⟩

theorem taskStep_of_write {s : State} {len k : Nat} {phase : SendPhase} (h : s.task = .write len k phase) :
    taskStep s = stepWrite len k phase s := by simp only [taskStep, h]

theorem taskStep_of_writeFrame {s : State} {len : Nat} {phase : SendPhase} (h : s.task = .writeFrame len phase) :
    taskStep s = stepWriteFrame len phase s := by simp only [taskStep, h]

theorem taskStep_of_drain {s : State} {p : Pipe} {count : Nat} {out : List Byte} (h : s.task = .drain p count out) :
    taskStep s = stepDrain p count out s := by simp only [taskStep, h]

end Sys2Proof.Machine
end

section
/-! A running WRITE: the bytes it has pushed are the first bytes of its data. -/
namespace Sys2Proof.Machine

/-- Parsing a built frame gives back its payload (R135). -/
theorem parseFrame_buildFrame {c : Params} (hc : c.WF) (payload : List Byte) (h : payload.length ≤ c.maxPayload) :
    parseFrame c (buildFrame c payload.length payload) = some payload := by
  have hlen : (BitVec.ofNat 8 payload.length).toNat = payload.length := by
    have := hc.payload_byte
    rw [BitVec.toNat_ofNat]
    omega
  rw [buildFrame, List.cons_append, parseFrame_cons, hlen]
  simp [h]

/-- The push of a frame hands over exactly that frame (R140, R152). -/
theorem pushFrame_port (s : State) (payload : List Byte) :
    (pushFrame s payload).port = s.port ++ enterTxEvents (buildFrame s.params payload.length payload) := rfl

theorem pushedFrames_enterTxEvents (f : List Byte) : pushedFrames (enterTxEvents f) = [f] := rfl

/-- The push of a frame hands over the bytes of its payload (R139). -/
theorem pushedBytes_pushFrame (s : State) (payload : List Byte) (hc : s.params.WF)
    (h : payload.length ≤ s.params.maxPayload) :
    pushedBytes s.params (pushFrame s payload).port = pushedBytes s.params s.port ++ payload := by
  rw [pushFrame_port, pushedBytes_append]
  simp [pushedBytes, pushedFrames_enterTxEvents, parseFrame_buildFrame hc payload h]

/-- The fragment at offset `k` has the length the split gives it (R136). -/
theorem length_fragment {c : Params} {len : Nat} {data : List Byte} (h : data.length = len) (k : Nat) :
    ((data.drop k).take (fragmentAt c len k)).length = fragmentAt c len k := by
  simp [fragmentAt, h]

/-- Settles O44: a dispatch and a poll push nothing, a push hands over the next fragment, and the return finds all of
them pushed. -/
theorem writePushesItsDataInOrder : Obligations.WritePushesItsDataInOrder := by
  intro s t len k phase before hinv ht hb hs
  have hg := hinv.task_good
  rw [ht] at hg
  obtain ⟨-, hk, hlen, hp⟩ := hg
  obtain ⟨s₀, u, hs₀, rfl, ⟨-, hu⟩ | hu⟩ := step_cases hs
  · have q := hs₀.quiet.trans (Quiet.irqDispatch hu)
    obtain ⟨es, hes, hf⟩ := q.pushes_nothing
    exact ⟨es, hes, .inl ⟨phase, q.task.trans ht, q.inStream, q.results, hf⟩⟩
  rw [taskStep_of_write (hs₀.quiet.task.trans ht)] at hu
  cases phase with
  | waiting =>
    rw [stepWrite] at hu
    split at hu
    · have q := hs₀.quiet.trans (Quiet.poll s₀)
      obtain ⟨es, hes, hf⟩ := q.pushes_nothing
      cases hu
      exact ⟨es, hes, .inl ⟨_, rfl, q.inStream, q.results, hf⟩⟩
    · next hn =>
      have hkl : k = len := by omega
      have hall : s.inStream.take k = s.inStream := List.take_of_length_le (by omega)
      obtain ⟨env, n, rfl⟩ := hs₀.exists_inputs
      cases hu
      exact ⟨[], (List.append_nil _).symm, .inr (.inr ⟨hkl, rfl, rfl, rfl, rfl, hall ▸ hb⟩)⟩
  | sending =>
    obtain ⟨hkl, -⟩ := hp rfl
    have hfrag := length_fragment (c := s.params) hlen k
    have hbytes := pushedBytes_pushFrame s _ hinv.params (hfrag.trans_le (Nat.min_le_left _ _))
    rw [hb, List.append_assoc, ← List.take_add] at hbytes
    obtain ⟨env, n, rfl⟩ := hs₀.exists_inputs
    cases hu
    refine ⟨_, rfl, .inr (.inl ⟨rfl, hkl, _, rfl, rfl, rfl, rfl, ?_, hbytes⟩)⟩
    rw [pushedFrames_enterTxEvents]
    exact congrArg (fun l => [buildFrame s.params l _]) hfrag

end Sys2Proof.Machine
end

section
/-! A running DRAIN: a dispatch only puts bytes behind the ones it has still to remove. -/
namespace Sys2Proof.Machine

/-- A dispatch past its Status read only puts bytes behind the valid content of a pipe (R175). -/
theorem Sound.contents_prefix_dispatchCase {c : Status} {s t : State} (h : Sound s)
    (hd : Machine.dispatchCase c s = .next t) (p : Pipe) : contents s p <+: contents t p := by
  rcases dispatchCase_cases hd with rfl | rfl | ⟨q, payload, ha⟩ | rfl | rfl
  case inr.inr.inl =>
    obtain ⟨u, hu, a⟩ := h.frameRead.admitBytes q payload
    rw [ha] at hu
    cases hu
    by_cases hp : p = q
    · subst hp
      rw [a.content]
      exact List.prefix_append _ _
    · rw [a.others h.frameRead p hp]
      exact List.prefix_rfl
  all_goals simp

/-- A dispatch only puts bytes behind the valid content of a pipe (R175, R178). -/
theorem Sound.contents_prefix_irqDispatch {s t : State} (h : Sound s) (he : exec .irqDispatch s = .next t) (p : Pipe) :
    contents s p <+: contents t p := by
  cases hi : s.initialized with
  | false =>
    rw [irqDispatch_uninitialised s hi] at he
    cases he
    exact List.prefix_rfl
  | true =>
    rw [irqDispatch_eq s hi] at he
    obtain ⟨u, hu, ht⟩ := andThen_cases he
    cases ht
    obtain ⟨hp, hr, hm, -⟩ := dispatchTimeout_frame u
    rw [contents_congr hp hr hm]
    exact h.chipStatus.clearPending.contents_prefix_dispatchCase hu p

/-- Settles O56: a dispatch leaves the oldest bytes where they are, and a step of DRAIN moves one of them from the
content to what is out. -/
theorem drainReturnsTheOldestBytes : Obligations.DrainReturnsTheOldestBytes := by
  intro s t p count out promised hinv ht hpr hs
  have hg := hinv.task_good
  rw [ht] at hg
  obtain ⟨-, hle, hc⟩ := hg
  obtain ⟨s₀, u, hs₀, rfl, hu⟩ := step_cases hs
  have hsound := hs₀.sound hinv.sound
  have ht₀ : s₀.task = .drain p count out := hs₀.quiet.task.trans ht
  obtain ⟨env, n, rfl⟩ := hs₀.exists_inputs
  rcases hu with ⟨-, hu⟩ | hu
  · have q := Quiet.irqDispatch hu
    obtain ⟨admitted, ha⟩ : contents s p <+: contents u p := hsound.contents_prefix_irqDispatch hu p
    refine .inl ⟨out, q.task.trans ht, q.results, ?_⟩
    rw [latchEdge_contents, ← ha, List.take_append_of_le_length (by simpa using hc)]
    exact hpr
  rw [taskStep_of_drain ht₀] at hu
  by_cases hlt : out.length < count
  · obtain ⟨b, hb, -, hstep⟩ := hsound.stepDrain hlt hc
    rw [hstep] at hu
    cases hu
    refine .inl ⟨out ++ [b], rfl, rfl, ?_⟩
    have hb : contents s p = _ := hb
    rw [hb, show count - out.length = count - (out ++ [b]).length + 1 by simp; omega, List.take_succ_cons] at hpr
    simpa using hpr
  · rw [stepDrain, if_neg hlt] at hu
    cases hu
    have hout : out = promised := by
      rw [show count - out.length = 0 by omega, List.take_zero, List.append_nil] at hpr
      exact List.map_injective_iff.2 (Option.some_injective _) hpr
    exact .inr ⟨rfl, by rw [← hout]; rfl⟩

end Sys2Proof.Machine
end

section
/-! The first step of the operations that take several. -/
namespace Sys2Proof.Machine

/-- WRITE_FRAME within `M` begins with a poll (R140). -/
theorem exec_writeFrame {s : State} {len : Nat} (hi : s.initialized = true) (hl : len ≤ s.params.maxPayload) :
    exec (.writeFrame len) s = pollThen s (.writeFrame len) := by
  simp [exec, execWriteFrame, whenInitialized, withinPayload, hi, Nat.not_lt.2 hl]

/-- WRITE of at least one byte begins with a poll (R142). -/
theorem exec_write {s : State} {len : Nat} (hi : s.initialized = true) (hl : len ≠ 0) :
    exec (.write len) s = pollThen s (.write len 0) := by
  simp [exec, execWrite, whenInitialized, hi, hl]

/-- WRITE of no bytes returns at once (R142). -/
theorem exec_write_zero {s : State} (hi : s.initialized = true) :
    exec (.write 0) s = .next (s.returned ⟨.ok, 0, []⟩) := by
  rw [exec, execWrite, whenInitialized, if_pos hi]
  rfl

/-- The poll of a busy-wait, by the mode it leaves (R140). -/
theorem pollThen_eq (s : State) (resume : SendPhase → Task) :
    pollThen s resume =
      .next ((poll s).2.setTask (resume (if (poll s).2.mode = .receiving then .sending else .waiting))) := by
  rw [pollThen, phaseAfter_poll]

/-- In Receiving the poll of a busy-wait finds the block ready to push (R140). -/
theorem pollThen_of_receiving {s : State} (h : s.mode = .receiving) (resume : SendPhase → Task) :
    pollThen s resume = .next (s.setTask (resume .sending)) := by
  rw [pollThen_eq, poll_of_receiving h, if_pos h]

/-- DRAIN of a valid pipe is decided by its check (R189). -/
theorem exec_drain {s : State} (hi : s.initialized = true) (p : Pipe) (count : Nat) :
    exec (.drain p.val count) s =
      if count > (s.ring p).count then reject s .rejUnderrun else .next (s.setTask (.drain p count [])) := by
  simp [exec, execDrain, whenInitialized, withPipe, pipeOf, hi]

/-- Settles O42: both writes begin with the poll, and the phase follows the mode it leaves. -/
theorem writesBeginWithAPoll : Obligations.WritesBeginWithAPoll := fun s _ hi =>
  ⟨fun hl => ⟨_, (exec_writeFrame hi hl).trans (pollThen_eq s _), rfl⟩,
    fun hl => ⟨_, (exec_write hi hl).trans (pollThen_eq s _), rfl⟩, exec_write_zero hi⟩

/-- Settles O55: the two outcomes of the check of DRAIN. -/
theorem drainChecksFirst : Obligations.DrainChecksFirst := fun _ p count hi =>
  ⟨fun h => (exec_drain hi p count).trans (if_pos h), fun h => (exec_drain hi p count).trans (if_neg (Nat.not_lt.2 h))⟩

end Sys2Proof.Machine
end

section
/-! Steps of the task agent: a step takes the command in front, and with no edge it is a step of the task agent alone. -/
namespace Sys2Proof.Machine

/-- The opened stream of a command is the one supplied, if that has the length of its rule (R73). -/
theorem openStream_inStream_of_length {i : Instr} {supplied : List Byte} {s : State}
    (h : supplied.length = inBytes s.params i) : (openStream i supplied s).inStream = supplied :=
  fit_eq_self _ _ _ h

/-- Settles O4: the agent that moves is the task agent, and it accepts the command in front. -/
theorem stepRunsTheDecodedOperation : Obligations.StepRunsTheDecodedOperation := by
  refine ⟨fun s s₀ c rest i ht hc hd hi hs₀ => ?_, fun i supplied s => ⟨length_fit _ _ _, openStream_inStream_of_length⟩⟩
  rcases hs₀ with ⟨hp, rfl⟩ | ⟨hp, hchoice, rfl⟩
  · rw [step_of_not_pending hp, taskStep_command (s := (drawEdge s).2) ht hc hd hi]
    rfl
  · rw [step_of_pending hp, if_neg (by simp [hchoice]), taskStep_command (s := (drawChoice (drawEdge s).2).2) ht hc hd hi]
    rfl

/-- Settles O6: the choice decides which agent moves, and a scripted choice is the one drawn. -/
theorem pendingEdgeLeavesTheChoiceOpen : Obligations.PendingEdgeLeavesTheChoiceOpen := by
  refine ⟨fun s hp => step_of_pending hp, ?_⟩
  rintro s s₀ edge choice edges choices hp hedge hchoice rfl
  have hdraw : (drawEdge s).1 = edge ∧ (drawChoice (drawEdge s).2).1 = choice ∧
      (drawChoice (drawEdge s).2).2 =
        { s with env := { s.env with edges := edges, choices := choices }, freeIdx := s.freeIdx + 2 } := by
    simp [drawEdge, drawChoice, hedge, hchoice]
  obtain ⟨he, hch, hs⟩ := hdraw
  rw [step_of_pending hp, he, hch, hs]
  exact ⟨fun h => by rw [if_pos h], fun h => by rw [if_neg (by simp [h])]⟩

@[simp] theorem latchEdge_false (s : State) : latchEdge false s = s := by simp [latchEdge]

/-- With no edge pending and none arriving a step is a step of the task agent (R62). -/
theorem step_of_undisturbed {s : State} {edges : List Bool} (hp : s.irqPending = false)
    (he : s.env.edges = false :: edges) : step s = taskStep (drawEdge s).2 := by
  have hd : (drawEdge s).1 = false := by simp [drawEdge, he]
  rw [step_of_not_pending hp, hd]
  cases taskStep (drawEdge s).2 with
  | next t => rw [andThen_next, latchEdge_false]
  | fault r => rfl
  | refused r => rfl

theorem drawEdge_edges {s : State} {edge : Bool} {edges : List Bool} (he : s.env.edges = edge :: edges) :
    (drawEdge s).2.env.edges = edges := by simp [drawEdge, he]

/-- The word that encodes an operation stands for it (R71). -/
theorem operation_encode {c : Params} {i : Instr} (h : i.wf c.lenWidth = true) (stream : List Byte) :
    Command.operation ⟨(encode c.lenWidth i).toNat, stream⟩ c = .ok i := by
  rw [Command.operation, BitVec.ofNat_toNat, BitVec.setWidth_eq]
  exact decodeOfEncodeIsTheOperation _ _ h

end Sys2Proof.Machine
end

section
/-! Operations that no interrupt disturbs, from their first step to their return. -/
namespace Sys2Proof.Machine

/-- One step of an undisturbed DRAIN with bytes to come removes the oldest one (R189). -/
theorem Inv.step_drain {s : State} {p : Pipe} {count : Nat} {out : List Byte} {edges : List Bool} (h : Inv s)
    (ht : s.task = .drain p count out) (hp : s.irqPending = false) (he : s.env.edges = false :: edges)
    (hlt : out.length < count) :
    ∃ b, contents s p = some b :: contents (removed (drawEdge s).2 p) p ∧
      step s = .next ((removed (drawEdge s).2 p).setTask (.drain p count (out ++ [b]))) := by
  have hg := h.task_good
  rw [ht] at hg
  obtain ⟨-, -, hc⟩ := hg
  obtain ⟨b, hb, -, hstep⟩ := ((drawEdge_same s).sound h.sound).stepDrain hlt hc
  exact ⟨b, hb, by rw [step_of_undisturbed hp he, taskStep_of_drain (s := (drawEdge s).2) ht, hstep]⟩

/-- The last step of an undisturbed DRAIN returns (R189; log 12). -/
theorem step_drained {s : State} {p : Pipe} {count : Nat} {out : List Byte} {edges : List Bool}
    (ht : s.task = .drain p count out) (hp : s.irqPending = false) (he : s.env.edges = false :: edges)
    (hle : count ≤ out.length) : step s = .next (finish (drawEdge s).2 ⟨.ok, 0, out⟩) := by
  rw [step_of_undisturbed hp he, taskStep_of_drain (s := (drawEdge s).2) ht, stepDrain, if_neg (Nat.not_lt.2 hle)]
  rfl

/-- The last step of an undisturbed WRITE returns and does nothing else (R142; log 12). -/
theorem step_written {s : State} {len : Nat} {edges : List Bool} (ht : s.task = .write len len .waiting)
    (hp : s.irqPending = false) (he : s.env.edges = false :: edges) :
    ∃ t, step s = .next t ∧ Answered s t ⟨.ok, 0, []⟩ ∧ t.block = s.block ∧ t.port = s.port := by
  refine ⟨finish (drawEdge s).2 ⟨.ok, 0, []⟩, ?_, ⟨rfl, rfl, rfl, rfl⟩, rfl, rfl⟩
  rw [step_of_undisturbed hp he, taskStep_of_write (s := (drawEdge s).2) ht, stepWrite, if_neg (Nat.lt_irrefl len)]
  rfl

/-- Settles O57, by induction on the number of bytes still to come. -/
theorem drainTakesOneStepPerByte : Obligations.DrainTakesOneStepPerByte := by
  intro s p count out hinv ht hp he
  generalize hn : count - out.length = n at he ⊢
  induction n generalizing s out with
  | zero =>
    have hstep := step_drained ht hp he (by omega)
    exact ⟨_, [], run_succ hstep, rfl, ⟨by simp, rfl, rfl, rfl⟩, rfl, rfl, rfl, rfl, rfl, fun _ _ => rfl⟩
  | succ n ih =>
    obtain ⟨b, hb, hstep⟩ := hinv.step_drain ht hp he (by omega)
    obtain ⟨t, bytes, hrun, hbytes, hans, hcont, hport, hmode, hck, hmem, hring⟩ :=
      ih _ (out ++ [b]) (stepKeepsTheInvariant _ _ hinv hstep) rfl hp (by simp; omega) (drawEdge_edges he)
    rw [List.append_assoc] at hans
    obtain ⟨hres, hidle, hstream, hparams⟩ := hans
    refine ⟨t, b :: bytes, (run_succ hstep).trans hrun, ?_, ⟨hres, hidle, hstream, hparams⟩, ?_, hport,
      hmode, hck, hmem, fun q hq => (hring q hq).trans (ring_setRing_of_ne _ p q _ hq)⟩
    · rw [hb, List.take_succ_cons, List.map_cons]
      exact congrArg _ hbytes
    · rw [hb, List.drop_succ_cons]
      exact hcont

/-- The step that accepts a command, undisturbed (R62, R70). -/
theorem step_accepts {s : State} {data : List Byte} {rest : List Command} {i : Instr} {edges : List Bool}
    (ht : s.task = .idle) (hp : s.irqPending = false) (he : s.env.edges = false :: edges)
    (hw : i.wf s.params.lenWidth = true) (hi : i.issuer = .cmd)
    (hc : s.env.commands = ⟨(encode s.params.lenWidth i).toNat, data⟩ :: rest) :
    step s = exec i (accepted (drawEdge s).2 ⟨(encode s.params.lenWidth i).toNat, data⟩ rest i) := by
  rw [step_of_undisturbed hp he]
  exact taskStep_command ht hc (operation_encode hw data) hi

/-- From `s` to `t` the frame of `data` was handed to the chip at time `now`, and nothing else of the block changed
(R140, R152). -/
structure Sent (s t : State) (data : List Byte) (now : Nat) : Prop where
  block : t.block = { s.block with mode := .transmitting, txStart := now }
  now : t.env.now = now
  port : Emitted s t (enterTxEvents (buildFrame s.params data.length data))

theorem Sent.pushFrame (s : State) (data : List Byte) : Sent s (Machine.pushFrame s data) data (readNow s).1 :=
  ⟨rfl, rfl, rfl⟩

/-- The second step of an undisturbed WRITE_FRAME that found the block ready sends its frame and returns (R140). -/
theorem step_sends_frame {s : State} {data : List Byte} {edges : List Bool}
    (ht : s.task = .writeFrame data.length .sending) (hp : s.irqPending = false) (he : s.env.edges = false :: edges)
    (hdata : s.inStream = data) : ∃ t now, step s = .next t ∧ Sent s t data now ∧ Answered s t ⟨.ok, 0, []⟩ := by
  have hstep : step s = .next (finish (pushFrame (drawEdge s).2 data) ⟨.ok, 0, []⟩) := by
    rw [step_of_undisturbed hp he, taskStep_of_writeFrame (s := (drawEdge s).2) ht, stepWriteFrame, drawEdge_inStream,
      hdata, List.take_length]
    rfl
  obtain ⟨hblock, hnow, hport⟩ := Sent.pushFrame (drawEdge s).2 data
  exact ⟨_, _, hstep, ⟨hblock, hnow, hport⟩, rfl, rfl, rfl, rfl⟩

/-- The last two steps of an undisturbed WRITE of one frame that found the block ready: it sends the frame, and then
returns (R142; log 12). -/
theorem step_sends_fragment {s : State} {data : List Byte} {edges : List Bool}
    (ht : s.task = .write data.length 0 .sending) (hp : s.irqPending = false)
    (he : s.env.edges = false :: false :: edges) (hdata : s.inStream = data) (hl : data.length ≤ s.params.maxPayload) :
    ∃ t now u, step s = .next t ∧ Sent s t data now ∧ t.results = s.results ∧
      step t = .next u ∧ Answered s u ⟨.ok, 0, []⟩ ∧ u.block = t.block ∧ u.port = t.port := by
  have hm : fragmentAt (drawEdge s).2.params data.length 0 = data.length := Nat.min_eq_right hl
  have hstep : step s = .next ((pushFrame (drawEdge s).2 data).setTask (.write data.length data.length .waiting)) := by
    rw [step_of_undisturbed hp he, taskStep_of_write (s := (drawEdge s).2) ht, stepWrite, hm, drawEdge_inStream, hdata,
      List.drop_zero, List.take_length, Nat.zero_add]
  obtain ⟨hblock, hnow, hport⟩ := Sent.pushFrame (drawEdge s).2 data
  obtain ⟨u, hu, ⟨hres, hidle, hstream, hparams⟩, hkept⟩ :=
    step_written (s := (pushFrame (drawEdge s).2 data).setTask _) rfl hp (drawEdge_edges he)
  exact ⟨_, _, u, hstep, ⟨hblock, hnow, hport⟩, rfl, hu, ⟨hres, hidle, hstream, hparams⟩, hkept⟩

/-- From `s` to `t` a write of `data` was accepted, undisturbed: it goes on as `task`, and nothing of the block
changed. -/
structure Begun (s t : State) (data : List Byte) (task : Task) : Prop where
  task : t.task = task
  stream : t.inStream = data
  block : t.block = s.block
  port : t.port = s.port
  results : t.results = s.results
  params : t.params = s.params
  edges : t.env.edges = s.env.edges.tail

/-- An operation that begins with a poll is ready to push after its first step, issued in Receiving, undisturbed
(R62, R140, R142). -/
theorem step_begins {s : State} {data : List Byte} {rest : List Command} {i : Instr} {edges : List Bool}
    {resume : SendPhase → Task} (ht : s.task = .idle) (hm : s.mode = .receiving) (hp : s.irqPending = false)
    (he : s.env.edges = false :: edges) (hw : i.wf s.params.lenWidth = true) (hi : i.issuer = .cmd)
    (hlen : data.length = inBytes s.params i)
    (hc : s.env.commands = ⟨(encode s.params.lenWidth i).toNat, data⟩ :: rest)
    (hexec : ∀ t : State, t.initialized = s.initialized → t.params = s.params → exec i t = pollThen t resume) :
    ∃ t, step s = .next t ∧ Begun s t data (resume .sending) := by
  have hstep := (step_accepts ht hp he hw hi hc).trans
    ((hexec _ (by rfl) (by rfl)).trans (pollThen_of_receiving (by exact hm) resume))
  exact ⟨_, hstep, rfl, openStream_inStream_of_length hlen, rfl, rfl, rfl, rfl, rfl⟩

section
variable {s t u : State} {data : List Byte} {task : Task}

theorem Begun.irqPending (h : Begun s t data task) : t.irqPending = s.irqPending :=
  congrArg BlockState.irqPending h.block

theorem Begun.sent {now : Nat} (h : Begun s t data task) (g : Sent t u data now) : Sent s u data now :=
  ⟨h.block ▸ g.block, g.now, g.port.trans (by rw [h.port, h.params])⟩

theorem Begun.answered {r : Result} (h : Begun s t data task) (g : Answered t u r) : Answered s u r :=
  ⟨h.results ▸ g.results, g.idle, g.stream, g.params.trans h.params⟩

end

/-- Settles O43: the step that accepts the write finds the block ready, the next one pushes, and WRITE returns in a
third. -/
theorem writeCompletesInReceiving : Obligations.WriteCompletesInReceiving := by
  intro s data rest i _ hinit ht hm hp he hl hi hw hc
  have he : s.env.edges = false :: false :: false :: s.env.edges.drop 3 := by
    conv_lhs => rw [← List.take_append_drop 3 s.env.edges, he]
    rfl
  have hwf : fitsN s.params.lenWidth data.length = true := decide_eq_true hw
  rcases hi with rfl | ⟨rfl, hne⟩
  · obtain ⟨u, h₁, begun⟩ := step_begins (i := .writeFrame data.length) ht hm hp he hwf rfl rfl hc
      fun t hi hc => exec_writeFrame (hi.trans hinit) (hc ▸ hl)
    have he₂ := begun.edges.trans (congrArg List.tail he)
    obtain ⟨v, now, h₂, sent, hans⟩ := step_sends_frame begun.task (begun.irqPending.trans hp) he₂ begun.stream
    obtain ⟨hblock, hnow, hport⟩ := begun.sent sent
    exact ⟨u, v, now, h₁, h₂, hblock, hnow, hport, fun _ => begun.answered hans, nofun⟩
  · have hpos : data.length ≠ 0 := by simpa using hne
    obtain ⟨u, h₁, begun⟩ := step_begins (i := .write data.length) ht hm hp he hwf rfl rfl hc
      fun t hi _ => exec_write (hi.trans hinit) hpos
    have he₂ := begun.edges.trans (congrArg List.tail he)
    obtain ⟨v, now, t, h₂, sent, hres, h₃, hans, hkept⟩ :=
      step_sends_fragment begun.task (begun.irqPending.trans hp) he₂ begun.stream (begun.params ▸ hl)
    obtain ⟨hblock, hnow, hport⟩ := begun.sent sent
    exact ⟨u, v, now, h₁, h₂, hblock, hnow, hport, nofun,
      fun _ => ⟨hres.trans begun.results, t, h₃, begun.answered hans, hkept⟩⟩

end Sys2Proof.Machine
end

section
/-! The encoding: words written out, and words the command port does not accept. -/
namespace Sys2Proof.Machine

/-- Settles O3: the decoder evaluated on each word. -/
theorem writtenOutWordsDecode : Obligations.WrittenOutWordsDecode :=
  ⟨rfl, rfl, rfl, rfl, rfl, rfl, rfl, rfl, rfl, rfl⟩

/-- The command port rejects a word it does not accept (R84, R85, R92). -/
theorem issue_illegal {s : State} {c : Command} (h : ∀ i, c.operation s.params = .ok i → i.issuer ≠ .cmd) :
    issue c s = .next (finish s ⟨.rejIllegal, 0, []⟩) := by
  rw [issue]
  split
  · next i hi => exact if_neg (h i hi)
  · rfl

/-- The task agent consumes and rejects an illegal command in front (R62, R84, R85). -/
theorem taskStep_illegal {s : State} {c : Command} {rest : List Command} (ht : s.task = .idle)
    (hc : s.env.commands = c :: rest) (h : ∀ i, c.operation s.params = .ok i → i.issuer ≠ .cmd) :
    taskStep s = .next (finish { s with env := { s.env with commands := rest } } ⟨.rejIllegal, 0, []⟩) := by
  simp only [taskStep, ht, acceptCommand, hc]
  exact issue_illegal h

/-- Settles O5: the step is the rejection of the command in front, and then the edge is latched. -/
theorem illegalWordIsRejected : Obligations.IllegalWordIsRejected := by
  intro s c rest ht hp hc hd
  have hstep := step_of_not_pending hp
  rw [taskStep_illegal (s := (drawEdge s).2) ht hc hd, andThen_next] at hstep
  exact ⟨_, hstep, ⟨rfl, rfl, rfl, rfl⟩, by simp [State.block, hp], rfl, rfl⟩

end Sys2Proof.Machine
end

section
/-! The framing operations: what FR.BUILD and FR.PARSE return. -/
namespace Sys2Proof.Machine

/-- FR.BUILD within `M` returns the frame of its stream (R131). -/
theorem exec_frBuild {s : State} {len : Nat} (h : len ≤ s.params.maxPayload) :
    exec (.frBuild len) s = .next (s.returned ⟨.ok, 0, buildFrame s.params len (s.inStream.take len)⟩) :=
  if_neg (Nat.not_lt.2 h)

/-- The parts of a frame in order (R74). -/
theorem buildFrame_eq_append (c : Params) (payload : List Byte) :
    buildFrame c payload.length payload =
      [BitVec.ofNat 8 payload.length] ++ payload ++ [checksum payload.length payload] ++
        List.replicate (c.frameSize - payload.length - 2) c.filler := by
  simp [buildFrame]

/-- Settles O34: FR.BUILD returns `buildFrame`, which is the four parts. -/
theorem buildReturnsTheFrame : Obligations.BuildReturnsTheFrame := by
  rintro s payload hc h rfl
  have hexec := exec_frBuild h
  rw [List.take_length] at hexec
  exact ⟨_, hexec, length_buildFrame s.params s.inStream hc h, buildFrame_eq_append s.params s.inStream⟩

/-- The result of FR.PARSE, by whether the frame is accepted (R134). -/
def parseResult : Option (List Byte) → Result
  | some payload => ⟨.ok, payload.length, payload⟩
  | none => ⟨.ok, 0xFFFFFFFF, []⟩

/-- FR.PARSE of a whole frame changes nothing (R134). -/
theorem exec_frParse {s : State} (h : s.inStream.length = s.params.frameSize) :
    exec .frParse s = .next (s.returned (parseResult (parseFrame s.params s.inStream))) := by
  rw [exec, execFrParse, ← h, List.take_length]
  cases parseFrame s.params s.inStream <;> rfl

/-- Settles O35: FR.PARSE follows `parseFrame`, and an accepted payload is as long as its length byte says. -/
theorem parseAcceptsExactlyGoodFrames : Obligations.ParseAcceptsExactlyGoodFrames := by
  intro s len rest _ hs hlen
  rw [exec_frParse (by rw [hs]; exact hlen), hs, parseFrame_cons]
  split
  · next h =>
    obtain ⟨hlt, -⟩ := List.getElem?_eq_some_iff.1 h.2
    have hpayload : (rest.take len.toNat).length = len.toNat := List.length_take_of_le hlt.le
    rw [parseResult, hpayload]
  · rfl

end Sys2Proof.Machine
end

section
/-! A dispatch by the class of its Status: a transmit class, and a frame that is not accepted. -/
namespace Sys2Proof.Machine

/-- Both transmit classes run MA.TO_RX (R172). -/
theorem dispatchCase_of_isTransmit {c : Status} (h : isTransmit c = true) (s : State) :
    dispatchCase c s = .next (toRx s) := by
  cases c with
  | txComplete | maxRetransmits => rfl
  | rxReady _ | none => cases h

/-- A dispatch of a transmit class: the timeout check finds the block in Receiving (R172, R180). -/
theorem irqDispatch_of_isTransmit {s : State} (hi : s.initialized = true) (h : isTransmit (chipStatus s).1 = true) :
    exec .irqDispatch s = .next (toRx (clearPending (chipStatus s).2)) := by
  rw [irqDispatch_eq s hi, dispatchCase_of_isTransmit h, andThen_next, dispatchTimeout_of_not_due _ (.inr rfl)]

/-- A scripted snapshot is the one classified (R82, R232). -/
theorem chipStatus_of_snapshots {s : State} {x : Snapshot} {xs : List Snapshot} (h : s.env.snapshots = x :: xs) :
    (chipStatus s).1 = classify s.params x := by
  simp [chipStatus, h]

/-- A transmit flag decides the class (R82). -/
theorem isTransmit_classify (c : Params) {x : Snapshot} (h : x.txComplete = true ∨ x.maxRetransmits = true) :
    isTransmit (classify c x) = true := by
  cases hx : x.txComplete with
  | true => simp [classify, hx, isTransmit]
  | false => simp [classify, hx, h.resolve_left (by simp [hx]), isTransmit]

/-- Without a transmit flag the receive flag decides the class (R82, R221). -/
theorem classify_of_not_transmit (c : Params) {x : Snapshot} (hx : x.txComplete = false)
    (hm : x.maxRetransmits = false) :
    classify c x = if x.rxReady then .rxReady (x.pipe % 2 ^ c.pipeFieldWidth) else .none := by
  simp [classify, hx, hm]

/-- Settles O49: the dispatch is MA.TO_RX behind the Status read, and a snapshot is classified by its flags in order. -/
theorem transmitClassReturnsToReceiving : Obligations.TransmitClassReturnsToReceiving := by
  refine ⟨fun s hi h => ⟨_, irqDispatch_of_isTransmit hi h, rfl, ?_, rfl, rfl, rfl⟩, fun s x xs hs => ?_⟩
  · exact List.append_assoc s.port [.status] toRxEvents
  · rw [chipStatus_of_snapshots hs]
    exact ⟨isTransmit_classify s.params, classify_of_not_transmit s.params⟩

/-- Receive-data-ready with a valid pipe receives a frame (R174). -/
theorem dispatchCase_rxReady (q : Pipe) (s : State) : dispatchCase (.rxReady q.val) s = receiveFrame q s := by
  simp [dispatchCase, pipeOf]

/-- A frame that is not accepted is read, and counted (R176). -/
theorem receiveFrame_of_rejected {q : Pipe} {s : State} (h : parseFrame s.params (chipReadRxFrame s).rxStage = none) :
    receiveFrame q s = .next (countError (frameRead s)) := by
  rw [receiveFrame_eq, h]

/-- A frame with a length byte above `M`, or a wrong checksum, is not accepted (R80). -/
theorem parseFrame_eq_none {c : Params} {len : Byte} {rest : List Byte}
    (h : c.maxPayload < len.toNat ∨ rest[len.toNat]? ≠ some (checksum len.toNat (rest.take len.toNat))) :
    parseFrame c (len :: rest) = none := by
  rw [parseFrame_cons]
  exact if_neg fun ⟨hle, hck⟩ => h.elim (Nat.not_lt.2 hle) fun hne => hne hck

/-- A dispatch that receives a frame that is not accepted, with no timeout due (R174, R176). -/
theorem irqDispatch_of_rejected {s : State} {q : Pipe} (hi : s.initialized = true)
    (hdue : s.params.timeoutCheckInIrq = false ∨ s.mode = .receiving) (hq : (chipStatus s).1 = .rxReady q.val)
    (h : parseFrame s.params (chipReadRxFrame (chipStatus s).2).rxStage = none) :
    exec .irqDispatch s = .next (countError (frameRead (clearPending (chipStatus s).2))) := by
  rw [irqDispatch_eq s hi, hq, dispatchCase_rxReady,
    receiveFrame_of_rejected (s := clearPending (chipStatus s).2) h, andThen_next, dispatchTimeout_of_not_due]
  simpa using hdue

/-- Settles O53: the frame is read and counted, and no ring buffer is touched. -/
theorem badFrameIsCountedAndDropped : Obligations.BadFrameIsCountedAndDropped := by
  intro s q len rest hi hdue hq hframe hbad
  have hnone : parseFrame s.params (chipReadRxFrame (chipStatus s).2).rxStage = none := by
    rw [hframe]
    exact parseFrame_eq_none hbad
  refine ⟨_, irqDispatch_of_rejected hi hdue hq hnone, ?_, ?_, by simp⟩
  · simp [State.block]
  · simp [Emitted]

end Sys2Proof.Machine
end

section
/-! The checks that come first in every operation, passed and failed (R92). -/
namespace Sys2Proof.Machine

/-- Once initialised, check (2) of R92 lets every operation run. -/
theorem whenInitialized_of_initialized {s : State} (hi : s.initialized = true) (k : Outcome State) :
    whenInitialized s k = k := if_pos hi

/-- Once initialised, an operation of an existing pipe passes both its common checks (R92, R187). -/
theorem whenInitialized_withPipe {s : State} (hi : s.initialized = true) (p : Pipe) (k : Pipe → Outcome State) :
    whenInitialized s (withPipe s p.val k) = k p := by
  rw [whenInitialized_of_initialized hi, withPipe, pipeOf, dif_pos p.isLt]

/-- Check (4) of R92 rejects a payload longer than `M`. -/
theorem withinPayload_of_lt {s : State} {len : Nat} (h : s.params.maxPayload < len) (k : Outcome State) :
    withinPayload s len k = .next (s.returned ⟨.rejLength, 0, []⟩) := if_pos h

/-- A mask of 64 or above has bit 6 or bit 7 (R195). -/
theorem validMask_eq_false {mask : Byte} (h : 64 ≤ mask.toNat) : validMask mask = false := by
  have hlt := mask.isLt
  have hdiv : mask.toNat >>> 6 = mask.toNat / 64 := Nat.shiftRight_eq_div_pow _ 6
  simp only [validMask, beq_eq_false_iff_ne, ne_eq, ← BitVec.toNat_inj, BitVec.extractLsb'_toNat, hdiv,
    BitVec.ofNat_eq_ofNat, BitVec.toNat_ofNat]
  omega

/-- Settles O21: past the common checks, each operation rejects its bad operand. -/
theorem badOperandIsRejected : Obligations.BadOperandIsRejected := by
  intro s hi
  have run := whenInitialized_of_initialized hi
  refine ⟨fun p capacity h => ?_, fun ch h => ?_, fun mask h => ?_, fun addr b count h => ?_, fun len h => ?_⟩
  · exact (whenInitialized_withPipe hi p _).trans (if_neg h)
  · exact (run _).trans (if_pos h)
  · have hm : ¬ validMask mask = true := by simp [validMask_eq_false h]
    exact ⟨(run _).trans (if_neg hm), (run _).trans (if_neg hm)⟩
  · have ha : ¬ validReg s.params addr = true := by simp [h]
    exact ⟨(run _).trans (if_neg ha), (run _).trans (if_neg ha)⟩
  · have long := withinPayload_of_lt h
    simp only [List.forall_mem_cons]
    exact ⟨long _, long _, long _, (run _).trans (long _), by simp⟩

/-- The first step of an operation that does not return at once returns no result. -/
theorem FirstStep.results {i : Instr} {s t : State} (h : FirstStep i s t) : t.results = s.results := by
  cases h with
  | enterTx | toRx | timeout | discarded | drain => rfl
  | dispatch _ u _ h => exact ((Quiet.chipStatus _).trans ((Quiet.dispatchCase h).trans (.dispatchTimeout u))).results
  | writeFrame | write => exact (Quiet.poll s).results

/-- Settles O18: an operation that answers a rejection did at most draw free bytes before it returned. -/
theorem rejectedOperationChangesNothing : Obligations.RejectedOperationChangesNothing := by
  intro i s t r h hr hcode
  rcases exec_cases h with ⟨u, r', he, rfl, -, hrej⟩ | hf
  · obtain rfl : r' = r := by simpa [he.quiet.results] using hr
    obtain rfl | ⟨n, rfl⟩ := hrej hcode
    · exact ⟨rfl, rfl, rfl, rfl⟩
    · exact ⟨rfl, rfl, rfl, rfl⟩
  · simp [hf.results] at hr

end Sys2Proof.Machine
end

section
/-! The ring-buffer operations on an existing pipe of an initialised block, one equation for each way to answer. -/
namespace Sys2Proof.Machine

section
variable {s : State} {p : Pipe}

/-- RB.INSERT into a full buffer (R101). -/
theorem exec_rbInsert_full (hi : s.initialized = true) (hc : (s.ring p).count = s.params.capacity) (b : Byte) :
    exec (.rbInsert p.val b) s = .next (s.returned ⟨.rejFull, 0, []⟩) :=
  (whenInitialized_withPipe hi p _).trans (if_pos (beq_iff_eq.2 hc))

/-- RB.INSERT into a buffer with room (R101). -/
theorem exec_rbInsert_room (hi : s.initialized = true) (hc : (s.ring p).count ≠ s.params.capacity)
    (hw : (s.ring p).wr < s.params.capacity) (b : Byte) :
    exec (.rbInsert p.val b) s = .next ((inserted s p b).returned ⟨.ok, 0, []⟩) := by
  have hrun : exec (.rbInsert p.val b) s = andThen (insertByte s p b) fun t => complete t 0 [] :=
    (whenInitialized_withPipe hi p _).trans (if_neg (mt beq_iff_eq.1 hc))
  rw [hrun, insertByte_eq s p b hw]
  rfl

/-- RB.REMOVE from an empty buffer (R102). -/
theorem exec_rbRemove_empty (hi : s.initialized = true) (hc : (s.ring p).count = 0) :
    exec (.rbRemove p.val) s = .next (s.returned ⟨.rejEmpty, 0, []⟩) :=
  (whenInitialized_withPipe hi p _).trans (if_pos (beq_iff_eq.2 hc))

/-- RB.REMOVE from a buffer that is not empty, by the byte that comes out (R102). -/
theorem exec_rbRemove {b : Byte} {u : State} (hi : s.initialized = true) (hc : (s.ring p).count ≠ 0)
    (hu : removeByte s p = .next (b, u)) :
    exec (.rbRemove p.val) s = .next (u.returned ⟨.ok, b.toNat, []⟩) := by
  have hrun : exec (.rbRemove p.val) s = andThen (removeByte s p) fun r => complete r.2 r.1.toNat [] :=
    (whenInitialized_withPipe hi p _).trans (if_neg (mt beq_iff_eq.1 hc))
  rw [hrun, hu]
  rfl

/-- RB.PEEK of an empty buffer (R105). -/
theorem exec_rbPeek_empty (hi : s.initialized = true) (hc : (s.ring p).count = 0) :
    exec (.rbPeek p.val) s = .next (s.returned ⟨.rejEmpty, 0, []⟩) :=
  (whenInitialized_withPipe hi p _).trans (if_pos (beq_iff_eq.2 hc))

/-- RB.PEEK of a buffer that is not empty, by the byte that is read (R105). -/
theorem exec_rbPeek {b : Byte} {u : State} (hi : s.initialized = true) (hc : (s.ring p).count ≠ 0)
    (hu : peekByte s p = .next (b, u)) :
    exec (.rbPeek p.val) s = .next (u.returned ⟨.ok, b.toNat, []⟩) := by
  have hrun : exec (.rbPeek p.val) s = andThen (peekByte s p) fun r => complete r.2 r.1.toNat [] :=
    (whenInitialized_withPipe hi p _).trans (if_neg (mt beq_iff_eq.1 hc))
  rw [hrun, hu]
  rfl

end

/-- Settles O23: the byte is stored at the write cursor's address, and a store is read back there only. -/
theorem insertStoresAtTheWriteCursor : Obligations.InsertStoresAtTheWriteCursor := fun s p b hi hc hw =>
  ⟨_, exec_rbInsert_room hi hc hw b, rfl, inserted_cell_self s p b, inserted_cell_of_ne s p b⟩

/-- Settles O24: a remove past its checks reads the cell at the read cursor. -/
theorem removeReturnsTheOldestByte : Obligations.RemoveReturnsTheOldestByte := fun s p b hi hc hr hb =>
  exec_rbRemove hi hc (removeByte_eq s p b hr hb)

/-- Settles O25: a peek past its checks reads the cell at the peek cursor. -/
theorem peekReadsWithoutConsuming : Obligations.PeekReadsWithoutConsuming := fun s p hi =>
  ⟨whenInitialized_withPipe hi p _, fun b hc hk hw hb => exec_rbPeek hi hc (peekByte_inWindow s p b hk hw hb)⟩

/-- Settles O26: whatever byte a peek past its checks reads, it moves the peek cursor and nothing else of the block. -/
theorem peekOutsideTheWindowStillAdvances : Obligations.PeekOutsideTheWindowStillAdvances := by
  intro s p hi hc hk _
  obtain ⟨v, k, hpeek⟩ := peekByte_eq s p hk
  exact ⟨_, v, exec_rbPeek hi hc hpeek, ⟨rfl, rfl, rfl, rfl⟩, rfl, rfl⟩

/-- Settles O27: the checks on `count` reject. -/
theorem fullAndEmptyBuffersReject : Obligations.FullAndEmptyBuffersReject := fun _ _ hi =>
  ⟨exec_rbInsert_full hi, fun hc => ⟨exec_rbRemove_empty hi hc, exec_rbPeek_empty hi hc⟩⟩

/-- The value a query returns for a condition on a count (R107, R108). -/
theorem toNat_beq (m n : Nat) : (m == n).toNat = if m = n then 1 else 0 := by
  by_cases h : m = n <;> simp [h]

/-- Settles O28: past the common checks a query returns at once. -/
theorem queriesAnswerAndChangeNothing : Obligations.QueriesAnswerAndChangeNothing := by
  intro s p hi
  have run := whenInitialized_withPipe hi p
  refine ⟨run _, run _, (run _).trans ?_, (run _).trans ?_, whenInitialized_of_initialized hi _⟩
  · rw [isEmpty, toNat_beq]
    rfl
  · rw [isFull, toNat_beq]
    rfl

end Sys2Proof.Machine
end

section
/-! The FIFO law (R109): a ring buffer is a queue, one operation after the other. -/
namespace Sys2Proof.Machine

/-- From `s` to `t` the operations `ops` on pipe `p` returned `rs`: the bytes that were in the buffer and then the
accepted ones are, in order, the bytes that came out and then the ones now in it (R109). -/
structure Queued (p : Pipe) (ops : List RingOp) (s t : State) (rs : List Result) : Prop where
  sound : Sound t
  initialized : t.initialized = true
  results : t.results = s.results ++ rs
  length : rs.length = ops.length
  fifo : contents s p ++ (acceptedBytes ops rs).map some =
    (removedBytes ops rs).map (fun v => some (BitVec.ofNat 8 v)) ++ contents t p

theorem acceptedBytes_cons (op : RingOp) (ops : List RingOp) (r : Result) (rs : List Result) :
    acceptedBytes (op :: ops) (r :: rs) = acceptedBytes [op] [r] ++ acceptedBytes ops rs := by
  cases op with
  | insert b => by_cases h : r.code = .ok <;> simp [acceptedBytes, h]
  | remove => simp [acceptedBytes]

theorem removedBytes_cons (op : RingOp) (ops : List RingOp) (r : Result) (rs : List Result) :
    removedBytes (op :: ops) (r :: rs) = removedBytes [op] [r] ++ removedBytes ops rs := by
  cases op with
  | insert b => simp [removedBytes]
  | remove => by_cases h : r.code = .ok <;> simp [removedBytes, h]

section
variable {p : Pipe} {s t u : State}

/-- One more operation in front. -/
theorem Queued.cons {op : RingOp} {ops : List RingOp} {r : Result} {rs : List Result} (h : Queued p [op] s u [r])
    (g : Queued p ops u t rs) : Queued p (op :: ops) s t (r :: rs) where
  sound := g.sound
  initialized := g.initialized
  results := by rw [g.results, h.results, List.append_assoc, List.singleton_append]
  length := congrArg (· + 1) g.length
  fifo := by
    rw [acceptedBytes_cons, removedBytes_cons, List.map_append, List.map_append, ← List.append_assoc, h.fifo,
      List.append_assoc, g.fifo, List.append_assoc]

/-- An operation that is rejected neither takes a byte nor gives one (R109). -/
theorem Queued.rejected (hs : Sound s) (hi : s.initialized = true) (op : RingOp) {code : Code} (hc : code ≠ .ok) :
    Queued p [op] s (s.returned ⟨code, 0, []⟩) [⟨code, 0, []⟩] where
  sound := hs.finish _
  initialized := hi
  results := rfl
  length := rfl
  fifo := by cases op <;> simp [acceptedBytes, removedBytes, hc]

/-- An insert takes its byte in behind the content, or is rejected (R101, R109). -/
theorem Queued.insert (hs : Sound s) (hi : s.initialized = true) (b : Byte) :
    ∃ u r, exec (.rbInsert p.val b) s = .next u ∧ Queued p [.insert b] s u [r] := by
  by_cases hc : (s.ring p).count = s.params.capacity
  · exact ⟨_, _, exec_rbInsert_full hi hc b, .rejected hs hi _ nofun⟩
  · have hlt : (s.ring p).count < s.params.capacity := lt_of_le_of_ne (hs.rings p).count_le hc
    refine ⟨_, _, exec_rbInsert_room hi hc (hs.rings p).wr_lt b, (hs.inserted p b hlt).finish _, hi, rfl, rfl, ?_⟩
    rw [returned_contents, contents_inserted s p b (hs.rings p) hlt]
    rfl

/-- A remove takes the oldest byte of the content out, or is rejected (R102, R109). -/
theorem Queued.remove (hs : Sound s) (hi : s.initialized = true) :
    ∃ u r, exec (.rbRemove p.val) s = .next u ∧ Queued p [.remove] s u [r] := by
  by_cases hc : (s.ring p).count = 0
  · exact ⟨_, _, exec_rbRemove_empty hi hc, .rejected hs hi _ nofun⟩
  · obtain ⟨b, hb, hcont, hs'⟩ := hs.removeByte p hc
    refine ⟨_, _, exec_rbRemove hi hc hb, hs'.finish _, hi, rfl, rfl, ?_⟩
    rw [returned_contents, hcont]
    simp [acceptedBytes, removedBytes]

theorem Queued.exec (hs : Sound s) (hi : s.initialized = true) (op : RingOp) :
    ∃ u r, Machine.exec (op.instr p.val) s = .next u ∧ Queued p [op] s u [r] := by
  cases op with
  | insert b => exact Queued.insert hs hi b
  | remove => exact Queued.remove hs hi

/-- Any sequence of inserts and removes keeps the order of the bytes (R109). -/
theorem Queued.execAll {ops : List RingOp} (hs : Sound s) (hi : s.initialized = true)
    (h : Machine.execAll (ops.map (RingOp.instr p.val)) s = .next t) : ∃ rs, Queued p ops s t rs := by
  induction ops generalizing s with
  | nil =>
    cases h
    exact ⟨[], hs, hi, (List.append_nil _).symm, rfl, List.append_nil _⟩
  | cons op ops ih =>
    obtain ⟨u, r, hu, hq⟩ := Queued.exec (p := p) hs hi op
    rw [List.map_cons, Machine.execAll, hu, andThen_next] at h
    obtain ⟨rs, hqs⟩ := ih hq.sound hq.initialized h
    exact ⟨r :: rs, hq.cons hqs⟩

end

/-- A buffer that counts no byte holds none (R23). -/
theorem contents_eq_nil {s : State} {p : Pipe} (h : (s.ring p).count = 0) : contents s p = [] :=
  List.length_eq_zero_iff.1 ((length_contents s p).trans h)

/-- Settles O30: the law for a buffer with any content, by induction on the operations, at the empty content. -/
theorem ringBufferIsFirstInFirstOut : Obligations.RingBufferIsFirstInFirstOut := by
  intro ops s t p rs hinv hi hzero h hrs
  obtain ⟨rs', hq⟩ := Queued.execAll hinv.sound hi h
  obtain rfl : rs' = rs := List.append_cancel_left (hq.results.symm.trans hrs)
  have hempty : contents s p = [] := contents_eq_nil (by rw [hzero])
  exact ⟨hq.length, by simpa [hempty] using hq.fifo⟩

end Sys2Proof.Machine
end

section
/-! The overflow law (R110): inserts fill the buffer, and a full buffer rejects every further one. -/
namespace Sys2Proof.Machine

/-- A sequence in two parts. -/
theorem execAll_append (is js : List Instr) (s : State) :
    execAll (is ++ js) s = andThen (execAll is s) (execAll js) := by
  induction is generalizing s with
  | nil => rfl
  | cons i is ih =>
    simp only [List.cons_append, execAll]
    cases exec i s with
    | next u => exact ih u
    | fault | refused => rfl

/-- From `s` to `t` all of `bytes` went into the buffer of pipe `p`, behind what was there. -/
structure Filled (p : Pipe) (bytes : List Byte) (s t : State) : Prop where
  initialized : t.initialized = true
  params : t.params = s.params
  contents : Machine.contents t p = Machine.contents s p ++ bytes.map some
  results : t.results = s.results ++ List.replicate bytes.length ⟨.ok, 0, []⟩

/-- Inserts for which there is room are all accepted (R101). -/
theorem Filled.execAll {s : State} {p : Pipe} {bytes : List Byte} (hs : Sound s) (hi : s.initialized = true)
    (hc : (s.ring p).count + bytes.length ≤ s.params.capacity) :
    ∃ t, Machine.execAll (bytes.map (Instr.rbInsert p.val)) s = .next t ∧ Filled p bytes s t := by
  induction bytes generalizing s with
  | nil => exact ⟨s, rfl, hi, rfl, by simp, by simp⟩
  | cons b bs ih =>
    rw [List.length_cons] at hc
    have hlt : (s.ring p).count < s.params.capacity := by omega
    have hcount : (s.ring p).count + 1 + bs.length ≤ s.params.capacity := by omega
    obtain ⟨t, ht, hf⟩ := ih (s := (inserted s p b).returned ⟨.ok, 0, []⟩) ((hs.inserted p b hlt).finish _) hi
      (by rw [returned_ring, inserted_ring_self]; exact hcount)
    refine ⟨t, ?_, hf.initialized, hf.params, ?_, ?_⟩
    · rw [List.map_cons, Machine.execAll, exec_rbInsert_room hi hlt.ne (hs.rings p).wr_lt, andThen_next, ht]
    · rw [hf.contents, returned_contents, contents_inserted s p b (hs.rings p) hlt]
      simp
    · rw [hf.results, returned_results, List.append_assoc]
      rfl

/-- Inserts into a full buffer are all rejected, and leave its content (R101, R111). -/
theorem execAll_rbInsert_full {s : State} {p : Pipe} (bytes : List Byte) (hi : s.initialized = true)
    (hc : (s.ring p).count = s.params.capacity) :
    ∃ t, execAll (bytes.map (Instr.rbInsert p.val)) s = .next t ∧ contents t p = contents s p ∧
      t.results = s.results ++ List.replicate bytes.length ⟨.rejFull, 0, []⟩ := by
  induction bytes generalizing s with
  | nil => exact ⟨s, rfl, rfl, by simp⟩
  | cons b bs ih =>
    obtain ⟨t, ht, hcont, hres⟩ := ih (s := s.returned ⟨.rejFull, 0, []⟩) hi hc
    refine ⟨t, ?_, hcont, ?_⟩
    · rw [List.map_cons, execAll, exec_rbInsert_full hi hc, andThen_next, ht]
    · rw [hres, returned_results, List.append_assoc]
      rfl

/-- Settles O31: the first `N` inserts fill the buffer, and the rest find it full. -/
theorem overflowKeepsTheFirstBytes : Obligations.OverflowKeepsTheFirstBytes := by
  intro bytes s p hinv hi hzero hlen
  have hfirst : (bytes.take s.params.capacity).length = s.params.capacity := List.length_take_of_le hlen
  obtain ⟨u, hu, hf⟩ := Filled.execAll (bytes := bytes.take s.params.capacity) (p := p) hinv.sound hi
    (by rw [hzero, hfirst, Nat.zero_add])
  have hcu : contents u p = (bytes.take s.params.capacity).map some := by
    rw [hf.contents, contents_eq_nil hzero, List.nil_append]
  have hcount {v : State} (hv : contents v p = (bytes.take s.params.capacity).map some) :
      (v.ring p).count = s.params.capacity := by
    rw [← length_contents, hv, List.length_map, hfirst]
  obtain ⟨t, ht, hct, hres⟩ := execAll_rbInsert_full (bytes.drop s.params.capacity) hf.initialized
    ((hcount hcu).trans (congrArg _ hf.params.symm))
  refine ⟨t, ?_, hct.trans hcu, hcount (hct.trans hcu), ?_⟩
  · rw [← List.take_append_drop s.params.capacity bytes, List.map_append, execAll_append, hu, andThen_next, ht]
  · rw [hres, hf.results, hfirst, List.length_drop]

end Sys2Proof.Machine
end

section
/-! The checksum operations, and what a flipped bit does to a checksum. -/
namespace Sys2Proof.Machine

/-- CK.COMPUTE within `M` returns the checksum of its stream (R123). -/
theorem exec_ckCompute {s : State} {len : Nat} (h : len ≤ s.params.maxPayload) :
    exec (.ckCompute len) s = .next (s.returned ⟨.ok, (checksum len (s.inStream.take len)).toNat, []⟩) :=
  if_neg (Nat.not_lt.2 h)

/-- CK.VERIFY within `M` returns whether the byte after the payload is the checksum (R124). -/
theorem exec_ckVerify {s : State} {payload : List Byte} {c : Byte} (h : payload.length ≤ s.params.maxPayload)
    (hs : s.inStream = payload ++ [c]) :
    exec (.ckVerify payload.length) s =
      .next (s.returned ⟨.ok, if c = checksum payload.length payload then 1 else 0, []⟩) := by
  have hrun : exec (.ckVerify payload.length) s = complete s _ [] := if_neg (Nat.not_lt.2 h)
  rw [hrun, hs, List.getElem?_concat_length, List.take_left]
  by_cases hc : c = checksum payload.length payload <;> simp [hc, complete, finish, State.returned]

/-- Settles O32: both operations evaluate `checksum`, whose number is the formula. -/
theorem checksumOperationsAnswer : Obligations.ChecksumOperationsAnswer := by
  intro s payload c h
  refine ⟨fun hs => ?_, fun hs => ?_⟩
  · rw [exec_ckCompute h, hs, List.take_length, checksum_toNat]
  · simp only [exec_ckVerify h hs, ← BitVec.toNat_inj, checksum_toNat]

/-- The byte accumulator with wrap-around at every addition is the unbounded sum modulo 256 (R121). -/
theorem ofNat_byteSum (bytes : List Byte) : BitVec.ofNat 8 (byteSum bytes) = bytes.sum := by
  induction bytes with
  | nil => rfl
  | cons b bs ih => rw [byteSum, BitVec.ofNat_add, BitVec.ofNat_toNat, BitVec.setWidth_eq, ih, List.sum_cons]

/-- The checksum formed in 8 bits (R121). -/
theorem checksum_eq_not_add_sum (len : Nat) (bytes : List Byte) :
    checksum len bytes = ~~~ (BitVec.ofNat 8 len + bytes.sum) := by
  rw [checksum, BitVec.ofNat_add, ofNat_byteSum]

/-- Replacing one payload byte keeps the checksum only if the byte is the same (R126). -/
theorem checksum_set_eq_iff {len j : Nat} {bytes : List Byte} (h : j < bytes.length) (b : Byte) :
    checksum len (bytes.set j b) = checksum len bytes ↔ b = bytes[j] := by
  simp only [checksum_eq_not_add_sum, BitVec.not_inj, List.sum_set', h, dite_true]
  rw [add_right_inj, add_eq_left, neg_add_eq_zero, eq_comm]

/-- Two length bytes give the same payload the same checksum only if they are equal (R126). -/
theorem checksum_length_eq_iff {len newLen : Byte} (bytes : List Byte) :
    checksum newLen.toNat bytes = checksum len.toNat bytes ↔ newLen = len := by
  simp only [checksum_eq_not_add_sum, BitVec.not_inj, BitVec.ofNat_toNat, BitVec.setWidth_eq]
  rw [add_left_inj]

/-- Flipping bit `k` of a byte gives another byte. -/
theorem xor_twoPow_ne {k : Nat} (hk : k < 8) (b : Byte) : b ^^^ BitVec.twoPow 8 k ≠ b := by
  intro h
  have hbit := congrArg (·.getLsbD k) h
  simp [hk] at hbit

/-- Settles O33: a checksum determines each summand by the others, and a flip gives another summand. -/
theorem singleBitFlipChangesTheChecksum : Obligations.SingleBitFlipChangesTheChecksum :=
  ⟨fun _ _ _ _ h hk => mt (checksum_set_eq_iff h _).1 (xor_twoPow_ne hk _),
   fun len bytes _ hk => mt (checksum_length_eq_iff bytes).1 (xor_twoPow_ne hk len)⟩

end Sys2Proof.Machine
end

section
/-! Framing, beyond one operation: the round trip with any filler, and the split of a write. -/
namespace Sys2Proof.Machine

/-- A payload between its length byte and its checksum is accepted, whatever follows (R77, R80). -/
theorem parseFrame_framed {c : Params} (hc : c.WF) (payload tail : List Byte) (h : payload.length ≤ c.maxPayload) :
    parseFrame c (BitVec.ofNat 8 payload.length :: (payload ++ checksum payload.length payload :: tail)) =
      some payload := by
  have hlen : (BitVec.ofNat 8 payload.length).toNat = payload.length := by
    have := hc.payload_byte
    rw [BitVec.toNat_ofNat]
    omega
  rw [parseFrame_cons, hlen]
  simp [h]

/-- The bytes of a frame in front of its filler (R74). -/
theorem take_buildFrame (c : Params) (payload : List Byte) :
    (buildFrame c payload.length payload).take (payload.length + 2) =
      BitVec.ofNat 8 payload.length :: (payload ++ [checksum payload.length payload]) := by
  simp [buildFrame, List.take_append]

/-- Settles O36: what stands after the checksum does not matter. -/
theorem parseInvertsBuild : Obligations.ParseInvertsBuild := by
  intro c payload filler hc h
  refine ⟨parseFrame_buildFrame hc payload h, ?_⟩
  rw [take_buildFrame, List.cons_append, List.append_assoc]
  exact parseFrame_framed hc payload filler h

/-- The number of fragments is the quotient, and one more when there is a remainder (R136). -/
theorem length_fragmentLengths {m : Nat} (hm : 0 < m) (len : Nat) :
    (fragmentLengths m len).length = (len + m - 1) / m := by
  have hdiv := Nat.div_add_mod' len m
  have hlt := Nat.mod_lt len hm
  rw [eq_comm, Nat.div_eq_iff hm]
  by_cases h : len % m > 0
  · simp [fragmentLengths, h, Nat.succ_mul]
    omega
  · simp [fragmentLengths, h]
    omega

/-- The fragments carry the whole write (R136). -/
theorem sum_fragmentLengths (m len : Nat) : (fragmentLengths m len).sum = len := by
  have hdiv := Nat.div_add_mod' len m
  by_cases h : len % m > 0
  · simp [fragmentLengths, h, hdiv]
  · simp [fragmentLengths, h]
    omega

/-- Settles O37: FR.SPLIT returns `fragmentLengths`, whose number is the ceiling. -/
theorem splitReportsTheFragments : Obligations.SplitReportsTheFragments := by
  intro s len hc
  have hnum := length_fragmentLengths hc.payload_pos len
  refine ⟨fragmentLengths s.params.maxPayload len, hnum ▸ rfl, hnum, sum_fragmentLengths _ _, ?_⟩
  rcases Nat.eq_zero_or_pos (len % s.params.maxPayload) with h | h
  · simp [fragmentLengths, h]
  · simp [fragmentLengths, h, h.ne']

end Sys2Proof.Machine
end

section
/-! The pure operations. -/
namespace Sys2Proof.Machine

/-- Settles O38: the answers agree whenever the parameters and the input streams do (`exec_of_isPure`). -/
theorem pureOperationsReadNoState : Obligations.PureOperationsReadNoState := fun _ _ _ hi hp hs =>
  exec_of_isPure hi hp.symm hs.symm

end Sys2Proof.Machine
end

section
/-! The write path: what it writes of the block. -/
namespace Sys2Proof.Machine

/-- From `s` to `t` the block changed at most `tx_mode` and `tx_start` (R144). -/
def OnlyTransmitState (s t : State) : Prop := t.block = { s.block with mode := t.mode, txStart := t.txStart }

/-- A poll of the write path changes at most `tx_mode` (R159). -/
theorem OnlyTransmitState.poll (s : State) (task : Task) : OnlyTransmitState s ((Machine.poll s).2.setTask task) := by
  have f := poll_frame s
  simp [OnlyTransmitState, State.block, f.rb, f.mem, f.initialized, f.cksumErr, f.irqPending]

/-- The first step of a write polls, or returns at once. -/
theorem OnlyTransmitState.exec_write {s t : State} {len : Nat} (h : exec (.write len) s = .next t) :
    OnlyTransmitState s t := by
  rcases whenInitialized_cases h with ⟨-, h⟩ | ⟨-, h⟩
  · split at h <;> cases h
    · rfl
    · exact .poll s _
  · cases h; rfl

theorem OnlyTransmitState.exec_writeFrame {s t : State} {len : Nat} (h : exec (.writeFrame len) s = .next t) :
    OnlyTransmitState s t := by
  rcases whenInitialized_cases h with ⟨-, h⟩ | ⟨-, h⟩
  · rcases withinPayload_cases h with ⟨-, h⟩ | ⟨-, h⟩ <;> cases h
    · exact .poll s _
    · rfl
  · cases h; rfl

/-- A step of a running write polls, pushes a frame, or returns. -/
theorem OnlyTransmitState.taskStep {s t : State} (hw : s.task.isWrite = true) (h : Machine.taskStep s = .next t) :
    OnlyTransmitState s t := by
  cases taskStep_cases h with
  | idle ht | illegal _ _ ht | command _ _ _ _ ht | drain _ _ _ _ ht | drained _ _ _ ht =>
    exact absurd hw (by simp [ht, Task.isWrite])
  | pollFrame | pollWrite => exact .poll s _
  | pushFrame | pushFragment | written => rfl

/-- Settles O46: every step of a write is a poll, the push of a frame, or a return. -/
theorem writePathLeavesTheBuffersAlone : Obligations.WritePathLeavesTheBuffersAlone := by
  refine ⟨?_, fun _ _ hw h => OnlyTransmitState.taskStep hw h⟩
  rintro s t len i (rfl | rfl) h
  · exact OnlyTransmitState.exec_write h
  · exact OnlyTransmitState.exec_writeFrame h

end Sys2Proof.Machine
end

section
/-! One frame in flight: a step pushes a frame only when the task agent was about to, which it is only in Receiving. -/
namespace Sys2Proof.Machine

/-- From `s` to `t` no frame was pushed, and Transmitting was not entered. -/
structure NoPush (s t : State) : Prop where
  mode : t.mode = s.mode ∨ t.mode = .receiving
  port : ∃ es, t.port = s.port ++ es ∧ pushedFrames es = []

theorem Quiet.noPush {s t : State} (h : Quiet s t) : NoPush s t := ⟨h.mode, h.pushes_nothing⟩

/-- From `s` to `t` exactly one frame was pushed, which left the block Transmitting (R152). -/
structure PushesOne (s t : State) : Prop where
  mode : t.mode = .transmitting
  port : ∃ f, t.port = s.port ++ enterTxEvents f

/-- Returning a result and setting the task push nothing. -/
theorem NoPush.congr {s t u : State} (h : NoPush s t) (hm : u.mode = t.mode) (hp : u.port = t.port) : NoPush s u :=
  ⟨hm ▸ h.mode, hp ▸ h.port⟩

/-- No operation of the command port pushes a frame in the step that begins it: the push is a step of its own
(R140). -/
theorem NoPush.exec {i : Instr} {s t : State} (hi : i.issuer = .cmd) (h : Machine.exec i s = .next t) :
    NoPush s t := by
  rcases exec_cases h with ⟨u, r, he, rfl, -, -⟩ | hf
  · exact he.quiet.noPush.congr rfl rfl
  · cases hf with
    | enterTx | toRx | timeout | discarded | dispatch => cases hi
    | drain => exact (Quiet.refl s).noPush.congr rfl rfl
    | writeFrame | write => exact (Quiet.poll s).noPush.congr rfl rfl

theorem NoPush.stepDrain {q : Pipe} {count : Nat} {out : List Byte} {s t : State}
    (h : Machine.stepDrain q count out s = .next t) : NoPush s t := by
  rw [Machine.stepDrain] at h
  split at h
  · split at h
    · cases h
      exact (Quiet.refl s).noPush.congr rfl rfl
    · obtain ⟨⟨b, u⟩, hu, h⟩ := andThen_cases h
      cases h
      exact (Quiet.removeByte hu).noPush.congr rfl rfl
  · cases h
    exact (Quiet.refl s).noPush.congr rfl rfl

/-- A step of the task agent pushes nothing, or one frame, when it was about to (R140). -/
theorem taskStep_noPush_or_pushesOne {s t : State} (h : taskStep s = .next t) :
    NoPush s t ∨ (s.task.isPushing = true ∧ PushesOne s t) := by
  have hnone := (Quiet.refl s).noPush
  have hpoll := (Quiet.poll s).noPush
  cases taskStep_cases h with
  | idle | illegal | drained | written => exact .inl (hnone.congr rfl rfl)
  | command c rest i _ _ _ _ hi h =>
    obtain ⟨hmode, hport⟩ := NoPush.exec hi h
    exact .inl ⟨hmode, hport⟩
  | drain _ _ _ _ _ _ h => exact .inl (.stepDrain h)
  | pollFrame | pollWrite => exact .inl (hpoll.congr rfl rfl)
  | pushFrame _ ht | pushFragment _ _ ht => exact .inr ⟨by rw [ht]; rfl, rfl, _, rfl⟩

/-- A step of either agent pushes nothing, or one frame, when the task agent was about to. -/
theorem step_noPush_or_pushesOne {s t : State} (h : step s = .next t) :
    NoPush s t ∨ (s.task.isPushing = true ∧ PushesOne s t) := by
  obtain ⟨s₀, u, hs₀, rfl, ⟨-, hu⟩ | hu⟩ := step_cases h
  · exact .inl ((hs₀.quiet.trans (Quiet.irqDispatch hu)).noPush.congr rfl rfl)
  · obtain ⟨env, n, rfl⟩ := hs₀.exists_inputs
    rcases taskStep_noPush_or_pushesOne hu with ⟨hm, hport⟩ | ⟨hp, hm, hport⟩
    · exact .inl ⟨hm, hport⟩
    · exact .inr ⟨hp, hm, hport⟩

/-- The task agent is about to push only in Receiving (R153). -/
theorem Task.Good.mode_of_isPushing {s : State} {task : Task} (h : task.Good s) (hp : task.isPushing = true) :
    s.mode = .receiving := by
  match task, hp with
  | .writeFrame len .sending, _ =>
    obtain ⟨-, -, -, hm⟩ := h
    exact hm rfl
  | .write len k .sending, _ =>
    obtain ⟨-, -, -, hm⟩ := h
    exact (hm rfl).2

/-- Settles O47: only the push of a frame enters Transmitting, and by the invariant it finds the block in Receiving. -/
theorem oneFrameInFlight : Obligations.OneFrameInFlight := by
  intro s t hinv h
  rcases step_noPush_or_pushesOne h with ⟨hmode, es, hport, hes⟩ | ⟨hp, hmode, f, hport⟩
  · exact ⟨fun hr ht => by simp [hr, ht] at hmode, es, hport, .inl hes⟩
  · have hreceiving := hinv.task_good.mode_of_isPushing hp
    exact ⟨fun _ _ => hp, _, hport, .inr ⟨f, pushedFrames_enterTxEvents f, hp, hreceiving, hmode⟩⟩

end Sys2Proof.Machine
end

section
/-! The busy-wait: every poll that leaves it waiting has moved the clock on, and the bound is exceeded in the end. -/
namespace Sys2Proof.Machine

/-- The tasks in a busy-wait, as what the task agent goes on with after a poll (R140, R142). -/
inductive BusyWait : (SendPhase → Task) → Prop where
  | frame (len : Nat) : BusyWait (.writeFrame len)
  | fragment (len k : Nat) (h : k < len) : BusyWait (.write len k)

/-- A step of a busy-wait is a poll (R140). -/
theorem BusyWait.taskStep {resume : SendPhase → Task} (hr : BusyWait resume) {s : State}
    (h : s.task = resume .waiting) : Machine.taskStep s = pollThen s resume := by
  cases hr with
  | frame len => exact taskStep_of_writeFrame h
  | fragment len k hk => exact (taskStep_of_write h).trans (if_pos hk)

theorem BusyWait.isPushing {resume : SendPhase → Task} (hr : BusyWait resume) : (resume .sending).isPushing = true := by
  cases hr <;> rfl

/-- A poll that does not return to Receiving has read the clock and found the bound kept (R159). -/
theorem poll_of_not_receiving {s : State} (h : (poll s).2.mode ≠ .receiving) :
    elapsed s.params (readNow (chipStatus s).2).1 s.txStart ≤ s.params.txTimeout ∧
      (poll s).2 = (readNow (chipStatus s).2).2 := by
  rcases poll_cases s with ⟨hm, e⟩ | ⟨-, -, -, e⟩ | ⟨-, -, -, e⟩ | ⟨-, -, he, e⟩
  · exact absurd (e ▸ hm) h
  · exact absurd (e ▸ rfl) h
  · exact absurd (e ▸ rfl) h
  · exact ⟨he, congrArg Prod.snd e⟩

/-- A scripted advance is the one that the next read of the clock sees (R229). -/
theorem readNow_of_advances {s : State} {d : Nat} {ds : List Nat} (h : s.env.advances = d :: ds) :
    (readNow s).1 = (s.env.now + d) % 2 ^ s.params.timeWidth ∧ (readNow s).2.env.advances = ds := by
  simp [readNow, h]

/-- Within the bound, an advance of at most half the range of the clock does not wrap the elapsed time (R7, R160). -/
theorem elapsed_add_of_le {c : Params} (hc : c.WF) {now start d : Nat}
    (he : elapsed c now start ≤ c.txTimeout) (hd : d ≤ 2 ^ (c.timeWidth - 1)) :
    elapsed c ((now + d) % 2 ^ c.timeWidth) start = elapsed c now start + d := by
  have hpos := hc.timeout_pos
  have hhalf := hc.timeout_half
  have hw : 0 < c.timeWidth := by
    by_contra h0
    have h1 : 2 ^ (c.timeWidth - 1) = 1 := by simp [Nat.eq_zero_of_not_pos h0]
    omega
  have hrange := Nat.two_pow_pred_add_two_pow_pred hw
  rw [elapsed_add, Nat.mod_eq_of_lt (by omega)]

/-- A busy-wait in Transmitting with no edge pending, and with `m` scripted advances of the clock that suffice to exceed
the bound `T` (R141, R158). -/
structure Waiting (resume : SendPhase → Task) (m : Nat) (s : State) : Prop where
  params : s.params.WF
  task : s.task = resume .waiting
  irqPending : s.irqPending = false
  mode : s.mode = .transmitting
  elapsed_le : elapsed s.params s.env.now s.txStart ≤ s.params.txTimeout
  length : s.env.advances.length = m
  moving : ∀ d ∈ s.env.advances, 1 ≤ d ∧ d ≤ 2 ^ (s.params.timeWidth - 1)
  enough : s.params.txTimeout < elapsed s.params s.env.now s.txStart + m

section
variable {resume : SendPhase → Task} {m : Nat} {s : State}

theorem Waiting.drawEdge (h : Waiting resume m s) : Waiting resume m (Machine.drawEdge s).2 :=
  ⟨h.params, h.task, h.irqPending, h.mode, h.elapsed_le, h.length, h.moving, h.enough⟩

theorem Waiting.chipStatus (h : Waiting resume m s) : Waiting resume m (Machine.chipStatus s).2 :=
  ⟨h.params, h.task, h.irqPending, h.mode, h.elapsed_le, h.length, h.moving, h.enough⟩

theorem Waiting.setTask (h : Waiting resume m s) : Waiting resume m (s.setTask (resume .waiting)) :=
  ⟨h.params, rfl, h.irqPending, h.mode, h.elapsed_le, h.length, h.moving, h.enough⟩

/-- A read of the clock that keeps the bound has used up one advance, and brought the bound nearer (R141, R160). -/
theorem Waiting.readNow (h : Waiting resume (m + 1) s)
    (hle : elapsed s.params (Machine.readNow s).1 s.txStart ≤ s.params.txTimeout) :
    Waiting resume m (Machine.readNow s).2 := by
  obtain ⟨hparams, htask, hirq, hmode, hstart, hlen, hmoving, henough⟩ := h
  obtain ⟨d, ds, hadv⟩ := List.exists_cons_of_length_eq_add_one hlen
  rw [hadv] at hlen hmoving
  obtain ⟨⟨hd, hhalf⟩, hds⟩ := List.forall_mem_cons.1 hmoving
  obtain ⟨hnow, hrest⟩ := readNow_of_advances hadv
  have hel := elapsed_add_of_le hparams hstart hhalf
  refine ⟨hparams, htask, hirq, hmode, hle, ?_, ?_, ?_⟩
  · rw [hrest]
    exact Nat.succ.inj hlen
  · rw [hrest]
    exact hds
  · rw [readNow_params, readNow_txStart, readNow_now, hnow, hel]
    omega

/-- A poll that finds the block not ready has used up one advance (R141, R159). -/
theorem Waiting.poll (h : Waiting resume (m + 1) s) (hm : (Machine.poll s).2.mode ≠ .receiving) :
    Waiting resume m ((Machine.poll s).2.setTask (resume .waiting)) := by
  obtain ⟨hle, hpoll⟩ := poll_of_not_receiving hm
  rw [hpoll]
  exact (h.chipStatus.readNow hle).setTask

/-- One step of the busy-wait with no edge: it finds the block ready, or it goes on. -/
theorem Waiting.step {edges : List Bool} (hr : BusyWait resume)
    (h : Waiting resume (m + 1) s) (he : s.env.edges = false :: edges) :
    ∃ t, Machine.step s = .next t ∧ ((t.task.isPushing = true ∧ t.mode = .receiving) ∨
      (Waiting resume m t ∧ t.env.edges = edges)) := by
  have hstep := (step_of_undisturbed h.irqPending he).trans ((hr.taskStep h.drawEdge.task).trans (pollThen_eq _ _))
  refine ⟨_, hstep, ?_⟩
  by_cases hm : (Machine.poll (Machine.drawEdge s).2).2.mode = .receiving
  · rw [if_pos hm]
    exact .inl ⟨hr.isPushing, hm⟩
  · rw [if_neg hm]
    exact .inr ⟨h.drawEdge.poll hm, (poll_frame _).edges.trans (drawEdge_edges he)⟩

/-- A busy-wait with advances enough is over before they are used up. -/
theorem Waiting.run (hr : BusyWait resume) (h : Waiting resume m s) (he : s.env.edges = List.replicate m false) :
    ∃ n ≤ m, ∃ t, Sys2Proof.core.run n s = .next t ∧ t.task.isPushing = true ∧ t.mode = .receiving := by
  induction m generalizing s with
  | zero => exact absurd h.enough (Nat.not_lt.2 h.elapsed_le)
  | succ m ih =>
    obtain ⟨t, hstep, hready | ⟨hw, he⟩⟩ := h.step hr he
    · exact ⟨1, Nat.le_add_left 1 m, t, run_succ hstep, hready⟩
    · obtain ⟨n, hn, u, hrun, hu⟩ := ih hw he
      exact ⟨n + 1, Nat.succ_le_succ hn, u, (run_succ hstep).trans hrun, hu⟩

end

/-- Settles O45: `T + 1` advances of at least a millisecond exceed the bound. -/
theorem busyWaitIsBounded : Obligations.BusyWaitIsBounded := by
  intro s len k hinv ht hp hm hle he hlen hmoving
  have hwaiting {resume} (ht : s.task = resume .waiting) : Waiting resume (s.params.txTimeout + 1) s :=
    ⟨hinv.params, ht, hp, hm, hle, hlen, hmoving, by omega⟩
  rcases ht with ht | ⟨ht, hk⟩
  · exact (hwaiting ht).run (.frame len) he
  · exact (hwaiting ht).run (.fragment len k hk) he

end Sys2Proof.Machine
end

section
/-! The mode arbiter: MA.ENTER_TX, MA.TO_RX, MA.TIMEOUT and MA.POLL, each as one operation. -/
namespace Sys2Proof.Machine

/-- Settles O39: MA.ENTER_TX has no check, and leaves the state `enterTx s`. -/
theorem enterTxPushesTheFrame : Obligations.EnterTxPushesTheFrame := fun s =>
  ⟨enterTx s, rfl, rfl, enterTx_port s, rfl, rfl, rfl, rfl⟩

/-- Settles O40: neither operation has a check, and both leave the state `toRx s`. -/
theorem returnToReceiving : Obligations.ReturnToReceiving := fun _ => ⟨rfl, rfl⟩

/-- MA.POLL of an initialised block returns what its poll finds (R159). -/
theorem exec_maPoll {s : State} (hi : s.initialized = true) :
    exec .maPoll s = .next ((poll s).2.returned ⟨.ok, (poll s).1.toNat, []⟩) :=
  whenInitialized_of_initialized hi _

/-- MA.POLL writes nothing of the block but `tx_mode` (R159). -/
theorem poll_block (s : State) : (poll s).2.block = { s.block with mode := (poll s).2.mode } := by
  have f := poll_frame s
  simp [State.block, f.rb, f.mem, f.initialized, f.cksumErr, f.txStart, f.irqPending]

/-- The answer of MA.POLL comes behind the results so far. -/
theorem answered_poll (s : State) (r : Result) : Answered s ((poll s).2.returned r) r := by
  have f := poll_frame s
  exact ⟨by rw [returned_results, f.results], rfl, rfl, f.params⟩

/-- Settles O41, by the four outcomes of a poll (`poll_cases`): each meets the premises of one clause only. -/
theorem pollReportsReadiness : Obligations.PollReportsReadiness := by
  intro s hi
  have hrun := exec_maPoll hi
  have hanswer := answered_poll s
  have hblock := poll_block s
  rcases poll_cases s with ⟨hm, hpoll⟩ | ⟨hm, hc, hclass, hpoll⟩ | ⟨hm, hnot, hover, hpoll⟩ | ⟨hm, hnot, hle, hpoll⟩ <;>
    rw [hpoll] at hrun hanswer hblock
  · exact ⟨fun _ => hrun, by simp [hm], by simp [hm]⟩
  · exact ⟨by simp [hm], fun _ _ => ⟨_, hrun, hanswer _, hblock, List.append_assoc _ _ _⟩,
      fun _ h => absurd ⟨hc, hclass⟩ h⟩
  · exact ⟨by simp [hm], fun _ _ => ⟨_, hrun, hanswer _, hblock, List.append_assoc _ _ _⟩,
      fun _ _ h => absurd hover (Nat.not_lt.2 h)⟩
  · exact ⟨by simp [hm], fun _ h => absurd h (not_or.2 ⟨hnot, Nat.not_lt.2 hle⟩),
      fun _ _ _ => ⟨_, hrun, hanswer _, hblock.trans (by simp [State.block]), rfl⟩⟩

end Sys2Proof.Machine
end

section
/-! The radio-enable line: every part of a step that lowers it raises it again. -/
namespace Sys2Proof.Machine

/-- The radio-enable line of an initialised block is high (R233). -/
def RadioEnabled (s : State) : Prop := s.initialized = true → radioEnable s.port = some true

section
variable {s t : State}

/-- Port events that end by raising the line raise it, whatever it was. -/
theorem RadioEnabled.of_raised {es : List ChipEvent} (hport : t.port = s.port ++ es) (hes : radioEnable es = some true) :
    RadioEnabled t := fun _ => by
  rw [hport, radioEnable_append, hes]
  rfl

/-- A quiet part of a step that does not initialise the block keeps the line high. -/
theorem RadioEnabled.of_quiet (h : RadioEnabled s) (q : Quiet s t) (hi : t.initialized = true → s.initialized = true) :
    RadioEnabled t := fun ht => by
  obtain ⟨es, hport, -, hes⟩ := q.port
  rw [hport, radioEnable_append, h (hi ht)]
  match hl : radioEnable es with
  | none | some true => rfl
  | some false => exact absurd hl hes

theorem RadioEnabled.poll (h : RadioEnabled s) : RadioEnabled (Machine.poll s).2 :=
  h.of_quiet (.poll s) fun hi => (poll_frame s).initialized ▸ hi

/-- INIT raises the line (R185); everything else that returns at once is quiet, and does nothing to a block that is not
initialised. -/
theorem RadioEnabled.opEffect (h : RadioEnabled s) (e : OpEffect s t) : RadioEnabled t := by
  have q := e.quiet
  cases e with
  | nothing => exact h
  | init => exact .of_raised (initialised_port s) rfl
  | drawn _ hi | reset _ hi | startPeek _ hi | insert _ _ _ hi | remove _ _ _ hi | peek _ _ _ hi | configured _ hi
  | regRead _ _ hi | polled hi => exact h.of_quiet q fun _ => hi

theorem RadioEnabled.exec {i : Instr} (h : RadioEnabled s) (he : Machine.exec i s = .next t) : RadioEnabled t := by
  rcases exec_cases he with ⟨u, r, heff, rfl, -, -⟩ | hf
  · exact RadioEnabled.opEffect (t := u) h heff
  · cases hf with
    | enterTx => exact .of_raised (enterTx_port s) rfl
    | toRx | timeout => exact .of_raised (toRx_port s) rfl
    | discarded | drain => exact h
    | dispatch _ _ hi => exact h.of_quiet (.irqDispatch he) fun _ => hi
    | writeFrame | write => exact h.poll

/-- A removal does not initialise the block. -/
theorem removeByte_initialized {q : Pipe} {b : Byte} (h : removeByte s q = .next (b, t)) :
    t.initialized = s.initialized := by
  obtain ⟨r, hr, h⟩ := andThen_cases h
  obtain ⟨-, rfl⟩ := memRead_cases hr
  cases h
  cases s.cell (flatAddr s.params q (s.ring q).rd) <;> rfl

/-- A step of a DRAIN with bytes to come removes one, or finds the buffer empty (R189; log 26). -/
theorem stepDrain_cases {q : Pipe} {count : Nat} {out : List Byte} (hlt : out.length < count)
    (h : stepDrain q count out s = .next t) :
    t = s.setTask (.drain q count (out ++ [0])) ∨
      ∃ b u, removeByte s q = .next (b, u) ∧ t = u.setTask (.drain q count (out ++ [b])) := by
  rw [stepDrain, if_pos hlt] at h
  split at h
  · cases h
    exact .inl rfl
  · obtain ⟨⟨b, u⟩, hu, h⟩ := andThen_cases h
    cases h
    exact .inr ⟨b, u, hu, rfl⟩

/-- The push of a frame ends by raising the line (R152); every other step of the task agent is an operation, a poll, a
removal or a return. -/
theorem RadioEnabled.taskStep (h : RadioEnabled s) (he : Machine.taskStep s = .next t) : RadioEnabled t := by
  cases taskStep_cases he with
  | idle | illegal | drained | written => exact h
  | command c rest i _ _ _ _ _ he => exact RadioEnabled.exec (s := accepted s c rest i) h he
  | drain q count out _ _ hlt he =>
    obtain rfl | ⟨b, u, hu, rfl⟩ := stepDrain_cases hlt he
    · exact h
    · exact h.of_quiet (t := u) (.removeByte hu) fun hi => removeByte_initialized hu ▸ hi
  | pollFrame | pollWrite => exact h.poll
  | pushFrame => exact .of_raised (pushFrame_port s _) rfl
  | pushFragment => exact .of_raised (pushFrame_port s _) rfl

end

/-- Settles O13: a step is an operation or a step of the task agent, up to inputs, draws and the latch. -/
theorem radioIsEnabledBetweenSteps : Obligations.RadioIsEnabledBetweenSteps := by
  intro s t h hstep
  obtain ⟨s₀, u, hs₀, rfl, hu⟩ := step_cases hstep
  obtain ⟨env, n, rfl⟩ := hs₀.exists_inputs
  have h₀ : RadioEnabled { s with env := env, freeIdx := n } := h
  obtain ⟨-, hu⟩ | hu := hu
  · exact h₀.exec (t := u) hu
  · exact h₀.taskStep (t := u) hu

end Sys2Proof.Machine
end

section
/-! TIMEOUT_CHECK_IN_IRQ: a dispatch with the check is the dispatch without it, and then the check. -/
namespace Sys2Proof.Machine

/-- The same machine configured without TIMEOUT_CHECK_IN_IRQ (R7). -/
def State.withoutTimeoutCheck (s : State) : State := { s with params := { s.params with timeoutCheckInIrq := false } }

/-- The first machine is the second one, configured without TIMEOUT_CHECK_IN_IRQ. -/
def IsWithoutTimeoutCheck (s t : State) : Prop := s = t.withoutTimeoutCheck

theorem insertByte_withoutTimeoutCheck (s : State) (q : Pipe) (b : Byte) :
    Simulated IsWithoutTimeoutCheck (insertByte s.withoutTimeoutCheck q b) (insertByte s q b) := by
  have hw : Simulated IsWithoutTimeoutCheck
      (memWrite s.withoutTimeoutCheck (flatAddr s.params q (s.ring q).wr) b)
      (memWrite s (flatAddr s.params q (s.ring q).wr) b) := .ite (.next rfl) (.fault _ _)
  refine hw.andThen ?_
  rintro _ u rfl
  exact .next rfl

theorem admitBytes_withoutTimeoutCheck (q : Pipe) (bytes : List Byte) (s : State) :
    Simulated IsWithoutTimeoutCheck (admitBytes q bytes s.withoutTimeoutCheck) (admitBytes q bytes s) := by
  induction bytes generalizing s with
  | nil => exact .next rfl
  | cons b bs ih =>
    refine .ite ((insertByte_withoutTimeoutCheck s q b).andThen ?_) (ih s)
    rintro _ u rfl
    exact ih u

theorem receiveFrame_withoutTimeoutCheck (q : Pipe) (s : State) :
    Simulated IsWithoutTimeoutCheck (receiveFrame q s.withoutTimeoutCheck) (receiveFrame q s) := by
  rw [receiveFrame_eq, receiveFrame_eq,
    show parseFrame s.withoutTimeoutCheck.params (chipReadRxFrame s.withoutTimeoutCheck).rxStage =
      parseFrame s.params (chipReadRxFrame s).rxStage from rfl]
  cases parseFrame s.params (chipReadRxFrame s).rxStage with
  | some payload => exact admitBytes_withoutTimeoutCheck q payload (frameRead s)
  | none => exact .next rfl

/-- What a dispatch does past its Status read does not depend on TIMEOUT_CHECK_IN_IRQ. -/
theorem dispatchCase_withoutTimeoutCheck (c : Status) (s : State) :
    Simulated IsWithoutTimeoutCheck (dispatchCase c s.withoutTimeoutCheck) (dispatchCase c s) := by
  cases c with
  | txComplete | maxRetransmits | none => exact .next rfl
  | rxReady p =>
    simp only [dispatchCase]
    cases pipeOf p with
    | none => exact .next rfl
    | some q => exact receiveFrame_withoutTimeoutCheck q s

/-- A dispatch past its Status read does not write `tx_start` (R181). -/
theorem dispatchCase_txStart {c : Status} {s t : State} (h : dispatchCase c s = .next t) : t.txStart = s.txStart := by
  rcases dispatchCase_cases h with rfl | rfl | ⟨q, payload, h⟩ | rfl | rfl
  · rfl
  · rfl
  · rw [admitBytes_frame q payload h]
    rfl
  · rfl
  · rfl

/-- A dispatch that answers without the check answers with it, and does the check last (R180). -/
theorem irqDispatch_of_withoutTimeoutCheck {s t : State} (hi : s.initialized = true)
    (h : exec .irqDispatch s.withoutTimeoutCheck = .next t) :
    ∃ u, t = u.withoutTimeoutCheck ∧ u.params = s.params ∧ u.txStart = s.txStart ∧
      exec .irqDispatch s = .next (dispatchTimeout u) := by
  rw [irqDispatch_eq s.withoutTimeoutCheck hi] at h
  obtain ⟨_, hcase, h⟩ := andThen_cases h
  obtain ⟨u, hu, rfl⟩ := dispatchCase_withoutTimeoutCheck (chipStatus s).1 (clearPending (chipStatus s).2) _ hcase
  have hstart : u.txStart = (clearPending (chipStatus s).2).txStart := dispatchCase_txStart hu
  rw [dispatchTimeout_of_not_due _ (.inl rfl)] at h
  cases h
  refine ⟨u, rfl, (Quiet.dispatchCase hu).params, hstart, ?_⟩
  rw [irqDispatch_eq s hi, hu, andThen_next]

/-- Settles O51, by what the check can do to the state that the dispatch without it leaves (`dispatchTimeout_cases`). -/
theorem dispatchMayCheckTheTimeout : Obligations.DispatchMayCheckTheTimeout := by
  intro s t hi hcheck h
  obtain ⟨u, rfl, hparams, hstart, hrun⟩ := irqDispatch_of_withoutTimeoutCheck hi h
  have q := Quiet.irqDispatch hrun
  refine ⟨_, hrun, q.results, q.task, ?_⟩
  rw [← hparams] at hcheck
  rw [← hparams, ← hstart]
  rcases dispatchTimeout_cases u with ⟨hsame, hoff | hm⟩ | ⟨-, hm, hover, hback⟩ | ⟨-, -, hle, hstay⟩
  · simp [hcheck] at hoff
  · rw [hsame, if_neg fun hdue => by simp [State.withoutTimeoutCheck, hm] at hdue]
    exact ⟨rfl, rfl⟩
  · rw [hback, if_pos ⟨hm, hover⟩]
    exact ⟨rfl, rfl⟩
  · rw [hstay, if_neg fun hdue => absurd hdue.2 (Nat.not_lt.2 hle)]
    exact ⟨rfl, rfl⟩

end Sys2Proof.Machine
end

section
/-! A dispatch by the class of its Status: one with nothing to receive, one of an accepted frame, and what any of them
can write. -/
namespace Sys2Proof.Machine

/-- Settles O48: a dispatch of a block that is not initialised. -/
theorem dispatchBeforeInitIsDiscarded : Obligations.DispatchBeforeInitIsDiscarded := irqDispatch_uninitialised

/-- With no timeout due, a dispatch ends where its case does (R170, R180): no case enters Transmitting. -/
theorem irqDispatch_of_not_due {s t : State} (hi : s.initialized = true)
    (hdue : s.params.timeoutCheckInIrq = false ∨ s.mode = .receiving)
    (h : dispatchCase (chipStatus s).1 (clearPending (chipStatus s).2) = .next t) :
    exec .irqDispatch s = .next t := by
  have q := Quiet.dispatchCase h
  have hdue' : t.params.timeoutCheckInIrq = false ∨ t.mode = .receiving := by
    rw [q.params]
    exact hdue.imp_right fun hm => q.mode.elim (·.trans hm) id
  rw [irqDispatch_eq s hi, h, andThen_next, dispatchTimeout_of_not_due t hdue']

/-- Receive-data-ready with a pipe index that names no pipe clears the flag (R173). -/
theorem dispatchCase_rxReady_of_le {p : Nat} (hp : numPipes ≤ p) (s : State) :
    dispatchCase (.rxReady p) s = .next (emit s [.clearRxReady]) := by
  simp [dispatchCase, pipeOf, Nat.not_lt.2 hp]

/-- Settles O50: neither case writes the block behind the Status read. -/
theorem dispatchWithNothingToReceive : Obligations.DispatchWithNothingToReceive := by
  refine fun s hi hdue => ⟨fun p hp hclass => ?_, fun hclass => ?_⟩
  · have hcase := dispatchCase_rxReady_of_le hp (clearPending (chipStatus s).2)
    rw [← hclass] at hcase
    exact ⟨_, irqDispatch_of_not_due hi hdue hcase, rfl, List.append_assoc s.port _ _, rfl⟩
  · have hcase : dispatchCase .none (clearPending (chipStatus s).2) = .next _ := rfl
    rw [← hclass] at hcase
    exact ⟨_, irqDispatch_of_not_due hi hdue hcase, rfl, rfl, rfl⟩

/-- An accepted frame is read, and its payload offered to the ring buffer (R175). -/
theorem receiveFrame_of_accepted {q : Pipe} {s : State} {payload : List Byte}
    (h : parseFrame s.params (chipReadRxFrame s).rxStage = some payload) :
    receiveFrame q s = admitBytes q payload (frameRead s) := by
  rw [receiveFrame_eq, h]

/-- A dispatch of an accepted frame, with no timeout due, admits the payload behind the read of the frame (R174,
R175). -/
theorem irqDispatch_of_accepted {s : State} {q : Pipe} {payload : List Byte} (hs : Sound s) (hi : s.initialized = true)
    (hdue : s.params.timeoutCheckInIrq = false ∨ s.mode = .receiving) (hclass : (chipStatus s).1 = .rxReady q.val)
    (hframe : parseFrame s.params (chipReadRxFrame (chipStatus s).2).rxStage = some payload) :
    ∃ t, exec .irqDispatch s = .next t ∧
      admitBytes q payload (frameRead (clearPending (chipStatus s).2)) = .next t ∧
      Admitted q payload (frameRead (clearPending (chipStatus s).2)) t := by
  obtain ⟨t, ht, a⟩ := hs.chipStatus.clearPending.frameRead.admitBytes q payload
  refine ⟨t, irqDispatch_of_not_due hi hdue ?_, ht, a⟩
  rw [hclass, dispatchCase_rxReady, receiveFrame_of_accepted (s := clearPending (chipStatus s).2) hframe, ht]

/-- Settles O52: what the admission of the payload does, behind the reads of the Status and of the frame. -/
theorem acceptedFrameAdmitsAPrefix : Obligations.AcceptedFrameAdmitsAPrefix := by
  intro s q len rest hinv hi hdue hclass hstage hlen hck
  have hframe : parseFrame s.params (chipReadRxFrame (chipStatus s).2).rxStage = some (rest.take len.toNat) := by
    rw [hstage, parseFrame_cons, if_pos ⟨hlen, hck⟩]
  obtain ⟨hlt, -⟩ := List.getElem?_eq_some_iff.1 hck
  obtain ⟨t, hrun, hadmit, a⟩ := irqDispatch_of_accepted hinv.sound hi hdue hclass hframe
  have hs := hinv.sound.chipStatus.clearPending.frameRead
  refine ⟨t, hrun, by simpa using a.content, by simpa [hlt.le] using a.count, by simpa using a.rd, by simpa using a.pk,
    fun p hp => ⟨by simpa using a.ring p hp, by simpa using a.others hs p hp⟩, fun x hx => ?_, ?_, ?_, ?_⟩
  · simpa using admitBytes_cell q _ hs hadmit x (by simpa [hlt.le, flatAddr] using hx)
  · rw [a.frame]
    simp [State.block]
  · rw [Emitted, a.frame]
    simp
  · rw [a.frame]
    simp

/-! What a dispatch can write -/

/-- What a dispatch does past its Status read, by the class of the Status (R172 to R177). -/
inductive CaseEffect (s : State) : Status → State → Prop where
  | transmit {c : Status} (hc : isTransmit c = true) : CaseEffect s c (toRx s)
  | noPipe {p : Nat} (hp : numPipes ≤ p) : CaseEffect s (.rxReady p) (emit s [.clearRxReady])
  | accepted {q : Pipe} {payload : List Byte} {t : State}
      (hframe : parseFrame s.params (chipReadRxFrame s).rxStage = some payload)
      (h : admitBytes q payload (frameRead s) = .next t) : CaseEffect s (.rxReady q.val) t
  | rejected {q : Pipe} (hframe : parseFrame s.params (chipReadRxFrame s).rxStage = none) :
      CaseEffect s (.rxReady q.val) (countError (frameRead s))
  | nothing : CaseEffect s .none s

/-- From `s` to `t` bytes came in behind the write cursor of pipe `q`: no cursor of a reader moved, no byte went, no other
pipe and no cell outside the free part of the buffer changed (R175, R181). -/
structure CameIn (q : Pipe) (s t : State) : Prop where
  rd : (t.ring q).rd = (s.ring q).rd
  pk : (t.ring q).pk = (s.ring q).pk
  count : (s.ring q).count ≤ (t.ring q).count
  others : ∀ p, p ≠ q → t.ring p = s.ring p
  cell : ∀ a, (∀ i, i < s.params.capacity - (s.ring q).count →
    a ≠ flatAddr s.params q (((s.ring q).wr + i) % s.params.capacity)) → t.cell a = s.cell a

/-- Only the ring buffers and the cells matter to what came in. -/
theorem CameIn.congr {q : Pipe} {s t u : State} (h : CameIn q s t) (hrb : u.rb = t.rb) (hmem : u.mem = t.mem) :
    CameIn q s u := by
  have hring : u.ring = t.ring := funext fun p => congrArg (fun rb => rb[p]) hrb
  have hcell : u.cell = t.cell := funext fun a => congrArg (fun m => Memory.lookup m a) hmem
  exact ⟨hring ▸ h.rd, hring ▸ h.pk, hring ▸ h.count, hring ▸ h.others, hcell ▸ h.cell⟩

/-- The admission of a payload only brings bytes in (R175, R178). -/
theorem CameIn.admitBytes {q : Pipe} {payload : List Byte} {s t : State} (hs : Sound s)
    (h : Machine.admitBytes q payload s = .next t) : CameIn q s t := by
  obtain ⟨u, hu, a⟩ := hs.admitBytes q payload
  rw [h] at hu
  cases hu
  refine ⟨a.rd, a.pk, ?_, a.ring, fun x hx => admitBytes_cell q payload hs h x fun i hi => hx i ?_⟩
  · rw [a.count]
    exact Nat.le_add_right _ _
  · exact hi.trans_le (Nat.min_le_right _ _)

/-- The read of a frame touches no ring buffer and no cell (R174). -/
theorem CameIn.of_frameRead {q : Pipe} {s t : State} (h : CameIn q (frameRead s) t) : CameIn q s t where
  rd := by simpa using h.rd
  pk := by simpa using h.pk
  count := by simpa using h.count
  others := by simpa using h.others
  cell := by simpa using h.cell

section
variable {c : Status} {s t : State}

theorem CaseEffect.of_dispatchCase (h : dispatchCase c s = .next t) : CaseEffect s c t := by
  cases c with
  | txComplete | maxRetransmits => cases h; exact .transmit rfl
  | none => cases h; exact .nothing
  | rxReady p =>
    by_cases hp : p < numPipes
    · obtain ⟨q, rfl⟩ : ∃ q : Pipe, q.val = p := ⟨⟨p, hp⟩, rfl⟩
      rw [dispatchCase_rxReady] at h
      cases hframe : parseFrame s.params (chipReadRxFrame s).rxStage with
      | some payload => exact .accepted hframe (receiveFrame_of_accepted hframe ▸ h)
      | none =>
        rw [receiveFrame_of_rejected hframe] at h
        cases h
        exact .rejected hframe
    · rw [dispatchCase_rxReady_of_le (Nat.not_lt.1 hp)] at h
      cases h
      exact .noPipe (Nat.not_lt.1 hp)

/-- No case writes the latch, `initialized` or `tx_start` (R181). -/
theorem CaseEffect.kept (e : CaseEffect s c t) :
    t.irqPending = s.irqPending ∧ t.initialized = s.initialized ∧ t.txStart = s.txStart := by
  cases e with
  | accepted _ h => rw [admitBytes_frame _ _ h]; simp
  | transmit | noPipe | rejected | nothing => simp

/-- Only a transmit class writes `tx_mode` (R172). -/
theorem CaseEffect.mode (e : CaseEffect s c t) (hc : ¬ isTransmit c = true) : t.mode = s.mode := by
  cases e with
  | transmit h => exact absurd h hc
  | accepted _ h => rw [admitBytes_frame _ _ h]; simp
  | noPipe | rejected | nothing => simp

/-- Only a frame of a valid pipe that is not accepted is counted (R176). -/
theorem CaseEffect.cksumErr (e : CaseEffect s c t) (hne : t.cksumErr ≠ s.cksumErr) :
    (∃ q : Pipe, c = .rxReady q.val) ∧ parseFrame s.params (chipReadRxFrame s).rxStage = none := by
  cases e with
  | rejected hframe => exact ⟨⟨_, rfl⟩, hframe⟩
  | accepted _ h => rw [admitBytes_frame _ _ h] at hne; simp at hne
  | transmit | noPipe | nothing => simp at hne

/-- Only an accepted frame writes a ring buffer, that of its own pipe (R175). -/
theorem CaseEffect.rings (e : CaseEffect s c t) (hs : Sound s) :
    t.rb = s.rb ∧ t.mem = s.mem ∨
      parseFrame s.params (chipReadRxFrame s).rxStage ≠ none ∧ ∃ q : Pipe, c = .rxReady q.val ∧ CameIn q s t := by
  cases e with
  | accepted hframe h =>
    exact .inr ⟨by simp [hframe], _, rfl, (CameIn.admitBytes hs.frameRead h).of_frameRead⟩
  | transmit | noPipe | rejected | nothing => simp

end

/-- Settles O54: what the case of the Status writes (`CaseEffect`), and the timeout check after it. -/
theorem dispatchWritesOnlyItsOwnState : Obligations.DispatchWritesOnlyItsOwnState := by
  intro s t hinv h
  have quiet := Quiet.irqDispatch h
  cases hi : s.initialized with
  | false =>
    rw [irqDispatch_uninitialised s hi] at h
    cases h
    exact ⟨rfl, hi, rfl, rfl, rfl, rfl, rfl, fun hne => absurd rfl hne, fun hne => absurd rfl hne, .inl ⟨rfl, rfl⟩⟩
  | true =>
    rw [irqDispatch_eq s hi] at h
    obtain ⟨u, hcase, ht⟩ := andThen_cases h
    cases ht
    have e := CaseEffect.of_dispatchCase hcase
    obtain ⟨hlatch, hinit, hstart⟩ := e.kept
    obtain ⟨-, hrb', hmem', hstart', hlatch', hinit', hck'⟩ := dispatchTimeout_frame u
    refine ⟨hlatch'.trans hlatch, (hinit'.trans hinit).trans hi, hstart'.trans hstart, quiet.params, quiet.results,
      quiet.task, quiet.inStream, fun hne => ⟨rfl, quiet.mode.resolve_left hne, ?_⟩,
      fun hne => ⟨rfl, e.cksumErr (hck' ▸ hne)⟩, ?_⟩
    · by_contra hnot
      obtain ⟨hclass, hcheck⟩ := not_or.1 hnot
      have hoff : u.params.timeoutCheckInIrq = false := by
        rw [(Quiet.dispatchCase hcase).params]
        exact Bool.eq_false_iff.2 hcheck
      rw [dispatchTimeout_of_not_due u (.inl hoff)] at hne
      exact hne (e.mode hclass)
    · obtain ⟨hrb, hmem⟩ | ⟨hframe, q, hclass, came⟩ := e.rings hinv.sound.chipStatus.clearPending
      · exact .inl ⟨hrb'.trans hrb, hmem'.trans hmem⟩
      · have came' := came.congr hrb' hmem'
        exact .inr ⟨rfl, hframe, q, hclass, came'.rd, came'.pk, came'.count, came'.others, came'.cell⟩

end Sys2Proof.Machine
end

section
/-! The application interface: the checks of an uninitialised block and of the pipe index, and the operations that are one
transaction on the chip port. -/
namespace Sys2Proof.Machine

/-- Settles O17: check (2) of R92 rejects (`exec_of_uninitialised`), and a rejection is the return of its code. -/
theorem uninitialisedBlockRejects : Obligations.UninitialisedBlockRejects := fun _ _ hs hc hi hp =>
  exec_of_uninitialised hs hc hi hp

/-- Once initialised, an operation of a pipe that does not exist is rejected by the check of R187. -/
theorem whenInitialized_withPipe_of_le {s : State} {p : Nat} (hi : s.initialized = true) (hp : numPipes ≤ p)
    (k : Pipe → Outcome State) : whenInitialized s (withPipe s p k) = .next (s.returned ⟨.rejRange, 0, []⟩) := by
  rw [whenInitialized_of_initialized hi, withPipe, pipeOf, dif_neg (Nat.not_lt.2 hp)]
  rfl

/-- Settles O20: each of these operations begins with the two common checks, and the second rejects. -/
theorem outOfRangePipeIsRejected : Obligations.OutOfRangePipeIsRejected := by
  intro s p capacity count b hi hp i hmem
  have rejected := whenInitialized_withPipe_of_le hi hp
  simp only [List.mem_cons, List.not_mem_nil, or_false] at hmem
  rcases hmem with rfl | rfl | rfl | rfl | rfl | rfl | rfl | rfl | rfl | rfl | rfl <;> exact rejected _

/-- A mask below 64 has neither bit 6 nor bit 7 (R195). -/
theorem validMask_eq_true {mask : Byte} (h : mask.toNat < 64) : validMask mask = true := by
  have hdiv : mask.toNat >>> 6 = 0 := by rw [Nat.shiftRight_eq_div_pow, Nat.div_eq_of_lt h]
  simp [validMask, ← BitVec.toNat_inj, hdiv]

/-- Settles O58: past its checks each operation issues its one event and returns; a stream of the right length is taken
whole. -/
theorem configurationIsOneTransaction : Obligations.ConfigurationIsOneTransaction := by
  intro s hi
  have run := whenInitialized_of_initialized hi
  refine ⟨fun p bytes hs hlen => ?_, fun ch h => (run _).trans (if_neg (Nat.not_lt.2 h)), fun mask h => ?_⟩
  · have whole : s.inStream.take s.params.addrLen = bytes := by rw [hs, ← hlen, List.take_length]
    subst whole
    exact ⟨whenInitialized_withPipe hi p _, run _⟩
  · have hm := validMask_eq_true h
    exact ⟨(run _).trans (if_pos hm), (run _).trans (if_pos hm)⟩

/-- REG.READ of a valid address returns the bytes the chip answers (R202). -/
theorem exec_regRead_valid {s : State} {addr : Byte} (hi : s.initialized = true) (ha : validReg s.params addr = true)
    (count : Nat) :
    exec (.regRead addr count) s =
      .next ((chipRegRead s addr count).2.returned ⟨.ok, 0, (chipRegRead s addr count).1⟩) :=
  (whenInitialized_of_initialized hi _).trans (if_pos ha)

/-- REG.READ of an invalid address returns free bytes with its rejection (R202). -/
theorem exec_regRead_invalid {s : State} {addr : Byte} (hi : s.initialized = true) (ha : validReg s.params addr = false)
    (count : Nat) :
    exec (.regRead addr count) s =
      .next ((drawBytes count s).2.returned ⟨.rejRange, 0, (drawBytes count s).1⟩) :=
  (whenInitialized_of_initialized hi _).trans (if_neg (by simp [ha]))

/-- The chip's next answer, when it has the length that was asked for, is what is read (R232). -/
theorem chipRegRead_of_answer {s : State} {answer : List Byte} {later : List (List Byte)}
    (h : s.env.regAnswers = answer :: later) (addr : Byte) : (chipRegRead s addr answer.length).1 = answer := by
  rw [chipRegRead, h]
  exact fit_eq_self _ _ _ rfl

/-- Settles O59: the writes as the configuration operations, and REG.READ by its two equations; a draw and a read change no
state of the block. -/
theorem registerAccessIsOneTransaction : Obligations.RegisterAccessIsOneTransaction := by
  intro s addr b bytes count hi
  have run := whenInitialized_of_initialized hi
  refine ⟨fun ha => ⟨(run _).trans (if_pos ha), fun hs => ?_, ?_⟩, fun ha => ?_⟩
  · have whole : s.inStream.take bytes.length = bytes := by rw [hs, List.take_length]
    refine (run _).trans ((if_pos ha).trans ?_)
    rw [whole]
    rfl
  · refine ⟨_, _, exec_regRead_valid hi ha count, ⟨rfl, rfl, rfl, rfl⟩, length_fit _ _ _, ?_, rfl, rfl⟩
    rintro answer later hanswer rfl
    exact chipRegRead_of_answer hanswer addr
  · exact ⟨_, _, exec_regRead_invalid hi ha count, ⟨rfl, rfl, rfl, rfl⟩, length_fit _ _ _, rfl, rfl⟩

end Sys2Proof.Machine
end

section
/-! The exceptions: an operation returns only its codes, and in a good state nothing stops. -/
namespace Sys2Proof.Machine

/-- Settles O19: an operation that returns at once returns one of its codes (`exec_cases`), and the first step of any
other returns nothing (`FirstStep.results`). -/
theorem operationsReturnOnlyTheirCodes : Obligations.OperationsReturnOnlyTheirCodes := by
  intro i s t h
  rcases exec_cases h with ⟨u, r, he, rfl, hcode, -⟩ | hf
  · exact .inr ⟨r, by rw [finish_results, he.quiet.results], hcode⟩
  · exact .inl hf.results

/-- An outcome that is not a stop. -/
def Answers {α : Type} (x : Outcome α) : Prop := ∃ a, x = .next a

section
variable {α β : Type} {x y : Outcome α} {s : State} {k : Outcome State}

theorem Answers.next (a : α) : Answers (.next a) := ⟨a, rfl⟩

theorem Answers.andThen {f : α → Outcome β} (h : Answers x) (hf : ∀ a, Answers (f a)) :
    Answers (Machine.andThen x f) := by
  obtain ⟨a, rfl⟩ := h
  exact hf a

theorem Answers.ite {c : Prop} [Decidable c] (hx : Answers x) (hy : Answers y) : Answers (if c then x else y) := by
  split
  · exact hx
  · exact hy

/-- A failed check is an answer (R14, R210), so an operation behind its checks answers if its body does. -/
theorem Answers.whenInitialized (h : Answers k) : Answers (Machine.whenInitialized s k) := h.ite (.next _)

theorem Answers.withinPayload {len : Nat} (h : Answers k) : Answers (Machine.withinPayload s len k) := .ite (.next _) h

theorem Answers.withPipe {p : Nat} {k : Pipe → Outcome State} (h : ∀ q, Answers (k q)) :
    Answers (Machine.whenInitialized s (Machine.withPipe s p k)) := by
  refine .whenInitialized ?_
  unfold Machine.withPipe
  cases pipeOf p with
  | none => exact .next _
  | some q => exact h q

end

section
variable {s : State}

/-! The ring-buffer accesses of a sound state are to addresses that exist (R22, R52). -/

theorem Sound.answers_insertByte (h : Sound s) (q : Pipe) (b : Byte) : Answers (insertByte s q b) :=
  ⟨_, insertByte_eq s q b (h.rings q).wr_lt⟩

theorem Sound.answers_removeByte (h : Sound s) (q : Pipe) : Answers (Machine.removeByte s q) := by
  rw [Machine.removeByte, memRead_of_lt s _ (flatAddr_lt _ _ _ (h.rings q).rd_lt)]
  exact .next _

theorem Sound.answers_peekByte (h : Sound s) (q : Pipe) : Answers (peekByte s q) := by
  obtain ⟨v, k, hk⟩ := peekByte_eq s q (h.rings q).pk_lt
  exact ⟨_, hk⟩

/-- A dispatch of a sound state answers: past its Status read the block is still sound. -/
theorem Sound.answers_irqDispatch (h : Sound s) : Answers (exec .irqDispatch s) := by
  refine .ite ?_ (.next _)
  obtain ⟨t, ht, -⟩ := h.clearPending.chipStatus.dispatchCase (Machine.chipStatus (Machine.clearPending s)).1
  exact .andThen ⟨t, ht⟩ fun _ => .next _

/-- Every operation answers in a sound state: only three ring-buffer operations and a dispatch access space RB. -/
theorem Sound.answers_exec (h : Sound s) (i : Instr) : Answers (exec i s) := by
  cases i with
  | rbInsert p b => exact .withPipe fun q => .ite (.next _) ((h.answers_insertByte q b).andThen fun _ => .next _)
  | rbRemove p => exact .withPipe fun q => .ite (.next _) ((h.answers_removeByte q).andThen fun _ => .next _)
  | rbPeek p => exact .withPipe fun q => .ite (.next _) ((h.answers_peekByte q).andThen fun _ => .next _)
  | irqDispatch => exact h.answers_irqDispatch
  | rbInit | drain => exact .withPipe fun _ => .ite (.next _) (.next _)
  | rbStartPeek | rbCount | rbIsEmpty | rbIsFull | available | setRxPipeAddress =>
    exact .withPipe fun _ => .next _
  | ckCompute | ckVerify | frBuild => exact .withinPayload (.next _)
  | writeFrame => exact .whenInitialized (.withinPayload (.next _))
  | write | setChannel | enablePipes | disablePipes | regWrite | regWriteN | regRead =>
    exact .whenInitialized (.ite (.next _) (.next _))
  | maPoll | ckerrCount | setTxAddress => exact .whenInitialized (.next _)
  | frParse =>
    rw [exec, execFrParse]
    cases parseFrame s.params (s.inStream.take s.params.frameSize) with
    | some payload => exact .next _
    | none => exact .next _
  | frSplit | maEnterTx | maToRx | maTimeout | init => exact .next _

/-- The command port answers every command, whatever its word stands for (R84, R85). -/
theorem Sound.answers_issue (h : Sound s) (c : Command) : Answers (issue c s) := by
  rw [issue]
  cases c.operation s.params with
  | error e => exact .next _
  | ok i =>
    have ho : Sound (openStream i c.stream s) := h.congr rfl rfl rfl h.cksum_lt h.start_lt h.now_lt
    exact (ho.answers_exec i).ite (.next _)

/-- Every step of the task agent answers in a sound state. -/
theorem Sound.answers_taskStep (h : Sound s) : Answers (taskStep s) := by
  rw [taskStep]
  cases s.task with
  | idle =>
    rw [acceptCommand]
    cases s.env.commands with
    | nil => exact .next s
    | cons c rest =>
      have hs : Sound { s with env := { s.env with commands := rest } } :=
        h.congr rfl rfl rfl h.cksum_lt h.start_lt h.now_lt
      exact hs.answers_issue c
  | drain q count out =>
    exact .ite (.ite (.next _) ((h.answers_removeByte q).andThen fun _ => .next _)) (.next _)
  | writeFrame len phase => cases phase <;> exact .next _
  | write len k phase =>
    cases phase with
    | waiting => exact .ite (.next _) (.next _)
    | sending => exact .next _

/-- Every step answers in a sound state, whichever agent moves: draws leave the state sound. -/
theorem Sound.answers_step (h : Sound s) : Answers (step s) := by
  have hd : Sound (drawEdge s).2 := (drawEdge_same s).sound h
  have hc : Sound (drawChoice (drawEdge s).2).2 := (drawChoice_same _).sound hd
  exact .andThen (.ite (.ite hc.answers_irqDispatch hc.answers_taskStep) hd.answers_taskStep) fun _ => .next _

end

/-- Settles O10: a good state is sound, and in a sound state every step and every operation answers. -/
theorem nothingStops : Obligations.NothingStops := fun _ h =>
  ⟨h.sound.answers_step, h.sound.answers_exec⟩

end Sys2Proof.Machine
end

section
/-! A step with nothing to do, and RB.INIT. -/
namespace Sys2Proof.Machine

/-- A task agent with no operation running and no command waiting does nothing (R62). -/
theorem taskStep_of_no_command {s : State} (ht : s.task = .idle) (hc : s.env.commands = []) : taskStep s = .next s := by
  simp only [taskStep, ht, acceptCommand, hc]

/-- Settles O7: the agent that moves is the task agent, which does nothing, and then the edge is latched. -/
theorem idleBlockWaits : Obligations.IdleBlockWaits := by
  intro s ht hp hc
  have hstep : step s = .next (latchEdge (drawEdge s).1 (drawEdge s).2) := by
    rw [step_of_not_pending hp, taskStep_of_no_command (s := (drawEdge s).2) ht hc, andThen_next]
  exact ⟨_, hstep, by simp [State.block, hp], rfl, rfl, ht⟩

/-- RB.INIT of an existing pipe is decided by its check of the capacity (R100). -/
theorem exec_rbInit {s : State} (hi : s.initialized = true) (p : Pipe) (capacity : Nat) :
    exec (.rbInit p.val capacity) s =
      if capacity = s.params.capacity then .next ((s.setRing p .zero).returned ⟨.ok, 0, []⟩)
      else .next (s.returned ⟨.rejRange, 0, []⟩) :=
  whenInitialized_withPipe hi p _

/-- Settles O22: with the capacity `N` the check passes, and the four registers become zero. -/
theorem ringInitZeroesOnePipe : Obligations.RingInitZeroesOnePipe := fun s p hi =>
  (exec_rbInit hi p s.params.capacity).trans (if_pos rfl)

end Sys2Proof.Machine
end
